-- ==== Sys2Proof/Word.lean ====
section
/-! DEFINITION. The words of the hardware: the widths that 00_scope.md rule R5 fixes and the names the model gives them.
Every value is unsigned (rule R6); arithmetic in the rules is over the naturals and narrowed explicitly (rule R8). -/

namespace Sys2Proof

/-- One byte of SRC, DST or PIX (20_memory.md rules R61 to R63). -/
abbrev Byte := BitVec 8

/-- One command packet (30_encoding.md rule R90). -/
abbrev Packet := BitVec 128

/-- The width of RES, of the response data and of every register read (00_scope.md rule R5). -/
abbrev RegWord := BitVec 64

/-- A byte address on the SRC port, 61 bits (20_memory.md rules R61, R81). -/
abbrev SrcAddr := BitVec 61

/-- A pixel index on the PIX port, 64 bits (20_memory.md rules R63, R81). -/
abbrev PixIndex := BitVec 64

/-- The 24-bit field of a pixel (20_memory.md rule R67). -/
abbrev Field24 := BitVec 24

end Sys2Proof
end

