-- ==== Sys2Proof/Config.lean ====
section
/-! DEFINITION. What this implementation fixes (00_scope.md rule R5) and the model's one value for a byte nobody has written.
The spec leaves no result value open ("given the registers, the three memories and IOERR, every command has exactly one
outcome", 93_implementation_defined.md), so there is no free value here; its one open parameter, IOERR, is data of State. -/

namespace Sys2Proof.Config

/-- HEADER_PIXEL_LENGTH: the header is pixels 0 to 31 (00_scope.md rule R5, 20_memory.md rule R74). -/
def headerPixels : Nat := 32

/-- Bits of a pixel's field (00_scope.md rule R5). -/
def pixelBits : Nat := 24

/-- The largest chunk length of the reader and the writer (00_scope.md rule R5). -/
def maxChunkBits : Nat := 32

/-- Legal source lengths are below this (10_state.md rule R29). -/
def srcLenLimit : Nat := 2 ^ 61

/-- Payload sizes are below this (60_exceptions.md rule R224). -/
def sizeLimit : Nat := 2 ^ 32

/-- DESIGN CHOICE, unsafe (log 5): what a byte of SRC or PIX that the state does not list reads as. The spec leaves the
contents at reset to their owner (93_implementation_defined.md U12). -/
def unlistedByte : Byte := 0

/-- Bytes in the SRC address space: 61-bit byte addresses (20_memory.md rule R61). -/
def srcBytes : Nat := 2 ^ 61

/-- Byte keys of PIX: four for each 64-bit pixel index (log 7). -/
def pixBytes : Nat := 4 * 2 ^ 64

end Sys2Proof.Config
end

