-- ==== Sys2Proof/Syntax.lean ====
section
/-! DEFINITION. The 23 commands (30_encoding.md rule R94) with the operands that rule R91 gives each, by field.
A field's width is the packet's; ranges of values are checked by each command's own rule, not here (rule R95). -/

namespace Sys2Proof

/-- One constructor for each row of spec/opcode_table.json. -/
inductive Instr where
  /-- MASK (R121): width select, `inverted`, `length`. -/
  | mask (wsel : BitVec 3) (inv : Bool) (n : BitVec 7)
  /-- GETBITS (R123): width select, `length`, `position`, `source`. -/
  | getbits (wsel : BitVec 3) (n : BitVec 7) (p : BitVec 7) (src : BitVec 64)
  /-- B2U24 (R124): bytes 0, 1, 2. -/
  | b2u24 (b0 b1 b2 : Byte)
  /-- U24B (R125): the 32-bit argument. -/
  | u24b (x : BitVec 32)
  /-- LJUST (R127): `data_length`, `data`. -/
  | ljust (n : BitVec 7) (data : BitVec 32)
  /-- RDINIT (R141): `chunk_size`, source length in bytes. -/
  | rdinit (n : BitVec 7) (srclen : BitVec 64)
  /-- RDCHUNK (R142). -/
  | rdchunk
  /-- WRITE (R152): chunk `length`, chunk `data`. -/
  | write (n : BitVec 7) (data : BitVec 32)
  /-- WRITEC (R153). -/
  | writec
  /-- WRCLOSE (R155). -/
  | wrclose
  /-- IMGCFG (R165): channels, `height`, `width`. -/
  | imgcfg (n : BitVec 7) (height width : BitVec 32)
  /-- ENCBITS (R167): `bits_length`, `y`, `x`, `bits`. -/
  | encbits (n : BitVec 7) (y x bits : BitVec 32)
  /-- DECBITS (R168): `bits_length`, `y`, `x`. -/
  | decbits (n : BitVec 7) (y x : BitVec 32)
  /-- GETCOORD (R170): `chunk_order`. -/
  | getcoord (order : BitVec 64)
  /-- CHUNKSZ (R173): `total_data_size_bytes`. -/
  | chunksz (size : BitVec 64)
  /-- ENCHDR (R186): `total_data_size`. -/
  | enchdr (size : BitVec 64)
  /-- DECHDR (R188). -/
  | dechdr
  /-- SETUPH (R190): `total_data_size`. -/
  | setuph (size : BitVec 64)
  /-- SETUPX (R192). -/
  | setupx
  /-- HIDE (R194): chunk `length`, `order` (assembled from `hi` and `lo[63:32]`, R92), chunk `data`. -/
  | hide (n : BitVec 7) (order : BitVec 64) (data : BitVec 32)
  /-- HIDEC (R195). -/
  | hidec
  /-- PULL (R196). -/
  | pull
  /-- RDREG (R210): CSR number. -/
  | rdreg (p : BitVec 7)
  deriving DecidableEq, Repr

end Sys2Proof
end

