-- ==== Sys2Proof/WellFormed.lean ====
section
/-! DEFINITION. Which terms of Instr are commands: the two checks of 30_encoding.md rule R95 that a field's width does not
already make, (4) the width select of MASK and GETBITS and (5) the CSR number of RDREG. -/

namespace Sys2Proof

/-- The CSR numbers of 10_state.md rule R26 (the list of 45_system.md rule R210). -/
def csrNumbers : List (BitVec 7) :=
  [0x00, 0x01, 0x02, 0x03, 0x04, 0x05, 0x08, 0x09, 0x0A, 0x10, 0x11, 0x12, 0x13, 0x18, 0x19, 0x1A, 0x20, 0x21, 0x22]

/-- R95 (4): width selects 5, 6 and 7 are reserved. -/
def widthSelectOk (wsel : BitVec 3) : Bool := decide (wsel.toNat ≤ 4)

/-- R95 (5): the number is one of rule R26. -/
def csrNumberOk (p : BitVec 7) : Bool := csrNumbers.contains p

/-- The term is a command of the set. -/
def Instr.wellFormed : Instr → Bool
  | .mask wsel _ _ => widthSelectOk wsel
  | .getbits wsel _ _ _ => widthSelectOk wsel
  | .rdreg p => csrNumberOk p
  | .b2u24 _ _ _ => true
  | .u24b _ => true
  | .ljust _ _ => true
  | .rdinit _ _ => true
  | .rdchunk => true
  | .write _ _ => true
  | .writec => true
  | .wrclose => true
  | .imgcfg _ _ _ => true
  | .encbits _ _ _ _ => true
  | .decbits _ _ _ => true
  | .getcoord _ => true
  | .chunksz _ => true
  | .enchdr _ => true
  | .dechdr => true
  | .setuph _ => true
  | .setupx => true
  | .hide _ _ _ => true
  | .hidec => true
  | .pull => true

end Sys2Proof
end

