-- ==== Sys2Proof/Decode.lean ====
section
/-! DEFINITION. Decoding (30_encoding.md rules R90 to R97), total on every 128-bit value and rejecting by name, and the
encoder written from the same tables. A packet is taken apart into its eight fields once, here; the machine never sees a
raw packet. -/

namespace Sys2Proof

/-- The eight fields of a packet, in the order of rule R90. -/
structure Fields where
  op   : BitVec 8
  wsel : BitVec 3
  inv  : BitVec 1
  n    : BitVec 7
  p    : BitVec 7
  rsv  : BitVec 6
  hi   : BitVec 32
  lo   : BitVec 64
  deriving DecidableEq, Repr

/-- The field positions of rule R90, read. -/
def Fields.ofPacket (w : Packet) : Fields where
  op   := w.extractLsb' 120 8
  wsel := w.extractLsb' 117 3
  inv  := w.extractLsb' 116 1
  n    := w.extractLsb' 109 7
  p    := w.extractLsb' 102 7
  rsv  := w.extractLsb' 96 6
  hi   := w.extractLsb' 64 32
  lo   := w.extractLsb' 0 64

/-- The field positions of rule R90, written: `op` is the most significant. -/
def Fields.toPacket (f : Fields) : Packet :=
  f.op ++ f.wsel ++ f.inv ++ f.n ++ f.p ++ f.rsv ++ f.hi ++ f.lo

/-- The working widths of rule R93. -/
inductive Width where
  | w8 | w16 | w24 | w32 | w64
  deriving DecidableEq, Repr

/-- W as a number. -/
def Width.bits : Width → Nat
  | .w8 => 8
  | .w16 => 16
  | .w24 => 24
  | .w32 => 32
  | .w64 => 64

/-- The table of rule R93; 5, 6 and 7 are reserved. -/
def Width.ofSelect (wsel : BitVec 3) : Option Width :=
  match wsel.toNat with
  | 0 => some .w8
  | 1 => some .w16
  | 2 => some .w24
  | 3 => some .w32
  | 4 => some .w64
  | _ => none

/-- The registers RDREG reads, under the names of 10_state.md rule R26. -/
inductive Csr where
  | status | err | res | chkData | chkLen | chkOrder
  | imgW | imgH | imgCh
  | srcLen | rdCsize | rdCursor | rdOrder
  | remData | remLen | dstCount
  | hidSize | hidCsize | rdPos
  deriving DecidableEq, Repr

/-- The CSR map of 10_state.md rule R26; every other number is unimplemented. -/
def Csr.ofNumber (p : BitVec 7) : Option Csr :=
  match p.toNat with
  | 0x00 => some .status
  | 0x01 => some .err
  | 0x02 => some .res
  | 0x03 => some .chkData
  | 0x04 => some .chkLen
  | 0x05 => some .chkOrder
  | 0x08 => some .imgW
  | 0x09 => some .imgH
  | 0x0A => some .imgCh
  | 0x10 => some .srcLen
  | 0x11 => some .rdCsize
  | 0x12 => some .rdCursor
  | 0x13 => some .rdOrder
  | 0x18 => some .remData
  | 0x19 => some .remLen
  | 0x1A => some .dstCount
  | 0x20 => some .hidSize
  | 0x21 => some .hidCsize
  | 0x22 => some .rdPos
  | _ => none

/-- The mnemonics of rule R94. -/
inductive Opcode where
  | mask | getbits | b2u24 | u24b | ljust
  | rdinit | rdchunk
  | write | writec | wrclose
  | imgcfg | encbits | decbits | getcoord | chunksz
  | enchdr | dechdr | setuph | setupx | hide | hidec | pull
  | rdreg
  deriving DecidableEq, Repr

/-- The `op` column of rule R94. -/
def Opcode.code : Opcode → BitVec 8
  | .mask => 0x01
  | .getbits => 0x02
  | .b2u24 => 0x03
  | .u24b => 0x04
  | .ljust => 0x05
  | .rdinit => 0x10
  | .rdchunk => 0x11
  | .write => 0x18
  | .writec => 0x19
  | .wrclose => 0x1A
  | .imgcfg => 0x20
  | .encbits => 0x21
  | .decbits => 0x22
  | .getcoord => 0x23
  | .chunksz => 0x24
  | .enchdr => 0x28
  | .dechdr => 0x29
  | .setuph => 0x2A
  | .setupx => 0x2B
  | .hide => 0x2C
  | .hidec => 0x2D
  | .pull => 0x2E
  | .rdreg => 0x3F

/-- Rule R94 read from its `op` column; every other value is reserved (rule R97). -/
def Opcode.ofCode (c : BitVec 8) : Option Opcode :=
  match c.toNat with
  | 0x01 => some .mask
  | 0x02 => some .getbits
  | 0x03 => some .b2u24
  | 0x04 => some .u24b
  | 0x05 => some .ljust
  | 0x10 => some .rdinit
  | 0x11 => some .rdchunk
  | 0x18 => some .write
  | 0x19 => some .writec
  | 0x1A => some .wrclose
  | 0x20 => some .imgcfg
  | 0x21 => some .encbits
  | 0x22 => some .decbits
  | 0x23 => some .getcoord
  | 0x24 => some .chunksz
  | 0x28 => some .enchdr
  | 0x29 => some .dechdr
  | 0x2A => some .setuph
  | 0x2B => some .setupx
  | 0x2C => some .hide
  | 0x2D => some .hidec
  | 0x2E => some .pull
  | 0x3F => some .rdreg
  | _ => none

/-- Which fields a command uses: a row of rule R91. `lo` is the mask of the bits of `lo` it uses. -/
structure Uses where
  wsel : Bool
  inv  : Bool
  n    : Bool
  p    : Bool
  hi   : Bool
  lo   : BitVec 64
  deriving DecidableEq, Repr

/-- All of `lo`, and its two halves. -/
def loAll : BitVec 64 := 0xFFFFFFFFFFFFFFFF
def loLow : BitVec 64 := 0x00000000FFFFFFFF
def loHigh : BitVec 64 := 0xFFFFFFFF00000000

/-- The table of rule R91, row by row. -/
def Opcode.uses : Opcode → Uses
  | .mask     => ⟨true,  true,  true,  false, false, 0⟩
  | .getbits  => ⟨true,  false, true,  true,  false, loAll⟩
  | .b2u24    => ⟨false, false, false, false, false, 0xFFFFFF⟩
  | .u24b     => ⟨false, false, false, false, false, loLow⟩
  | .ljust    => ⟨false, false, true,  false, false, loLow⟩
  | .rdinit   => ⟨false, false, true,  false, false, loAll⟩
  | .rdchunk  => ⟨false, false, false, false, false, 0⟩
  | .write    => ⟨false, false, true,  false, false, loLow⟩
  | .writec   => ⟨false, false, false, false, false, 0⟩
  | .wrclose  => ⟨false, false, false, false, false, 0⟩
  | .imgcfg   => ⟨false, false, true,  false, true,  loLow⟩
  | .encbits  => ⟨false, false, true,  false, true,  loAll⟩
  | .decbits  => ⟨false, false, true,  false, true,  loHigh⟩
  | .getcoord => ⟨false, false, false, false, false, loAll⟩
  | .chunksz  => ⟨false, false, false, false, false, loAll⟩
  | .enchdr   => ⟨false, false, false, false, false, loAll⟩
  | .dechdr   => ⟨false, false, false, false, false, 0⟩
  | .setuph   => ⟨false, false, false, false, false, loAll⟩
  | .setupx   => ⟨false, false, false, false, false, 0⟩
  | .hide     => ⟨false, false, true,  false, true,  loAll⟩
  | .hidec    => ⟨false, false, false, false, false, 0⟩
  | .pull     => ⟨false, false, false, false, false, 0⟩
  | .rdreg    => ⟨false, false, false, true,  false, 0⟩

/-- Rule R96 for the fields other than `rsv`: what the command does not use is zero. -/
def Fields.unusedZero (f : Fields) (u : Uses) : Bool :=
  (u.wsel || f.wsel == 0) && (u.inv || f.inv == 0) && (u.n || f.n == 0) && (u.p || f.p == 0) &&
    (u.hi || f.hi == 0) && (f.lo &&& ~~~u.lo == 0)

/-- Why a packet is illegal: the five tests of rule R95. All of them raise ILLEGAL (60_exceptions.md rule R221). -/
inductive Reject where
  /-- R95 (1): `rsv` is not zero. -/
  | reservedField
  /-- R95 (2): `op` is not in rule R94. -/
  | reservedOpcode
  /-- R95 (3): a field, or a bit of `lo`, that the command does not use is not zero. -/
  | unusedFieldNotZero
  /-- R95 (4): MASK or GETBITS with `wsel` 5, 6 or 7. -/
  | reservedWidth
  /-- R95 (5): RDREG of a number that rule R26 does not list. -/
  | unimplementedCsr
  deriving DecidableEq, Repr

/-- R95 (4), (5) and (6): the operands by rule R92, once the must-be-zero fields have passed. -/
def operandsOf (o : Opcode) (f : Fields) : Except Reject Instr :=
  match o with
  | .mask =>
    match Width.ofSelect f.wsel with
    | some _ => .ok (.mask f.wsel (f.inv == 1) f.n)
    | none => .error .reservedWidth
  | .getbits =>
    match Width.ofSelect f.wsel with
    | some _ => .ok (.getbits f.wsel f.n f.p f.lo)
    | none => .error .reservedWidth
  | .b2u24 => .ok (.b2u24 (f.lo.extractLsb' 16 8) (f.lo.extractLsb' 8 8) (f.lo.extractLsb' 0 8))
  | .u24b => .ok (.u24b (f.lo.extractLsb' 0 32))
  | .ljust => .ok (.ljust f.n (f.lo.extractLsb' 0 32))
  | .rdinit => .ok (.rdinit f.n f.lo)
  | .rdchunk => .ok .rdchunk
  | .write => .ok (.write f.n (f.lo.extractLsb' 0 32))
  | .writec => .ok .writec
  | .wrclose => .ok .wrclose
  | .imgcfg => .ok (.imgcfg f.n f.hi (f.lo.extractLsb' 0 32))
  | .encbits => .ok (.encbits f.n f.hi (f.lo.extractLsb' 32 32) (f.lo.extractLsb' 0 32))
  | .decbits => .ok (.decbits f.n f.hi (f.lo.extractLsb' 32 32))
  | .getcoord => .ok (.getcoord f.lo)
  | .chunksz => .ok (.chunksz f.lo)
  | .enchdr => .ok (.enchdr f.lo)
  | .dechdr => .ok .dechdr
  | .setuph => .ok (.setuph f.lo)
  | .setupx => .ok .setupx
  | .hide => .ok (.hide f.n (f.hi ++ f.lo.extractLsb' 32 32) (f.lo.extractLsb' 0 32))
  | .hidec => .ok .hidec
  | .pull => .ok .pull
  | .rdreg =>
    match Csr.ofNumber f.p with
    | some _ => .ok (.rdreg f.p)
    | none => .error .unimplementedCsr

/-- Rule R95 on the fields, its tests in its order. -/
def decodeFields (f : Fields) : Except Reject Instr :=
  if f.rsv ≠ 0 then .error .reservedField
  else
    match Opcode.ofCode f.op with
    | none => .error .reservedOpcode
    | some o => if f.unusedZero o.uses then operandsOf o f else .error .unusedFieldNotZero

/-- Rule R95: a command with its operands, or the verdict "illegal" with its reason. -/
def decode (w : Packet) : Except Reject Instr := decodeFields (Fields.ofPacket w)

/-- A command's opcode. -/
def Instr.opcode : Instr → Opcode
  | .mask _ _ _ => .mask
  | .getbits _ _ _ _ => .getbits
  | .b2u24 _ _ _ => .b2u24
  | .u24b _ => .u24b
  | .ljust _ _ => .ljust
  | .rdinit _ _ => .rdinit
  | .rdchunk => .rdchunk
  | .write _ _ => .write
  | .writec => .writec
  | .wrclose => .wrclose
  | .imgcfg _ _ _ => .imgcfg
  | .encbits _ _ _ _ => .encbits
  | .decbits _ _ _ => .decbits
  | .getcoord _ => .getcoord
  | .chunksz _ => .chunksz
  | .enchdr _ => .enchdr
  | .dechdr => .dechdr
  | .setuph _ => .setuph
  | .setupx => .setupx
  | .hide _ _ _ => .hide
  | .hidec => .hidec
  | .pull => .pull
  | .rdreg _ => .rdreg

/-- The packet fields of a command that uses none but `op` (format Z of rule R91). -/
def Opcode.bare (o : Opcode) : Fields := ⟨o.code, 0, 0, 0, 0, 0, 0, 0⟩

/-- Rule R91 written: each operand in its field, every other field zero. -/
def encodeFields (i : Instr) : Fields :=
  let base := i.opcode.bare
  match i with
  | .mask wsel inv n => { base with wsel := wsel, inv := BitVec.ofBool inv, n := n }
  | .getbits wsel n p src => { base with wsel := wsel, n := n, p := p, lo := src }
  | .b2u24 b0 b1 b2 => { base with lo := (0 : BitVec 40) ++ b0 ++ b1 ++ b2 }
  | .u24b x => { base with lo := (0 : BitVec 32) ++ x }
  | .ljust n data => { base with n := n, lo := (0 : BitVec 32) ++ data }
  | .rdinit n srclen => { base with n := n, lo := srclen }
  | .rdchunk => base
  | .write n data => { base with n := n, lo := (0 : BitVec 32) ++ data }
  | .writec => base
  | .wrclose => base
  | .imgcfg n height width => { base with n := n, hi := height, lo := (0 : BitVec 32) ++ width }
  | .encbits n y x bits => { base with n := n, hi := y, lo := x ++ bits }
  | .decbits n y x => { base with n := n, hi := y, lo := x ++ (0 : BitVec 32) }
  | .getcoord order => { base with lo := order }
  | .chunksz size => { base with lo := size }
  | .enchdr size => { base with lo := size }
  | .dechdr => base
  | .setuph size => { base with lo := size }
  | .setupx => base
  | .hide n order data =>
    { base with n := n, hi := order.extractLsb' 32 32, lo := order.extractLsb' 0 32 ++ data }
  | .hidec => base
  | .pull => base
  | .rdreg p => { base with p := p }

/-- The packet of a command. -/
def encode (i : Instr) : Packet := (encodeFields i).toPacket

/-- DEDUCED, safe (log 12): an instruction of spec/opcode_table.json is one 128-bit value, numbered as rule R90 numbers a
packet; bits at and above `nbits` are zero. -/
def packetOfTableWord (nbits w : Nat) : Packet := BitVec.ofNat 128 (w % 2 ^ nbits)

/-- What the decoder reads from an instruction as the opcode table numbers its bits. -/
def decodeTableWord (nbits w : Nat) : Option Instr :=
  match decode (packetOfTableWord nbits w) with
  | .ok i => some i
  | .error _ => none

end Sys2Proof
end

