-- ==== Sys2Proof/Machine/State.lean ====
section
/-! DEFINITION. The state of bit_mask_generator: its registers (10_state.md rule R26), the three memories it reaches
(20_memory.md rule R60), and, as plain data, what 10_state.md rule R37 calls parameters of the step relation: the host's
inputs and the I/O error oracle. -/

namespace Sys2Proof.Machine

/-- STATUS.MODE (10_state.md rule R27): the session mode. The value 3 never occurs, so it has no constructor (DEDUCED,
safe, log 14). -/
inductive Mode where
  | none | hide | extract
  deriving DecidableEq, Repr

/-- The causes of 60_exceptions.md rule R216. -/
inductive Cause where
  /-- Bit 0: never raised by this hardware (rule R223). -/
  | unsupportedFormat
  | capacity | sizeOverflow | io | protocol | operand | bounds | illegal
  deriving DecidableEq, Repr

/-- Every register of 10_state.md rule R26 and the four STATUS fields that are storage (rule R27). STATUS itself is
composed. -/
structure Regs where
  err      : BitVec 8
  res      : BitVec 64
  chkData  : BitVec 32
  chkLen   : BitVec 6
  chkOrder : BitVec 64
  chkValid : Bool
  mode     : Mode
  rdActive : Bool
  imgW     : BitVec 32
  imgH     : BitVec 32
  imgCh    : BitVec 3
  srcLen   : BitVec 64
  rdCsize  : BitVec 6
  rdCursor : BitVec 64
  rdOrder  : BitVec 64
  remData  : BitVec 8
  remLen   : BitVec 3
  dstCount : BitVec 64
  hidSize  : BitVec 32
  hidCsize : BitVec 5
  rdPos    : BitVec 64
  deriving DecidableEq, Repr

/-- 10_state.md rule R38: after reset every register holds 0 and all four STATUS fields read 0. -/
def Regs.reset : Regs where
  err := 0
  res := 0
  chkData := 0
  chkLen := 0
  chkOrder := 0
  chkValid := false
  mode := .none
  rdActive := false
  imgW := 0
  imgH := 0
  imgCh := 0
  srcLen := 0
  rdCsize := 0
  rdCursor := 0
  rdOrder := 0
  remData := 0
  remLen := 0
  dstCount := 0
  hidSize := 0
  hidCsize := 0
  rdPos := 0

/-- A byte-keyed memory in one canonical form: keys strictly rising, no byte equal to what an unlisted key reads as. -/
abbrev Memory := List Host.Cell

/-- Every key of the list is above `a`. -/
def Memory.allAbove (a : Nat) (m : Memory) : Bool := m.all (fun c => decide (a < c.1))

/-- The canonical form, so that equal memories are equal data. -/
def Memory.wf : Memory → Bool
  | [] => true
  | (k, b) :: m => decide (b ≠ Config.unlistedByte) && Memory.allAbove k m && Memory.wf m

/-- Every key lies in the address space. -/
def Memory.within (size : Nat) (m : Memory) : Bool := m.all (fun c => decide (c.1 < size))

/-- One memory access, as the predicate IOERR names it: memory, access kind, address or emit ordinal (20_memory.md rule
R71). DESIGN CHOICE, unsafe (log 4): the ordinal of an emit is the number of bytes DST then holds. -/
inductive Access where
  | srcRead (a : SrcAddr)
  | dstEmit (ordinal : Nat)
  | pixRead (i : PixIndex)
  | pixWrite (i : PixIndex)
  deriving DecidableEq, Repr

/-- What the host does to the block or, between commands, to the memories it owns (DESIGN CHOICE, safe,
logs 1, 10 and 13). -/
inductive Input where
  /-- A packet on the command port (30_encoding.md rule R101). -/
  | command (packet : Packet)
  /-- The reset input, between commands (70_reset_and_hazards.md rule R240). -/
  | reset
  /-- A packet whose execution reset cuts short just before the access `before` (70_reset_and_hazards.md rule R242; DESIGN
  CHOICE, safe, log 9). -/
  | cutShort (packet : Packet) (before : Access)
  /-- The host writes one byte of SRC (20_memory.md rule R60). -/
  | hostSrc (a : SrcAddr) (b : Byte)
  /-- The host writes one byte of a pixel; channel 3 is alpha (20_memory.md rules R60, R63). -/
  | hostPix (i : PixIndex) (channel : Fin 4) (b : Byte)
  /-- The host changes DST, which then holds `bytes`: it takes some or all of the bytes out, or puts its own (20_memory.md
  rules R60, R62, R76, 70_reset_and_hazards.md rule R261). -/
  | hostDst (bytes : List Byte)
  deriving DecidableEq, Repr

/-- The 65-bit answer to a command (30_encoding.md rule R100). -/
structure Response where
  fault : Bool
  data  : RegWord
  deriving DecidableEq, Repr

/-- The machine. -/
structure State where
  /-- The block's registers. -/
  regs   : Regs
  /-- SRC, keyed by byte address (20_memory.md rule R61). -/
  src    : Memory
  /-- DST, the bytes emitted, first emitted first (20_memory.md rule R62). -/
  dst    : List Byte
  /-- PIX, keyed by `4 * index + channel` (20_memory.md rule R63; DESIGN CHOICE, safe, log 7). -/
  pix    : Memory
  /-- IOERR: the accesses that answer "error" (20_memory.md rule R71; DESIGN CHOICE, safe, log 3). No step
  changes it. -/
  ioErr  : List Access
  /-- What the host does next, oldest first (10_state.md rule R23; log 1). -/
  inputs : List Input
  /-- The responses given so far, oldest first (30_encoding.md rule R100; DESIGN CHOICE, safe, log 2). -/
  rsps   : List Response
  deriving DecidableEq, Repr

/-- The reasons a step can stop the machine: none. "No state of this block is stuck" (93_implementation_defined.md): a
fault of the hardware sets ERR and the block goes on answering (60_exceptions.md rules R218, R219). -/
inductive Fault where
  deriving DecidableEq, Repr

/-- The reasons the model can refuse an instruction. -/
inductive Refusal where
  /-- Raised by an arm of `exec` whose instruction has no meaning yet; safe. No arm of this model raises it. -/
  | notModelled (mnemonic : String)
  deriving DecidableEq, Repr

/-- 70_reset_and_hazards.md rule R240: every register at its reset value. The memories are a parameter of the initial
state (rule R241): here nothing is listed (DESIGN CHOICE, unsafe, logs 5 and 6). IOERR is at its default "none ever" (20_memory.md rule R71). -/
def State.reset : State where
  regs := Regs.reset
  src := []
  dst := []
  pix := []
  ioErr := []
  inputs := []
  rsps := []

/-- SRC and PIX are in canonical form and inside their address spaces. -/
def State.memoriesOk (s : State) : Bool :=
  s.src.wf && s.src.within Config.srcBytes && s.pix.wf && s.pix.within Config.pixBytes

end Sys2Proof.Machine
end

