-- ==== Sys2Proof/Machine/Operands.lean ====
section
/-! DEFINITION. The functions of the operands that the rules of files 40 to 44 define and the commands share. They compute
over the naturals and narrow explicitly, as 00_scope.md rule R8 asks. -/

namespace Sys2Proof.Machine

/-- `mask_W(length, inverted)`, 40_bitpacking.md rule R120, for `length ≤ W`. -/
def maskValue (W length : Nat) (inverted : Bool) : Nat :=
  if inverted then (2 ^ W - 1) - (2 ^ length - 1) else 2 ^ length - 1

/-- `get_bits_W(source, position, length)`, 40_bitpacking.md rule R122, for `position + length ≤ W`. -/
def getBitsValue (W source position length : Nat) : Nat :=
  (source >>> (W - position - length)) &&& (2 ^ length - 1)

/-- `bytes_to_u24`, 40_bitpacking.md rule R124: big-endian composition. -/
def bytesToU24 (b0 b1 b2 : Byte) : Field24 := b0 ++ b1 ++ b2

/-- `u24_to_bytes`, 40_bitpacking.md rule R125: bits above bit 23 are silently discarded. -/
def u24ToBytes (x : BitVec 32) : Byte × Byte × Byte :=
  (x.extractLsb' 16 8, x.extractLsb' 8 8, x.extractLsb' 0 8)

/-- `left_justify(data, data_length)` as a 24-bit number, 40_bitpacking.md rules R126 and R127, for `data_length ≤ 24`. -/
def leftJustifyValue (data length : Nat) : Nat := (data <<< (24 - length)) % 2 ^ 24

/-- `insert(F, bits, bits_length)`, 43_pixel_codec.md rule R166, for `bits < 2^bits_length`. -/
def insertLow (F : Field24) (bits : BitVec 32) (length : Nat) : Field24 :=
  (F &&& BitVec.ofNat 24 (maskValue 24 length true)) ||| bits.setWidth 24

/-- `extract(F, bits_length)`, 43_pixel_codec.md rule R166. -/
def extractLow (F : Field24) (length : Nat) : Field24 := F &&& BitVec.ofNat 24 (maskValue 24 length false)

/-- `ceil_div(a, b)`, 00_scope.md rule R7, for `b > 0`. -/
def ceilDiv (a b : Nat) : Nat := (a + b - 1) / b

/-- `get_coordinates(chunk_order)` as the pair `(x, y)`, 43_pixel_codec.md rule R169. -/
def getCoordinates (order width : Nat) : Nat × Nat :=
  ((Config.headerPixels + order) % width, (Config.headerPixels + order) / width)

/-- The row-major pixel index of 20_memory.md rule R63, at the port's 64 bits (DEDUCED, safe, log 8). -/
def pixelIndex (x y width : Nat) : PixIndex := BitVec.ofNat 64 (y * width + x)

/-- `usable = IMG_W*IMG_H - 32`, 43_pixel_codec.md rule R171; 0 in a state that no run reaches (DESIGN CHOICE, safe, log 11).
-/
def usablePixels (width height : Nat) : Nat := width * height - Config.headerPixels

/-- The capacity comparison of 43_pixel_codec.md rule R171, exact over the naturals. -/
def exceedsCapacity (size usable : Nat) : Bool := decide (Config.pixelBits * usable < 8 * size)

/-- `get_chunk_size(size)` for a size that passes the capacity comparison, 43_pixel_codec.md rule R171; 0 for an empty
payload, also on an image with no usable pixel. -/
def chunkSizeFor (size usable : Nat) : Nat := if size = 0 then 0 else ceilDiv (8 * size) usable

/-- Bit `k` of a list of bytes taken as a stream, the most significant bit of the first byte being bit 0 (20_memory.md
rule R66). -/
def streamBit (bytes : List Byte) (k : Nat) : Bool := (bytes.getD (k / 8) 0).getLsbD (7 - k % 8)

/-- The `length` stream bits from bit `skip` on as a number, the first of them most significant (41_chunk_reader.md rule
R142: `d = 2*d + bit`). -/
def gatherBits (bytes : List Byte) (skip : Nat) : Nat → Nat
  | 0 => 0
  | length + 1 => 2 * gatherBits bytes skip length + (streamBit bytes (skip + length)).toNat

/-- The byte addresses that hold the `length` stream bits from bit `cursor` on, increasing (41_chunk_reader.md rule R142), at
the port's 61 bits (DEDUCED, safe, log 8). -/
def spanAddresses (cursor length : Nat) : List SrcAddr :=
  (List.range ((cursor + length - 1) / 8 + 1 - cursor / 8)).map (fun j => BitVec.ofNat 61 (cursor / 8 + j))

/-- The bytes to emit and the new Remainder of `accumulate`. -/
structure Accumulated where
  out     : List Byte
  remData : BitVec 8
  remLen  : BitVec 3
  deriving DecidableEq, Repr

/-- `accumulate(rem_data, rem_len, data, length)`, 42_chunk_writer.md rule R151. -/
def accumulate (remData : BitVec 8) (remLen : BitVec 3) (data : BitVec 32) (length : Nat) : Accumulated :=
  let head := remData.toNat >>> (8 - remLen.toNat)
  let acc := head * 2 ^ length + data.toNat % 2 ^ length
  let total := remLen.toNat + length
  let rest := total % 8
  { out := (List.range (total / 8)).map (fun j => BitVec.ofNat 8 (acc >>> (total - 8 * (j + 1)))),
    remData := BitVec.ofNat 8 ((acc % 2 ^ rest) <<< (8 - rest)),
    remLen := BitVec.ofNat 3 rest }

/-- Bit `31 - i` of the size, as header pixel `i` stores it (20_memory.md rule R68, 44_header_session.md rule R185). -/
def headerBit (size : BitVec 32) (i : Nat) : BitVec 32 := (size >>> (31 - i)) &&& 1

end Sys2Proof.Machine
end

