-- ==== Sys2Proof/Machine/Flags.lean ====
section
/-! DEFINITION. The status flags: the cause bits of ERR (60_exceptions.md rule R216), FAULTED, the composition of STATUS
(10_state.md rule R27) and the register map RDREG reads (rule R26). The block has no arithmetic condition code (rule R25).
-/

namespace Sys2Proof.Machine

/-- The ERR bit of a cause, 60_exceptions.md rule R216. -/
def Cause.bit : Cause → BitVec 8
  | .unsupportedFormat => 0x01
  | .capacity => 0x02
  | .sizeOverflow => 0x04
  | .io => 0x08
  | .protocol => 0x10
  | .operand => 0x20
  | .bounds => 0x40
  | .illegal => 0x80

/-- The ERR bits of a set of causes. -/
def causeBits : List Cause → BitVec 8
  | [] => 0
  | c :: cs => c.bit ||| causeBits cs

/-- STATUS.FAULTED: 1 iff ERR is not zero, no storage of its own (10_state.md rule R27). It is also the level output
`faulted` (30_encoding.md rule R101). -/
def Regs.faulted (r : Regs) : Bool := r.err != 0

/-- "configured" means IMG_W is not zero (10_state.md rule R32). -/
def Regs.configured (r : Regs) : Bool := r.imgW != 0

/-- The two bits of MODE (10_state.md rule R27). -/
def Mode.bits : Mode → BitVec 2
  | .none => 0
  | .hide => 1
  | .extract => 2

/-- STATUS: bit 0 FAULTED, bits 2:1 MODE, bit 3 RD_ACTIVE, bit 4 CHK_VALID (10_state.md rule R27). -/
def Regs.status (r : Regs) : BitVec 5 :=
  BitVec.ofBool r.chkValid ++ BitVec.ofBool r.rdActive ++ r.mode.bits ++ BitVec.ofBool r.faulted

/-- The value of a register, zero-extended to 64 bits (10_state.md rule R26, 45_system.md rule R210). -/
def Regs.read (r : Regs) : Csr → RegWord
  | .status => r.status.setWidth 64
  | .err => r.err.setWidth 64
  | .res => r.res
  | .chkData => r.chkData.setWidth 64
  | .chkLen => r.chkLen.setWidth 64
  | .chkOrder => r.chkOrder
  | .imgW => r.imgW.setWidth 64
  | .imgH => r.imgH.setWidth 64
  | .imgCh => r.imgCh.setWidth 64
  | .srcLen => r.srcLen
  | .rdCsize => r.rdCsize.setWidth 64
  | .rdCursor => r.rdCursor
  | .rdOrder => r.rdOrder
  | .remData => r.remData.setWidth 64
  | .remLen => r.remLen.setWidth 64
  | .dstCount => r.dstCount
  | .hidSize => r.hidSize.setWidth 64
  | .hidCsize => r.hidCsize.setWidth 64
  | .rdPos => r.rdPos

/-- The usable pixels of the configured image (43_pixel_codec.md rule R171). -/
def Regs.usable (r : Regs) : Nat := usablePixels r.imgW.toNat r.imgH.toNat

/-- SIZE_OVERFLOW and CAPACITY of CHUNKSZ and SETUPH, evaluated together (43_pixel_codec.md rule R173, 60_exceptions.md
rule R224). -/
def Regs.sizeCauses (r : Regs) (size : Nat) : List Cause :=
  (if Config.sizeLimit ≤ size then [.sizeOverflow] else []) ++
    (if exceedsCapacity size r.usable then [.capacity] else [])

end Sys2Proof.Machine
end

