-- ==== Sys2Proof/Machine/Ops.lean ====
section
/-! DEFINITION. The named operations over registers and memories that the commands share: byte-keyed memory, the response,
raising a fault (60_exceptions.md rule R218) with reset as the return from it (rule R230), the accesses of the three ports
with the IOERR oracle (20_memory.md rule R71), and the shared bodies of the writer, pixel and header commands. -/

namespace Sys2Proof.Machine

/-! ## Byte-keyed memory -/

/-- One byte. -/
def Memory.read : Memory → Nat → Byte
  | [], _ => Config.unlistedByte
  | (k, b) :: m, a => if a = k then b else Memory.read m a

/-- One byte stored, keeping the canonical form. -/
def Memory.write : Memory → Nat → Byte → Memory
  | [], a, b => if b = Config.unlistedByte then [] else [(a, b)]
  | (k, c) :: m, a, b =>
    if a < k then (if b = Config.unlistedByte then (k, c) :: m else (a, b) :: (k, c) :: m)
    else if a = k then (if b = Config.unlistedByte then m else (a, b) :: m)
    else (k, c) :: Memory.write m a b

/-- The key of a pixel's byte (log 7). -/
def pixKey (i : PixIndex) (channel : Nat) : Nat := 4 * i.toNat + channel

/-- Byte `channel` of pixel `i` as PIX holds it; channel 3 is alpha (20_memory.md rule R63). -/
def State.pixByte (s : State) (i : PixIndex) (channel : Nat) : Byte := s.pix.read (pixKey i channel)

/-- The byte at SRC address `a` (20_memory.md rule R61). -/
def State.srcByte (s : State) (a : SrcAddr) : Byte := s.src.read a.toNat

/-- The 24-bit field of pixel `i` (20_memory.md rule R67). -/
def State.pixField (s : State) (i : PixIndex) : Field24 := bytesToU24 (s.pixByte i 0) (s.pixByte i 1) (s.pixByte i 2)

/-! ## Responses, faults, reset -/

/-- The response of a command (30_encoding.md rule R100): `fault` is 1 iff ERR is not zero after the command. -/
def respond (data : RegWord) (s : State) : State := { s with rsps := s.rsps ++ [⟨s.regs.faulted, data⟩] }

/-- `raise <causes>` (60_exceptions.md rule R218): the ERR bits are set, no other register is written, the response is
`fault = 1, data = 0`. -/
def raise (causes : List Cause) (s : State) : State :=
  respond 0 { s with regs := { s.regs with err := s.regs.err ||| causeBits causes } }

/-- The completion of a command that writes RES: its value is also the response's data (10_state.md rule R20). -/
def answer (value : RegWord) (s : State) : State :=
  respond value { s with regs := { s.regs with res := value } }

/-- A command other than RDREG: a FAULTED block ignores it and answers `fault = 1, data = 0` (60_exceptions.md rule R219);
otherwise it has the effect `after`. -/
def unlessFaulted (s : State) (after : State) : Host.Outcome State Fault Refusal :=
  .next (if s.regs.faulted then respond 0 s else after)

/-- A packet that does not decode (60_exceptions.md rules R219, R221). -/
def illegalPacket (s : State) : State := if s.regs.faulted then respond 0 s else raise [.illegal] s

/-- Reset (70_reset_and_hazards.md rules R240, R241), the only way out of FAULTED (60_exceptions.md rule R230): every
register takes its reset value and no memory is touched. DESIGN CHOICE, safe: one step between commands (log 16). -/
def resetRegisters (s : State) : State := { s with regs := Regs.reset }

/-! ## Accesses -/

/-- What a sequence of memory accesses comes to: all done, or ended by causes with the memory effects that stand
(20_memory.md rule R71). -/
inductive Attempt where
  | ok (s : State)
  | fails (causes : List Cause) (s : State)
  deriving DecidableEq, Repr

/-- The accesses of `rest` follow those already made. -/
def Attempt.andThen (a : Attempt) (rest : State → Attempt) : Attempt :=
  match a with
  | .ok s => rest s
  | .fails causes s => .fails causes s

/-- The end of a command: its register writes when every access was made, else the fault. -/
def Attempt.settle (a : Attempt) (finish : State → State) : State :=
  match a with
  | .ok s => finish s
  | .fails causes s => raise causes s

/-- IOERR answers "error" to this access (20_memory.md rule R71). -/
def State.failsAt (s : State) (a : Access) : Bool := s.ioErr.contains a

/-- `MemRead(SRC, a, 1)`; `none` when the access answers "error". -/
def srcRead (a : SrcAddr) (s : State) : Option Byte := if s.failsAt (.srcRead a) then none else some (s.srcByte a)

/-- Several reads of SRC in order (41_chunk_reader.md rule R142). -/
def srcReadAll : List SrcAddr → State → Option (List Byte)
  | [], _ => some []
  | a :: as, s =>
    match srcRead a s, srcReadAll as s with
    | some b, some bs => some (b :: bs)
    | _, _ => none

/-- `DstEmit(b)` (20_memory.md rule R62). -/
def dstEmit (b : Byte) (s : State) : Attempt :=
  if s.failsAt (.dstEmit s.dst.length) then .fails [.io] s else .ok { s with dst := s.dst ++ [b] }

/-- Several emits in order. -/
def emitAll : List Byte → State → Attempt
  | [], s => .ok s
  | b :: bs, s => (dstEmit b s).andThen (emitAll bs)

/-- `PixRead(idx)` (20_memory.md rule R64): the three colour bytes, never alpha. -/
def pixRead (i : PixIndex) (s : State) : Option (Byte × Byte × Byte) :=
  if s.failsAt (.pixRead i) then none else some (s.pixByte i 0, s.pixByte i 1, s.pixByte i 2)

/-- The three colour bytes stored, alpha untouched (20_memory.md rule R65). -/
def Memory.writeColour (m : Memory) (i : PixIndex) (c : Byte × Byte × Byte) : Memory :=
  ((m.write (pixKey i 0) c.1).write (pixKey i 1) c.2.1).write (pixKey i 2) c.2.2

/-- `PixWrite(idx, c0, c1, c2)` (20_memory.md rule R65). -/
def pixWrite (i : PixIndex) (c : Byte × Byte × Byte) (s : State) : Attempt :=
  if s.failsAt (.pixWrite i) then .fails [.io] s else .ok { s with pix := s.pix.writeColour i c }

/-! ## Shared bodies -/

/-- A chunk into the accumulator and its whole bytes out (42_chunk_writer.md rules R151 to R153): the emits, then DST_COUNT
and the Remainder. -/
def writeChunk (data : BitVec 32) (length : Nat) (s : State) : Attempt :=
  let a := accumulate s.regs.remData s.regs.remLen data length
  (emitAll a.out s).andThen fun t =>
    .ok { t with
      regs := { t.regs with
        dstCount := t.regs.dstCount + BitVec.ofNat 64 a.out.length
        remData := a.remData
        remLen := a.remLen } }

/-- The final flush (42_chunk_writer.md rule R155): the Remainder's byte if it holds any bit, then an empty Remainder. -/
def flushRemainder (s : State) : Attempt :=
  let out := if s.regs.remLen = 0 then [] else [s.regs.remData]
  (emitAll out s).andThen fun t =>
    .ok { t with
      regs := { t.regs with
        dstCount := t.regs.dstCount + BitVec.ofNat 64 out.length
        remData := 0
        remLen := 0 } }

/-- One PixRead then one PixWrite of the same pixel, its field changed by `f` (20_memory.md rule R73). -/
def modifyPixel (i : PixIndex) (f : Field24 → Field24) (s : State) : Attempt :=
  match pixRead i s with
  | none => .fails [.io] s
  | some (c0, c1, c2) => pixWrite i (u24ToBytes ((f (bytesToU24 c0 c1 c2)).setWidth 32)) s

/-- The field of pixel `i` read through the port; `none` when the access answers "error". -/
def readField (i : PixIndex) (s : State) : Option Field24 :=
  match pixRead i s with
  | none => none
  | some (c0, c1, c2) => some (bytesToU24 c0 c1 c2)

/-- `encode_header(v)` over the given header pixels, in order (44_header_session.md rules R185, R186). -/
def encodeHeaderAt (v : BitVec 32) : List Nat → State → Attempt
  | [], s => .ok s
  | i :: is, s =>
    (modifyPixel (BitVec.ofNat 64 i) (fun F => insertLow F (headerBit v i) 1) s).andThen (encodeHeaderAt v is)

/-- `encode_header(v)`: header pixels 0 to 31, pixel 0 first. -/
def encodeHeader (v : BitVec 32) (s : State) : Attempt := encodeHeaderAt v (List.range Config.headerPixels) s

/-- `decode_header()` over the given header pixels: `v = 2*v + extract(F, 1)` (44_header_session.md rule R187). -/
def decodeHeaderAt : List Nat → Nat → State → Option Nat
  | [], v, _ => some v
  | i :: is, v, s =>
    match readField (BitVec.ofNat 64 i) s with
    | none => none
    | some F => decodeHeaderAt is (2 * v + (extractLow F 1).toNat) s

/-- `decode_header()`: header pixels 0 to 31, pixel 0 first. -/
def decodeHeader (s : State) : Option Nat := decodeHeaderAt (List.range Config.headerPixels) 0 s

/-- `hide_data(chunk)` (44_header_session.md rule R193). -/
def hideData (data : BitVec 32) (length order : Nat) (s : State) : Attempt :=
  if Config.pixelBits < length then .fails [.operand] s
  else if 2 ^ length ≤ data.toNat then .fails [.operand] s
  else
    let xy := getCoordinates order s.regs.imgW.toNat
    if s.regs.imgH.toNat ≤ xy.2 then .fails [.bounds] s
    else modifyPixel (pixelIndex xy.1 xy.2 s.regs.imgW.toNat) (fun F => insertLow F data length) s

end Sys2Proof.Machine
end

