-- ==== Sys2Proof/Machine/BitPacking.lean ====
section
/-! DEFINITION. The BitPacking commands, 40_bitpacking.md: pure functions of the packet that write RES only. -/

namespace Sys2Proof.Machine

/-- MASK, rule R121; a reserved width is ILLEGAL (no packet decodes to such a term: DEDUCED, safe, log 15). -/
def execMask (wsel : BitVec 3) (inv : Bool) (n : BitVec 7) (s : State) : Host.Outcome State Fault Refusal :=
  unlessFaulted s <|
    match Width.ofSelect wsel with
    | none => raise [.illegal] s
    | some w =>
      if w.bits < n.toNat then raise [.operand] s
      else answer (BitVec.ofNat 64 (maskValue w.bits n.toNat inv)) s

/-- GETBITS, rule R123. -/
def execGetbits (wsel : BitVec 3) (n p : BitVec 7) (src : BitVec 64) (s : State) : Host.Outcome State Fault Refusal :=
  unlessFaulted s <|
    match Width.ofSelect wsel with
    | none => raise [.illegal] s
    | some w =>
      if 2 ^ w.bits ≤ src.toNat then raise [.operand] s
      else if w.bits < p.toNat + n.toNat then raise [.operand] s
      else answer (BitVec.ofNat 64 (getBitsValue w.bits src.toNat p.toNat n.toNat)) s

/-- B2U24, rule R124. -/
def execB2u24 (b0 b1 b2 : Byte) (s : State) : Host.Outcome State Fault Refusal :=
  unlessFaulted s <| answer ((bytesToU24 b0 b1 b2).setWidth 64) s

/-- U24B, rule R125: RES[23:16], RES[15:8] and RES[7:0] are the three bytes. -/
def execU24b (x : BitVec 32) (s : State) : Host.Outcome State Fault Refusal :=
  unlessFaulted s <| answer ((bytesToU24 (u24ToBytes x).1 (u24ToBytes x).2.1 (u24ToBytes x).2.2).setWidth 64) s

/-- LJUST, rule R127. -/
def execLjust (n : BitVec 7) (data : BitVec 32) (s : State) : Host.Outcome State Fault Refusal :=
  unlessFaulted s <|
    if 24 < n.toNat then raise [.operand] s
    else answer (BitVec.ofNat 64 (leftJustifyValue data.toNat n.toNat)) s

end Sys2Proof.Machine
end

