-- ==== Sys2Proof/Machine/ChunkReader.lean ====
section
/-! DEFINITION. The chunk reader, 41_chunk_reader.md: SRC bytes to chunks in the CHK latch. -/

namespace Sys2Proof.Machine

/-- RDINIT, rule R141. -/
def execRdinit (n : BitVec 7) (srclen : BitVec 64) (s : State) : Host.Outcome State Fault Refusal :=
  unlessFaulted s <|
    if n.toNat < 1 ∨ Config.maxChunkBits < n.toNat then raise [.operand] s
    else if Config.srcLenLimit ≤ srclen.toNat then raise [.operand] s
    else
      respond 0 { s with
        regs := { s.regs with
          srcLen := srclen
          rdCsize := n.setWidth 6
          rdCursor := 0
          rdOrder := 0
          rdActive := true
          chkValid := false } }

/-- RDCHUNK, rule R142: the next chunk into the latch, or exhaustion (no fault). DESIGN CHOICE, safe: `remaining` is 0 where
the cursor is past the source, which no run reaches (log 11). -/
def execRdchunk (s : State) : Host.Outcome State Fault Refusal :=
  unlessFaulted s <|
    if s.regs.rdActive = false then raise [.protocol] s
    else
      let remaining := 8 * s.regs.srcLen.toNat - s.regs.rdCursor.toNat
      if remaining = 0 then answer 0 { s with regs := { s.regs with chkValid := false } }
      else
        let length := min s.regs.rdCsize.toNat remaining
        let cursor := s.regs.rdCursor.toNat
        match srcReadAll (spanAddresses cursor length) s with
        | none => raise [.io] s
        | some bytes =>
          answer 1 { s with
            regs := { s.regs with
              chkData := BitVec.ofNat 32 (gatherBits bytes (cursor % 8) length)
              chkLen := BitVec.ofNat 6 length
              chkOrder := s.regs.rdOrder
              chkValid := true
              rdCursor := BitVec.ofNat 64 (cursor + length)
              rdOrder := s.regs.rdOrder + 1 } }

end Sys2Proof.Machine
end

