-- ==== Sys2Proof/Machine/ChunkWriter.lean ====
section
/-! DEFINITION. The chunk writer, 42_chunk_writer.md: chunks to DST bytes with a sub-byte Remainder. -/

namespace Sys2Proof.Machine

/-- WRITE, rule R152. -/
def execWrite (n : BitVec 7) (data : BitVec 32) (s : State) : Host.Outcome State Fault Refusal :=
  unlessFaulted s <|
    if Config.maxChunkBits < n.toNat then raise [.operand] s
    else (writeChunk data n.toNat s).settle (respond 0)

/-- WRITEC, rule R153: the chunk in the CHK latch, consumed. -/
def execWritec (s : State) : Host.Outcome State Fault Refusal :=
  unlessFaulted s <|
    if s.regs.chkValid = false then raise [.protocol] s
    else
      (writeChunk s.regs.chkData s.regs.chkLen.toNat s).settle fun t =>
        respond 0 { t with regs := { t.regs with chkValid := false } }

/-- WRCLOSE, rule R155. -/
def execWrclose (s : State) : Host.Outcome State Fault Refusal :=
  unlessFaulted s <| (flushRemainder s).settle (respond 0)

end Sys2Proof.Machine
end

