-- ==== Sys2Proof/Machine/HeaderSession.lean ====
section
/-! DEFINITION. The header codec and the two sessions, 44_header_session.md. -/

namespace Sys2Proof.Machine

/-- ENCHDR, rule R186. -/
def execEnchdr (size : BitVec 64) (s : State) : Host.Outcome State Fault Refusal :=
  unlessFaulted s <|
    if s.regs.configured = false then raise [.protocol] s
    else if Config.sizeLimit ≤ size.toNat then raise [.sizeOverflow] s
    else (encodeHeader (size.setWidth 32) s).settle (respond 0)

/-- DECHDR, rule R188. -/
def execDechdr (s : State) : Host.Outcome State Fault Refusal :=
  unlessFaulted s <|
    if s.regs.configured = false then raise [.protocol] s
    else
      match decodeHeader s with
      | none => raise [.io] s
      | some v => answer (BitVec.ofNat 64 v) s

/-- SETUPH, rule R190. -/
def execSetuph (size : BitVec 64) (s : State) : Host.Outcome State Fault Refusal :=
  unlessFaulted s <|
    if s.regs.configured = false then raise [.protocol] s
    else if s.regs.mode ≠ .none then raise [.protocol] s
    else
      match s.regs.sizeCauses size.toNat with
      | c :: cs => raise (c :: cs) s
      | [] =>
        (encodeHeader (size.setWidth 32) s).settle fun t =>
          answer (BitVec.ofNat 64 (chunkSizeFor size.toNat s.regs.usable)) { t with regs := { t.regs with mode := .hide } }

/-- SETUPX, rule R192 (`RES <- zext_64(c ++ v)`): the 32 reads come before the CAPACITY check (60_exceptions.md rule R220). -/
def execSetupx (s : State) : Host.Outcome State Fault Refusal :=
  unlessFaulted s <|
    if s.regs.configured = false then raise [.protocol] s
    else if s.regs.mode ≠ .none then raise [.protocol] s
    else
      match decodeHeader s with
      | none => raise [.io] s
      | some v =>
        if exceedsCapacity v s.regs.usable then raise [.capacity] s
        else
          let size := BitVec.ofNat 32 v
          let c := BitVec.ofNat 5 (chunkSizeFor v s.regs.usable)
          answer ((c ++ size).setWidth 64) { s with
            regs := { s.regs with
              hidSize := size
              hidCsize := c
              rdPos := 0
              mode := .extract } }

/-- HIDE, rule R194. -/
def execHide (n : BitVec 7) (order : BitVec 64) (data : BitVec 32) (s : State) : Host.Outcome State Fault Refusal :=
  unlessFaulted s <|
    if s.regs.configured = false then raise [.protocol] s
    else if s.regs.mode ≠ .hide then raise [.protocol] s
    else (hideData data n.toNat order.toNat s).settle (respond 0)

/-- HIDEC, rule R195: the chunk in the CHK latch, consumed. -/
def execHidec (s : State) : Host.Outcome State Fault Refusal :=
  unlessFaulted s <|
    if s.regs.configured = false then raise [.protocol] s
    else if s.regs.mode ≠ .hide then raise [.protocol] s
    else if s.regs.chkValid = false then raise [.protocol] s
    else
      (hideData s.regs.chkData s.regs.chkLen.toNat s.regs.chkOrder.toNat s).settle fun t =>
        respond 0 { t with regs := { t.regs with chkValid := false } }

/-- PULL, rule R196: the next hidden chunk into the latch, or exhaustion (no fault). -/
def execPull (s : State) : Host.Outcome State Fault Refusal :=
  unlessFaulted s <|
    if s.regs.configured = false then raise [.protocol] s
    else if s.regs.mode ≠ .extract then raise [.protocol] s
    else if s.regs.rdPos.toNat * s.regs.hidCsize.toNat < s.regs.hidSize.toNat * 8 then
      let xy := getCoordinates s.regs.rdPos.toNat s.regs.imgW.toNat
      match readField (pixelIndex xy.1 xy.2 s.regs.imgW.toNat) s with
      | none => raise [.io] s
      | some F =>
        answer 1 { s with
          regs := { s.regs with
            chkData := (extractLow F s.regs.hidCsize.toNat).setWidth 32
            chkLen := s.regs.hidCsize.setWidth 6
            chkOrder := s.regs.rdPos
            chkValid := true
            rdPos := s.regs.rdPos + 1 } }
    else answer 0 { s with regs := { s.regs with chkValid := false } }

end Sys2Proof.Machine
end

