-- ==== Sys2Proof/Machine/PixelCodec.lean ====
section
/-! DEFINITION. The image commands, 43_pixel_codec.md: the image's shape, one pixel's bits, coordinates, density. -/

namespace Sys2Proof.Machine

/-- IMGCFG, rule R165. -/
def execImgcfg (n : BitVec 7) (height width : BitVec 32) (s : State) : Host.Outcome State Fault Refusal :=
  unlessFaulted s <|
    if width.toNat < Config.headerPixels ∨ height.toNat < 1 then raise [.operand] s
    else if n ≠ 3 ∧ n ≠ 4 then raise [.operand] s
    else
      respond 0 { s with
        regs := { s.regs with
          imgW := width
          imgH := height
          imgCh := n.setWidth 3
          mode := .none
          hidSize := 0
          hidCsize := 0
          rdPos := 0 } }

/-- ENCBITS, rule R167. -/
def execEncbits (n : BitVec 7) (y x bits : BitVec 32) (s : State) : Host.Outcome State Fault Refusal :=
  unlessFaulted s <|
    if s.regs.configured = false then raise [.protocol] s
    else if Config.pixelBits < n.toNat then raise [.operand] s
    else if 2 ^ n.toNat ≤ bits.toNat then raise [.operand] s
    else if s.regs.imgW.toNat ≤ x.toNat ∨ s.regs.imgH.toNat ≤ y.toNat then raise [.bounds] s
    else
      (modifyPixel (pixelIndex x.toNat y.toNat s.regs.imgW.toNat) (fun F => insertLow F bits n.toNat) s).settle
        (respond 0)

/-- DECBITS, rule R168. -/
def execDecbits (n : BitVec 7) (y x : BitVec 32) (s : State) : Host.Outcome State Fault Refusal :=
  unlessFaulted s <|
    if s.regs.configured = false then raise [.protocol] s
    else if Config.pixelBits < n.toNat then raise [.operand] s
    else if s.regs.imgW.toNat ≤ x.toNat ∨ s.regs.imgH.toNat ≤ y.toNat then raise [.bounds] s
    else
      match readField (pixelIndex x.toNat y.toNat s.regs.imgW.toNat) s with
      | none => raise [.io] s
      | some F => answer ((extractLow F n.toNat).setWidth 64) s

/-- GETCOORD, rule R170: `RES <- y ++ x`. -/
def execGetcoord (order : BitVec 64) (s : State) : Host.Outcome State Fault Refusal :=
  unlessFaulted s <|
    if s.regs.configured = false then raise [.protocol] s
    else
      let xy := getCoordinates order.toNat s.regs.imgW.toNat
      if s.regs.imgH.toNat ≤ xy.2 then raise [.bounds] s
      else answer (BitVec.ofNat 32 xy.2 ++ BitVec.ofNat 32 xy.1) s

/-- CHUNKSZ, rule R173. -/
def execChunksz (size : BitVec 64) (s : State) : Host.Outcome State Fault Refusal :=
  unlessFaulted s <|
    if s.regs.configured = false then raise [.protocol] s
    else
      match s.regs.sizeCauses size.toNat with
      | [] => answer (BitVec.ofNat 64 (chunkSizeFor size.toNat s.regs.usable)) s
      | c :: cs => raise (c :: cs) s

end Sys2Proof.Machine
end

