-- ==== Sys2Proof/Machine/System.lean ====
section
/-! DEFINITION. The system command, 45_system.md. -/

namespace Sys2Proof.Machine

/-- RDREG, rule R210: the one command a FAULTED block still executes. It writes no register, RES included; an unimplemented
number is an illegal packet (30_encoding.md rule R95; for a term no packet decodes to, DEDUCED, safe, log 15). -/
def execRdreg (p : BitVec 7) (s : State) : Host.Outcome State Fault Refusal :=
  match Csr.ofNumber p with
  | none => .next (illegalPacket s)
  | some c => .next (respond (s.regs.read c) s)

end Sys2Proof.Machine
end

