-- ==== Sys2Proof/Machine/Dispatch.lean ====
section
/-! DEFINITION. The one match from a command to its meaning, in the order of 30_encoding.md rule R94. -/

namespace Sys2Proof.Machine

def exec (i : Instr) (s : State) : Host.Outcome State Fault Refusal :=
  match i with
  | .mask wsel inv n => Sys2Proof.Machine.execMask wsel inv n s
  | .getbits wsel n p src => Sys2Proof.Machine.execGetbits wsel n p src s
  | .b2u24 b0 b1 b2 => Sys2Proof.Machine.execB2u24 b0 b1 b2 s
  | .u24b x => Sys2Proof.Machine.execU24b x s
  | .ljust n data => Sys2Proof.Machine.execLjust n data s
  | .rdinit n srclen => Sys2Proof.Machine.execRdinit n srclen s
  | .rdchunk => Sys2Proof.Machine.execRdchunk s
  | .write n data => Sys2Proof.Machine.execWrite n data s
  | .writec => Sys2Proof.Machine.execWritec s
  | .wrclose => Sys2Proof.Machine.execWrclose s
  | .imgcfg n height width => Sys2Proof.Machine.execImgcfg n height width s
  | .encbits n y x bits => Sys2Proof.Machine.execEncbits n y x bits s
  | .decbits n y x => Sys2Proof.Machine.execDecbits n y x s
  | .getcoord order => Sys2Proof.Machine.execGetcoord order s
  | .chunksz size => Sys2Proof.Machine.execChunksz size s
  | .enchdr size => Sys2Proof.Machine.execEnchdr size s
  | .dechdr => Sys2Proof.Machine.execDechdr s
  | .setuph size => Sys2Proof.Machine.execSetuph size s
  | .setupx => Sys2Proof.Machine.execSetupx s
  | .hide n order data => Sys2Proof.Machine.execHide n order data s
  | .hidec => Sys2Proof.Machine.execHidec s
  | .pull => Sys2Proof.Machine.execPull s
  | .rdreg p => Sys2Proof.Machine.execRdreg p s

end Sys2Proof.Machine
end

