-- ==== Sys2Proof/Machine/Port.lean ====
section
/-! DEFINITION. The block's outside: a packet taken from the command port (30_encoding.md rules R95, R101), the reset input
(70_reset_and_hazards.md rules R240 to R242) and what the host does to the memories it owns between commands (20_memory.md
rules R60, R76). -/

namespace Sys2Proof.Machine

/-- One packet: the command it decodes to, or ILLEGAL (30_encoding.md rule R95, 60_exceptions.md rule R221). -/
def execPacket (w : Packet) (s : State) : Host.Outcome State Fault Refusal :=
  match decode w with
  | .ok i => exec i s
  | .error _ => .next (illegalPacket s)

/-- A command cut short by reset just before the access `before` (70_reset_and_hazards.md rule R242): the effects of its
earlier accesses stand, every register takes its reset value, and there is no response (log 9). -/
def cutShort (w : Packet) (before : Access) (s : State) : Host.Outcome State Fault Refusal :=
  match execPacket w { s with ioErr := before :: s.ioErr } with
  | .next t => .next { resetRegisters t with ioErr := s.ioErr, rsps := s.rsps }
  | .fault r => .fault r
  | .refused r => .refused r

/-- One input. -/
def takeInput (e : Input) (s : State) : Host.Outcome State Fault Refusal :=
  match e with
  | .command w => execPacket w s
  | .reset => .next (resetRegisters s)
  | .cutShort w before => cutShort w before s
  | .hostSrc a b => .next { s with src := s.src.write a.toNat b }
  | .hostPix i channel b => .next { s with pix := s.pix.write (pixKey i channel.val) b }
  | .hostDst bytes => .next { s with dst := bytes }

/-- The oldest input, taken; with none the block is idle and keeps all state (60_exceptions.md rule R237). -/
def stepInput (s : State) : Host.Outcome State Fault Refusal :=
  match s.inputs with
  | [] => .next s
  | e :: rest => takeInput e { s with inputs := rest }

/-- DESIGN CHOICE, safe (log 1): the packet becomes the oldest input, so that the very next step takes it. -/
def presentPacket (w : Packet) (s : State) : State := { s with inputs := .command w :: s.inputs }

end Sys2Proof.Machine
end

