-- ==== Sys2Proof/Machine/Step.lean ====
section
/-! DEFINITION. One step of the machine. The block has no program counter and fetches nothing (10_state.md rule R23): a step
takes the oldest input the host has presented. -/

namespace Sys2Proof.Machine

/-- One step (00_scope.md rule R10: a command is executed to completion before the next one starts). -/
def step (s : State) : Host.Outcome State Fault Refusal := stepInput s

/-- The state in which the opcode table's word is the next packet on the command port (log 1). -/
def State.withFetchWord (s : State) (nbits w : Nat) : State := presentPacket (packetOfTableWord nbits w) s

end Sys2Proof.Machine
end

