-- ==== Sys2Proof/Safety.lean ====
section
/-! DEFINITION. What counts as a safe run, and the vocabulary in which statements about the machine are made: the invariant
of 10_state.md rule R39, the tables that the whole-machine rules refer to (R20, R217, opcode_table.json), and the bit
streams of 20_memory.md rules R66 and R69. -/

namespace Sys2Proof.Machine

/-- A step is safe when it answers a next state: the block is never stuck (93_implementation_defined.md). -/
def stepIsSafe (s : State) : Prop := ∃ t, step s = .next t

/-- 10_state.md rule R39 (1) to (7), with the two bounds that rule R24 derives for RD_ORDER and RD_POS and the bit that
60_exceptions.md rule R223 says is never set. -/
structure Regs.Inv (r : Regs) : Prop where
  /-- (1) the low `8 - REM_LEN` bits of REM_DATA are zero. -/
  remainder : r.remData.toNat % 2 ^ (8 - r.remLen.toNat) = 0
  /-- (2) the latch's length. -/
  chunkLen : r.chkLen.toNat ≤ 32
  /-- (2) the latch's data fits its length. -/
  chunkData : r.chkData.toNat < 2 ^ r.chkLen.toNat
  /-- (3) the cursor stands inside the source. -/
  cursor : r.rdCursor.toNat ≤ 8 * r.srcLen.toNat
  /-- (3) the source's length. -/
  srcLen : r.srcLen.toNat < 2 ^ 61
  /-- R24: at most one chunk for each bit taken. -/
  order : r.rdOrder.toNat ≤ r.rdCursor.toNat
  /-- (4) an active reader has a chunk size. -/
  chunkSize : r.rdActive = true → 1 ≤ r.rdCsize.toNat ∧ r.rdCsize.toNat ≤ 32
  /-- (5) the image. -/
  image : r.imgW = 0 ∨ (32 ≤ r.imgW.toNat ∧ 1 ≤ r.imgH.toNat ∧ (r.imgCh = 3 ∨ r.imgCh = 4))
  /-- (6) a session needs an image. -/
  session : r.mode ≠ .none → r.imgW ≠ 0
  /-- (7) the density. -/
  density : r.hidCsize.toNat ≤ 24
  /-- (7) density zero means an empty payload. -/
  emptyPayload : r.mode = .extract → (r.hidCsize = 0 ↔ r.hidSize = 0)
  /-- (7) the payload's chunks fit the image. -/
  payloadFits : r.mode = .extract → r.hidCsize ≠ 0 →
    ceilDiv (8 * r.hidSize.toNat) r.hidCsize.toNat ≤ r.imgW.toNat * r.imgH.toNat - 32
  /-- R24: PULL never goes past the last chunk. -/
  position : r.mode = .extract → r.hidCsize ≠ 0 →
    r.rdPos.toNat ≤ ceilDiv (8 * r.hidSize.toNat) r.hidCsize.toNat
  /-- R223: ERR bit 0 reads 0. -/
  noFormatFault : r.err.getLsbD 0 = false

/-- A command's completion: the registers `r`, the response `fault = 0` with `data`, nothing else changed. -/
def completed (s : State) (r : Regs) (data : RegWord) : State :=
  { s with regs := r, rsps := s.rsps ++ [⟨false, data⟩] }

/-- A command's completion that writes RES, and no other register. -/
def completedWith (s : State) (v : RegWord) : State := completed s { s.regs with res := v } v

/-- A precise fault with the ERR value `e`: ERR, the response `fault = 1, data = 0`, nothing else changed. -/
def faultedWith (s : State) (e : BitVec 8) : State :=
  { s with regs := { s.regs with err := e }, rsps := s.rsps ++ [⟨true, 0⟩] }

/-- The answer of a FAULTED block to a command it ignores. -/
def ignored (s : State) : State := { s with rsps := s.rsps ++ [⟨true, 0⟩] }

/-- The commands that write RES, 10_state.md rule R20. -/
def writesRes : Instr → Bool
  | .mask _ _ _ => true
  | .getbits _ _ _ _ => true
  | .b2u24 _ _ _ => true
  | .u24b _ => true
  | .ljust _ _ => true
  | .rdinit _ _ => false
  | .rdchunk => true
  | .write _ _ => false
  | .writec => false
  | .wrclose => false
  | .imgcfg _ _ _ => false
  | .encbits _ _ _ _ => false
  | .decbits _ _ _ => true
  | .getcoord _ => true
  | .chunksz _ => true
  | .enchdr _ => false
  | .dechdr => true
  | .setuph _ => true
  | .setupx => true
  | .hide _ _ _ => false
  | .hidec => false
  | .pull => true
  | .rdreg _ => false

/-- The causes each command can raise besides ILLEGAL, as ERR bits: the table of 60_exceptions.md rule R217 (0x02 CAPACITY,
0x04 SIZE_OVERFLOW, 0x08 IO, 0x10 PROTOCOL, 0x20 OPERAND, 0x40 BOUNDS). -/
def mayRaise : Instr → BitVec 8
  | .mask _ _ _ => 0x20
  | .getbits _ _ _ _ => 0x20
  | .b2u24 _ _ _ => 0x00
  | .u24b _ => 0x00
  | .ljust _ _ => 0x20
  | .rdinit _ _ => 0x20
  | .rdchunk => 0x18
  | .write _ _ => 0x28
  | .writec => 0x18
  | .wrclose => 0x08
  | .imgcfg _ _ _ => 0x20
  | .encbits _ _ _ _ => 0x78
  | .decbits _ _ _ => 0x78
  | .getcoord _ => 0x50
  | .chunksz _ => 0x16
  | .enchdr _ => 0x1C
  | .dechdr => 0x18
  | .setuph _ => 0x1E
  | .setupx => 0x1A
  | .hide _ _ _ => 0x78
  | .hidec => 0x78
  | .pull => 0x18
  | .rdreg _ => 0x00

/-- The `mask` column of spec/opcode_table.json, transcribed. -/
def tableMask : Opcode → Packet
  | .mask     => 0xFF001FFFFFFFFFFFFFFFFFFFFFFFFFFF
  | .getbits  => 0xFF10003FFFFFFFFF0000000000000000
  | .b2u24    => 0xFFFFFFFFFFFFFFFFFFFFFFFFFF000000
  | .u24b     => 0xFFFFFFFFFFFFFFFFFFFFFFFF00000000
  | .ljust    => 0xFFF01FFFFFFFFFFFFFFFFFFF00000000
  | .rdinit   => 0xFFF01FFFFFFFFFFF0000000000000000
  | .rdchunk  => 0xFFFFFFFFFFFFFFFFFFFFFFFFFFFFFFFF
  | .write    => 0xFFF01FFFFFFFFFFFFFFFFFFF00000000
  | .writec   => 0xFFFFFFFFFFFFFFFFFFFFFFFFFFFFFFFF
  | .wrclose  => 0xFFFFFFFFFFFFFFFFFFFFFFFFFFFFFFFF
  | .imgcfg   => 0xFFF01FFF00000000FFFFFFFF00000000
  | .encbits  => 0xFFF01FFF000000000000000000000000
  | .decbits  => 0xFFF01FFF0000000000000000FFFFFFFF
  | .getcoord => 0xFFFFFFFFFFFFFFFF0000000000000000
  | .chunksz  => 0xFFFFFFFFFFFFFFFF0000000000000000
  | .enchdr   => 0xFFFFFFFFFFFFFFFF0000000000000000
  | .dechdr   => 0xFFFFFFFFFFFFFFFFFFFFFFFFFFFFFFFF
  | .setuph   => 0xFFFFFFFFFFFFFFFF0000000000000000
  | .setupx   => 0xFFFFFFFFFFFFFFFFFFFFFFFFFFFFFFFF
  | .hide     => 0xFFF01FFF000000000000000000000000
  | .hidec    => 0xFFFFFFFFFFFFFFFFFFFFFFFFFFFFFFFF
  | .pull     => 0xFFFFFFFFFFFFFFFFFFFFFFFFFFFFFFFF
  | .rdreg    => 0xFFFFE03FFFFFFFFFFFFFFFFFFFFFFFFF

/-- The `match` column of spec/opcode_table.json, transcribed. -/
def tableMatch : Opcode → Packet
  | .mask     => 0x01000000000000000000000000000000
  | .getbits  => 0x02000000000000000000000000000000
  | .b2u24    => 0x03000000000000000000000000000000
  | .u24b     => 0x04000000000000000000000000000000
  | .ljust    => 0x05000000000000000000000000000000
  | .rdinit   => 0x10000000000000000000000000000000
  | .rdchunk  => 0x11000000000000000000000000000000
  | .write    => 0x18000000000000000000000000000000
  | .writec   => 0x19000000000000000000000000000000
  | .wrclose  => 0x1A000000000000000000000000000000
  | .imgcfg   => 0x20000000000000000000000000000000
  | .encbits  => 0x21000000000000000000000000000000
  | .decbits  => 0x22000000000000000000000000000000
  | .getcoord => 0x23000000000000000000000000000000
  | .chunksz  => 0x24000000000000000000000000000000
  | .enchdr   => 0x28000000000000000000000000000000
  | .dechdr   => 0x29000000000000000000000000000000
  | .setuph   => 0x2A000000000000000000000000000000
  | .setupx   => 0x2B000000000000000000000000000000
  | .hide     => 0x2C000000000000000000000000000000
  | .hidec    => 0x2D000000000000000000000000000000
  | .pull     => 0x2E000000000000000000000000000000
  | .rdreg    => 0x3F000000000000000000000000000000

/-- The table of 60_exceptions.md rule R222: the command is issued in a state that does not allow it. -/
def protocolMisuse (r : Regs) : Instr → Bool
  | .mask _ _ _ => false
  | .getbits _ _ _ _ => false
  | .b2u24 _ _ _ => false
  | .u24b _ => false
  | .ljust _ _ => false
  | .rdinit _ _ => false
  | .rdchunk => !r.rdActive
  | .write _ _ => false
  | .writec => !r.chkValid
  | .wrclose => false
  | .imgcfg _ _ _ => false
  | .encbits _ _ _ _ => r.imgW == 0
  | .decbits _ _ _ => r.imgW == 0
  | .getcoord _ => r.imgW == 0
  | .chunksz _ => r.imgW == 0
  | .enchdr _ => r.imgW == 0
  | .dechdr => r.imgW == 0
  | .setuph _ => r.imgW == 0 || r.mode != .none
  | .setupx => r.imgW == 0 || r.mode != .none
  | .hide _ _ _ => r.imgW == 0 || r.mode != .hide
  | .hidec => r.imgW == 0 || r.mode != .hide || !r.chkValid
  | .pull => r.imgW == 0 || r.mode != .extract
  | .rdreg _ => false

/-- The table of 60_exceptions.md rule R225: an operand value outside the domain of the command's function. -/
def operandOutside (r : Regs) : Instr → Bool
  | .mask wsel _ n => (Width.ofSelect wsel).any fun w => decide (w.bits < n.toNat)
  | .getbits wsel n p src =>
    (Width.ofSelect wsel).any fun w => decide (2 ^ w.bits ≤ src.toNat) || decide (w.bits < p.toNat + n.toNat)
  | .b2u24 _ _ _ => false
  | .u24b _ => false
  | .ljust n _ => decide (24 < n.toNat)
  | .rdinit n srclen => decide (n.toNat < 1) || decide (32 < n.toNat) || decide (2 ^ 61 ≤ srclen.toNat)
  | .rdchunk => false
  | .write n _ => decide (32 < n.toNat)
  | .writec => false
  | .wrclose => false
  | .imgcfg n height width =>
    decide (width.toNat < 32) || decide (height.toNat < 1) || (n.toNat != 3 && n.toNat != 4)
  | .encbits n _ _ bits => decide (24 < n.toNat) || decide (2 ^ n.toNat ≤ bits.toNat)
  | .decbits n _ _ => decide (24 < n.toNat)
  | .getcoord _ => false
  | .chunksz _ => false
  | .enchdr _ => false
  | .dechdr => false
  | .setuph _ => false
  | .setupx => false
  | .hide n _ data => decide (24 < n.toNat) || decide (2 ^ n.toNat ≤ data.toNat)
  | .hidec => decide (24 < r.chkLen.toNat)
  | .pull => false
  | .rdreg _ => false

/-- 60_exceptions.md rule R226: a pixel coordinate outside the image, given or mapped from a chunk order. -/
def outsideImage (r : Regs) : Instr → Bool
  | .mask _ _ _ => false
  | .getbits _ _ _ _ => false
  | .b2u24 _ _ _ => false
  | .u24b _ => false
  | .ljust _ _ => false
  | .rdinit _ _ => false
  | .rdchunk => false
  | .write _ _ => false
  | .writec => false
  | .wrclose => false
  | .imgcfg _ _ _ => false
  | .encbits _ y x _ => decide (r.imgW.toNat ≤ x.toNat) || decide (r.imgH.toNat ≤ y.toNat)
  | .decbits _ y x => decide (r.imgW.toNat ≤ x.toNat) || decide (r.imgH.toNat ≤ y.toNat)
  | .getcoord order => decide (r.imgH.toNat ≤ (32 + order.toNat) / r.imgW.toNat)
  | .chunksz _ => false
  | .enchdr _ => false
  | .dechdr => false
  | .setuph _ => false
  | .setupx => false
  | .hide _ order _ => decide (r.imgH.toNat ≤ (32 + order.toNat) / r.imgW.toNat)
  | .hidec => decide (r.imgH.toNat ≤ (32 + r.chkOrder.toNat) / r.imgW.toNat)
  | .pull => false
  | .rdreg _ => false

/-- The bits of a byte, bit 7 first (20_memory.md rules R66, R69). -/
def byteBits (b : Byte) : List Bool := (List.range 8).map fun j => b.getLsbD (7 - j)

/-- The low `length` bits of a chunk's data, most significant first. -/
def chunkBits (data : BitVec 32) (length : Nat) : List Bool := (List.range length).map fun j => data.getLsbD (length - 1 - j)

/-- The bits of the Remainder (10_state.md rule R30): the REM_LEN high-order bits of REM_DATA. -/
def remainderBits (r : Regs) : List Bool := (byteBits r.remData).take r.remLen.toNat

/-- Every bit the writer has taken: those emitted to DST, then those pending. -/
def writtenBits (s : State) : List Bool := s.dst.flatMap byteBits ++ remainderBits s.regs

/-- Bit `k` of the payload stream in SRC (20_memory.md rule R66). -/
def srcBit (s : State) (k : Nat) : Bool := (s.srcByte (BitVec.ofNat 61 (k / 8))).getLsbD (7 - k % 8)

/-- The `length` payload bits from bit `k` on. -/
def srcBits (s : State) (k length : Nat) : List Bool := (List.range length).map fun i => srcBit s (k + i)

/-- The chunk length RDCHUNK would yield (41_chunk_reader.md rule R142). -/
def nextChunkLength (r : Regs) : Nat := min r.rdCsize.toNat (8 * r.srcLen.toNat - r.rdCursor.toNat)

/-- No SRC read that RDCHUNK would make answers "error". -/
def chunkReadable (s : State) : Prop :=
  ∀ a : SrcAddr, s.regs.rdCursor.toNat / 8 ≤ a.toNat → 8 * a.toNat < s.regs.rdCursor.toNat + nextChunkLength s.regs →
    Access.srcRead a ∉ s.ioErr

/-- None of the next `count` emits answers "error". -/
def emitsClean (s : State) (count : Nat) : Prop := ∀ j, j < count → Access.dstEmit (s.dst.length + j) ∉ s.ioErr

/-- Neither access of a read-modify-write of the pixel answers "error". -/
def pixelClean (s : State) (i : PixIndex) : Prop := Access.pixRead i ∉ s.ioErr ∧ Access.pixWrite i ∉ s.ioErr

/-- The header pixel of column `i` (20_memory.md rule R74). -/
def headerPixel (i : Nat) : PixIndex := BitVec.ofNat 64 i

/-- No read of a header pixel answers "error". -/
def headerReadable (s : State) : Prop := ∀ i, i < 32 → Access.pixRead (headerPixel i) ∉ s.ioErr

/-- No access to a header pixel answers "error". -/
def headerClean (s : State) : Prop := ∀ i, i < 32 → pixelClean s (headerPixel i)

/-- The low `length` bits of pixel `i`'s field are `bits`, its other bits as in `s`. -/
def fieldReplaced (s t : State) (i : PixIndex) (bits : BitVec 32) (length : Nat) : Prop :=
  ∀ j, j < 24 → (t.pixField i).getLsbD j = if j < length then bits.getLsbD j else (s.pixField i).getLsbD j

/-- Every byte of PIX but the colour bytes of the pixels in `changed` reads as in `s`; alpha is channel 3. -/
def otherBytesKept (s t : State) (changed : PixIndex → Prop) : Prop :=
  ∀ (i : PixIndex) (channel : Nat), channel < 4 → (¬ changed i ∨ channel = 3) → t.pixByte i channel = s.pixByte i channel

/-- The header of `t` spells `size`, bit 31 in pixel 0, with bits 23:1 of each header pixel's field as in `s`. -/
def headerSpells (s t : State) (size : BitVec 32) : Prop :=
  ∀ i, i < 32 → ∀ j, j < 24 →
    (t.pixField (headerPixel i)).getLsbD j = if j = 0 then size.getLsbD (31 - i) else (s.pixField (headerPixel i)).getLsbD j

/-- The value the header of `s` spells (44_header_session.md rule R187). -/
def headerReads (s : State) (size : BitVec 32) : Prop :=
  ∀ i, i < 32 → size.getLsbD (31 - i) = (s.pixField (headerPixel i)).getLsbD 0

/-- `c` is the density of a payload of `size` bytes on `usable` pixels (43_pixel_codec.md rule R171): the least number of
bits per pixel that holds it. -/
def isChunkSize (size usable c : Nat) : Prop :=
  (size = 0 → c = 0) ∧ (0 < size → 1 ≤ c ∧ c ≤ 24 ∧ (c - 1) * usable < 8 * size ∧ 8 * size ≤ c * usable)

end Sys2Proof.Machine
end

