-- ==== Sys2Proof/Certificates/Slice0/Obligations.lean ====
section
/-! DEFINITION. The statements about bit_mask_generator, for the provers. Each formalises or rests on the rule of spec/ that
its docstring names. -/

open Sys2Proof Sys2Proof.Machine

/-! ## Encoding -/

/-- 30_encoding.md rules R90 to R94: packets that 95_test_vectors.md writes out (V-M8, V-X6, V-B1, V-L1, V-R5, V-W1, V-P3,
V-S14, P5) decode to the commands they stand for, and the all-zero packet is refused (R96). -/
def Obligations.SpecPacketsDecodeToTheirCommands : Prop :=
  decode 0x0150A000000000000000000000000000 = .ok (.mask 2 true 5) ∧
  decode 0x0221010000000000000000000000A53C = .ok (.getbits 1 8 4 0xA53C) ∧
  decode 0x03000000000000000000000000123456 = .ok (.b2u24 0x12 0x34 0x56) ∧
  decode 0x0500A000000000000000000000000015 = .ok (.ljust 5 0x15) ∧
  decode 0x1001A000000000000000000000000005 = .ok (.rdinit 13 5) ∧
  decode 0x1800A000000000000000000000000013 = .ok (.write 5 0x13) ∧
  decode 0x21030000000000010000002100ABCDEF = .ok (.encbits 24 1 33 0xABCDEF) ∧
  decode 0x2C00800000000001000000020000000C = .ok (.hide 4 0x100000002 0xC) ∧
  decode 0x3F000040000000000000000000000000 = .ok (.rdreg 1) ∧
  decode 0x00000000000000000000000000000000 = .error .reservedOpcode

/-- 30_encoding.md rules R91 to R94: no operand bit of any command is lost between encoding and decoding. -/
def Obligations.DecodeInvertsEncode : Prop :=
  ∀ i : Instr, i.wellFormed = true → decode (encode i) = .ok i

/-- 30_encoding.md rules R95 and R96: a packet that decodes is the one packet of its command, so no bit of it is ignored. -/
def Obligations.EncodeInvertsDecode : Prop :=
  ∀ (w : Packet) (i : Instr), decode w = .ok i → i.wellFormed = true ∧ encode i = w

/-- 30_encoding.md rules R95 to R97 against spec/opcode_table.json: a packet decodes to a command of an opcode exactly when
it matches the opcode's row and meets the row's constraints. -/
def Obligations.DecodeAcceptsExactlyTheTableRows : Prop :=
  ∀ (w : Packet) (o : Opcode),
    (∃ i, decode w = .ok i ∧ i.opcode = o) ↔
      (w &&& tableMask o = tableMatch o ∧
        (o = .mask ∨ o = .getbits → (w.extractLsb' 117 3).toNat ≤ 4) ∧
        (o = .rdreg → w.extractLsb' 102 7 ∈ csrNumbers))

/-! ## The step -/

/-- 00_scope.md rule R10, 10_state.md rule R23 (the input list is the model's form of the command port, log 1): a step takes
the oldest packet and executes it, and a packet that decodes is executed as its command. -/
def Obligations.StepRunsTheDecodedCommand : Prop :=
  ∀ (s : State) (w : Packet) (rest : List Input), s.inputs = .command w :: rest →
    step s = execPacket w { s with inputs := rest } ∧
    ∀ i, decode w = .ok i → step s = exec i { s with inputs := rest }

/-- 60_exceptions.md rule R221: a packet that does not decode raises ILLEGAL; a FAULTED block only answers it (rule R219). -/
def Obligations.UndecodablePacketRaisesIllegal : Prop :=
  ∀ (s : State) (w : Packet) (r : Reject), decode w = .error r →
    (s.regs.err = 0 → execPacket w s = .next (faultedWith s 0x80)) ∧
    (s.regs.err ≠ 0 → execPacket w s = .next (ignored s))

/-- 93_implementation_defined.md: no state of the block is stuck; every step answers a next state. -/
def Obligations.EveryStepIsSafe : Prop := ∀ s : State, stepIsSafe s

/-- 30_encoding.md rule R100: every packet, legal or not, gets exactly one response; `fault` is 1 iff ERR is not zero after
it; `data` is the register's value for a legal RDREG, else 0 on a fault, else the new RES for a command that writes RES,
else 0. -/
def Obligations.EveryPacketGetsOneResponse : Prop :=
  ∀ (s : State) (w : Packet),
    ∃ t r, execPacket w s = .next t ∧ t.rsps = s.rsps ++ [r] ∧
      (r.fault = true ↔ t.regs.err ≠ 0) ∧
      (∀ p c, decode w = .ok (.rdreg p) → Csr.ofNumber p = some c → r.data = s.regs.read c) ∧
      ((∀ p, decode w ≠ .ok (.rdreg p)) →
        r.data = if r.fault then 0 else if (decode w).toOption.any writesRes then t.regs.res else 0)

/-- 60_exceptions.md rule R237 and 20_memory.md rules R60 and R76 (the inputs are the model's form of them, log 1): with no
input pending the block is idle and keeps all state; what the host does to SRC, PIX or DST between commands changes that byte,
or makes DST hold the bytes it says, and changes nothing else. -/
def Obligations.IdleBlockAndHostAccesses : Prop :=
  ∀ (s : State) (rest : List Input), s.memoriesOk = true →
    (s.inputs = [] → step s = .next s) ∧
    (∀ a b, s.inputs = .hostSrc a b :: rest →
      ∃ t, step s = .next t ∧ t = { s with src := t.src, inputs := rest } ∧
        ∀ a', t.srcByte a' = if a' = a then b else s.srcByte a') ∧
    (∀ i ch b, s.inputs = .hostPix i ch b :: rest →
      ∃ t, step s = .next t ∧ t = { s with pix := t.pix, inputs := rest } ∧
        ∀ (i' : PixIndex) (ch' : Nat), ch' < 4 →
          t.pixByte i' ch' = if i' = i ∧ ch' = ch.val then b else s.pixByte i' ch') ∧
    (∀ bytes, s.inputs = .hostDst bytes :: rest → step s = .next { s with dst := bytes, inputs := rest })

/-! ## Reset -/

/-- 10_state.md rule R38, 70_reset_and_hazards.md rule R241: after reset every register reads 0, STATUS among them, and SRC,
DST and PIX are as they were. -/
def Obligations.EveryRegisterReadsZeroAfterReset : Prop :=
  (∀ c : Csr, State.reset.regs.read c = 0) ∧
  ∀ s : State, (∀ c : Csr, (resetRegisters s).regs.read c = 0) ∧ (resetRegisters s).src = s.src ∧
    (resetRegisters s).dst = s.dst ∧ (resetRegisters s).pix = s.pix

/-- 70_reset_and_hazards.md rules R240 and R241 (reset as one input between commands is the model's form, logs 1 and 16): the
reset input gives every register its reset value from any state, FAULTED or not, and changes nothing else. -/
def Obligations.ResetClearsRegistersAndTouchesNoMemory : Prop :=
  ∀ (s : State) (rest : List Input), s.inputs = .reset :: rest →
    ∃ t, step s = .next t ∧ (∀ c : Csr, t.regs.read c = 0) ∧ t = { s with regs := t.regs, inputs := rest }

/-- 70_reset_and_hazards.md rule R242 (the access it falls before is the model's form, log 9): a command cut short by reset
just before the access `a` leaves every register at its reset value, gives no response, and leaves in DST and PIX exactly its
writes before `a`: those of the whole command (`u`) where it makes no such access; no emit from that one on; no write to the
pixel of `a`, nor, in the two commands that write the header from pixel 0 up, to any pixel after it. -/
def Obligations.CutShortCommandLeavesItsEarlierWrites : Prop :=
  ∀ (s u : State) (w : Packet) (a : Access) (rest : List Input),
    let writesHeader := ∃ size, decode w = .ok (.enchdr size) ∨ decode w = .ok (.setuph size)
    s.inputs = .cutShort w a :: rest → s.memoriesOk = true → execPacket w { s with inputs := rest } = .next u →
      ∃ t, step s = .next t ∧ t = { s with regs := Regs.reset, dst := t.dst, pix := t.pix, inputs := rest } ∧
        (∀ k, a = .dstEmit k → s.dst.length ≤ k → t.dst = u.dst.take k) ∧
        ((∀ k, a = .dstEmit k → k < s.dst.length) → t.dst = u.dst) ∧
        ((∀ q, a ≠ .pixRead q ∧ a ≠ .pixWrite q) → t.pix = u.pix) ∧
        ∀ (q j : PixIndex) (ch : Nat), a = .pixRead q ∨ a = .pixWrite q → ch < 4 →
          (j.toNat < q.toNat → t.pixByte j ch = u.pixByte j ch) ∧
          (j = q → t.pixByte j ch = s.pixByte j ch) ∧
          (q.toNat < j.toNat → (writesHeader → t.pixByte j ch = s.pixByte j ch) ∧
            (¬ writesHeader → t.pixByte j ch = u.pixByte j ch))

/-! ## Faults -/

/-- 60_exceptions.md rule R219: in a FAULTED block every packet but a legal RDREG, itself legal or not, changes nothing and is
answered `fault = 1, data = 0`; a legal RDREG answers the register; STATUS.FAULTED reads 1. -/
def Obligations.FaultedBlockIgnoresAllButRdreg : Prop :=
  ∀ (s : State) (w : Packet), s.regs.err ≠ 0 →
    (s.regs.read .status).getLsbD 0 = true ∧
    ((∀ p, decode w ≠ .ok (.rdreg p)) → execPacket w s = .next (ignored s)) ∧
    (∀ p, decode w = .ok (.rdreg p) → ∃ c, Csr.ofNumber p = some c ∧
      execPacket w s = .next { s with rsps := s.rsps ++ [⟨true, s.regs.read c⟩] })

/-- 60_exceptions.md rule R218: a fault writes ERR and no other register, answers `fault = 1, data = 0`, and unless it is an
IO fault leaves every memory as it was. -/
def Obligations.FaultsWriteOnlyErr : Prop :=
  ∀ (s t : State) (i : Instr), s.regs.err = 0 → exec i s = .next t → t.regs.err ≠ 0 →
    t.regs = { s.regs with err := t.regs.err } ∧ t.rsps = s.rsps ++ [⟨true, 0⟩] ∧
    (t.regs.err ≠ 0x08 → t = faultedWith s t.regs.err)

/-- 60_exceptions.md rules R217 and R220: a command raises no cause that its row does not list, and never two at once but
SIZE_OVERFLOW with CAPACITY. -/
def Obligations.CommandsRaiseOnlyTheirCauses : Prop :=
  ∀ (s t : State) (i : Instr), i.wellFormed = true → s.regs.err = 0 → exec i s = .next t →
    t.regs.err &&& ~~~(mayRaise i) = 0 ∧ t.regs.err ∈ [0x00, 0x02, 0x04, 0x06, 0x08, 0x10, 0x20, 0x40]

/-- 60_exceptions.md rule R222: the PROTOCOL cases, all of them and no others. -/
def Obligations.ProtocolFaultsExactlyOnMisuse : Prop :=
  ∀ (s : State) (i : Instr), s.regs.err = 0 → i.wellFormed = true →
    (protocolMisuse s.regs i = true ↔ exec i s = .next (faultedWith s 0x10))

/-- 60_exceptions.md rule R225: the OPERAND cases, all of them and no others, once the PROTOCOL checks have passed. -/
def Obligations.OperandFaultsExactlyOutsideTheDomain : Prop :=
  ∀ (s : State) (i : Instr), s.regs.Inv → s.regs.err = 0 → i.wellFormed = true → protocolMisuse s.regs i = false →
    (operandOutside s.regs i = true ↔ exec i s = .next (faultedWith s 0x20))

/-- 60_exceptions.md rule R226: the BOUNDS cases, all of them and no others, once the earlier checks have passed. -/
def Obligations.BoundsFaultsExactlyOutsideTheImage : Prop :=
  ∀ (s : State) (i : Instr), s.regs.Inv → s.regs.err = 0 → i.wellFormed = true →
    protocolMisuse s.regs i = false → operandOutside s.regs i = false →
    (outsideImage s.regs i = true ↔ exec i s = .next (faultedWith s 0x40))

/-- 60_exceptions.md rule R224: SIZE_OVERFLOW and CAPACITY, both bits when both hold, and neither when neither does; ENCHDR
makes only the size test, SETUPX only the capacity test, on the decoded header. -/
def Obligations.SizeAndCapacityFaults : Prop :=
  ∀ (s : State) (size : BitVec 64) (v : BitVec 32), s.regs.err = 0 →
    let usable := s.regs.imgW.toNat * s.regs.imgH.toNat - 32
    let e : BitVec 8 := (if 2 ^ 32 ≤ size.toNat then 0x04 else 0) ||| (if 24 * usable < 8 * size.toNat then 0x02 else 0)
    (∀ i, i = .chunksz size ∨ i = .setuph size → protocolMisuse s.regs i = false →
      (e ≠ 0 → exec i s = .next (faultedWith s e)) ∧
      (e = 0 → ∀ t, exec i s = .next t → t.regs.err &&& 0x06 = 0)) ∧
    (protocolMisuse s.regs (.enchdr size) = false →
      (2 ^ 32 ≤ size.toNat → exec (.enchdr size) s = .next (faultedWith s 0x04)) ∧
      (size.toNat < 2 ^ 32 → ∀ t, exec (.enchdr size) s = .next t → t.regs.err &&& 0x06 = 0)) ∧
    (protocolMisuse s.regs .setupx = false → headerReadable s → headerReads s v →
      (24 * usable < 8 * v.toNat → exec .setupx s = .next (faultedWith s 0x02)) ∧
      (8 * v.toNat ≤ 24 * usable → ∀ t, exec .setupx s = .next t → t.regs.err &&& 0x06 = 0))

/-- 30_encoding.md rule R95 (4) and (5), 60_exceptions.md rule R221 (as the model applies them to a term, log 15): a reserved
width select and an unimplemented CSR number raise ILLEGAL. -/
def Obligations.ReservedOperandsRaiseIllegal : Prop :=
  ∀ (s : State) (i : Instr), s.regs.err = 0 → (i.wellFormed = false ↔ exec i s = .next (faultedWith s 0x80))

/-- 60_exceptions.md rule R230, 10_state.md rule R39 (8) (the inputs are the model's form, logs 1 and 9): once ERR is not zero
no register changes until reset, and reset is the one input that ends it. -/
def Obligations.OnlyResetLeavesFaulted : Prop :=
  ∀ s t : State, s.regs.err ≠ 0 → step s = .next t →
    t.regs = s.regs ∨
      ((∃ rest, s.inputs = .reset :: rest ∨ ∃ w a, s.inputs = .cutShort w a :: rest) ∧ t.regs = Regs.reset)

/-! ## BitPacking -/

/-- 40_bitpacking.md rules R120 and R121, with §8 property 2: bit `i` of the mask. -/
def Obligations.MaskSetsExactlyTheLowBits : Prop :=
  ∀ (s : State) (wsel : BitVec 3) (w : Width) (inv : Bool) (n : BitVec 7),
    s.regs.err = 0 → Width.ofSelect wsel = some w → n.toNat ≤ w.bits →
      ∃ v : RegWord, exec (.mask wsel inv n) s = .next (completedWith s v) ∧
        ∀ i : Nat, v.getLsbD i = (decide (i < w.bits) && (decide (i < n.toNat) ^^ inv))

/-- 40_bitpacking.md rules R122 and R123: the field that starts `position` bits below the most significant bit. -/
def Obligations.GetbitsReadsTheFieldFromTheTop : Prop :=
  ∀ (s : State) (wsel : BitVec 3) (w : Width) (n p : BitVec 7) (src : BitVec 64),
    s.regs.err = 0 → Width.ofSelect wsel = some w → src.toNat < 2 ^ w.bits → p.toNat + n.toNat ≤ w.bits →
      ∃ v : RegWord, exec (.getbits wsel n p src) s = .next (completedWith s v) ∧
        ∀ i : Nat, v.getLsbD i = (decide (i < n.toNat) && src.getLsbD (w.bits - p.toNat - n.toNat + i))

/-- 40_bitpacking.md rules R124 and R125: big-endian composition, and its inverse with the top byte discarded. -/
def Obligations.ByteConversions : Prop :=
  ∀ s : State, s.regs.err = 0 →
    (∀ b0 b1 b2 : Byte, exec (.b2u24 b0 b1 b2) s =
      .next (completedWith s (BitVec.ofNat 64 (b0.toNat * 65536 + b1.toNat * 256 + b2.toNat)))) ∧
    (∀ x : BitVec 32, exec (.u24b x) s = .next (completedWith s (BitVec.ofNat 64 (x.toNat % 2 ^ 24))))

/-- 40_bitpacking.md rules R126 and R127: the low `data_length` bits of `data` at the high end of the 24-bit field, zeros
below. -/
def Obligations.LjustMovesTheLowBitsUp : Prop :=
  ∀ (s : State) (n : BitVec 7) (data : BitVec 32), s.regs.err = 0 → n.toNat ≤ 24 →
    ∃ v : RegWord, exec (.ljust n data) s = .next (completedWith s v) ∧
      ∀ i : Nat, v.getLsbD i = (decide (i < 24) && (decide (24 - n.toNat ≤ i) && data.getLsbD (i - (24 - n.toNat))))

/-! ## Chunk reader -/

/-- 41_chunk_reader.md rule R141: RDINIT binds and rewinds the reader and discards an unconsumed chunk; a chunk size outside 1
to 32 or a length of 2^61 or more is an OPERAND fault. -/
def Obligations.RdinitStartsANewReader : Prop :=
  ∀ (s : State) (n : BitVec 7) (srclen : BitVec 64), s.regs.err = 0 →
    (1 ≤ n.toNat → n.toNat ≤ 32 → srclen.toNat < 2 ^ 61 →
      exec (.rdinit n srclen) s = .next (completed s
        { s.regs with
          srcLen := srclen, rdCsize := BitVec.ofNat 6 n.toNat, rdCursor := 0, rdOrder := 0, rdActive := true,
          chkValid := false } 0)) ∧
    (n.toNat < 1 ∨ 32 < n.toNat ∨ 2 ^ 61 ≤ srclen.toNat → exec (.rdinit n srclen) s = .next (faultedWith s 0x20))

/-- 41_chunk_reader.md rule R142, 20_memory.md rule R66: the next bits of the payload stream, most significant first, as a
right-justified chunk; the last chunk may be shorter. -/
def Obligations.RdchunkYieldsTheNextStreamBits : Prop :=
  ∀ s : State, s.regs.Inv → s.regs.err = 0 → s.regs.rdActive = true →
    s.regs.rdCursor.toNat < 8 * s.regs.srcLen.toNat → chunkReadable s →
      let length := nextChunkLength s.regs
      ∃ d : BitVec 32,
        exec .rdchunk s = .next (completed s
          { s.regs with
            chkData := d, chkLen := BitVec.ofNat 6 length, chkOrder := s.regs.rdOrder, chkValid := true,
            rdCursor := BitVec.ofNat 64 (s.regs.rdCursor.toNat + length), rdOrder := s.regs.rdOrder + 1, res := 1 } 1) ∧
        1 ≤ length ∧ length ≤ 32 ∧ d.toNat < 2 ^ length ∧
        chunkBits d length = srcBits s s.regs.rdCursor.toNat length

/-- 41_chunk_reader.md rule R142: exhaustion is no fault and changes only CHK_VALID and RES; a read that answers "error"
faults precisely. -/
def Obligations.RdchunkExhaustedOrFailing : Prop :=
  ∀ s : State, s.regs.Inv → s.regs.err = 0 → s.regs.rdActive = true →
    (s.regs.rdCursor.toNat = 8 * s.regs.srcLen.toNat →
      exec .rdchunk s = .next (completed s { s.regs with chkValid := false, res := 0 } 0)) ∧
    (s.regs.rdCursor.toNat < 8 * s.regs.srcLen.toNat → ¬ chunkReadable s →
      exec .rdchunk s = .next (faultedWith s 0x08))

/-! ## Chunk writer -/

/-- 42_chunk_writer.md rules R151 to R153 and R156 (2), 20_memory.md rule R69: WRITE and WRITEC append the chunk's low bits,
most significant first, to the bits written so far; every whole byte goes to DST and the rest stays in the Remainder. WRITEC
also consumes the latch. -/
def Obligations.WritersAppendTheChunksBits : Prop :=
  ∀ s : State, s.regs.err = 0 →
    (∀ (n : BitVec 7) (data : BitVec 32), n.toNat ≤ 32 → emitsClean s ((s.regs.remLen.toNat + n.toNat) / 8) →
      ∃ t, exec (.write n data) s = .next t ∧
        t = { completed s { s.regs with
                dstCount := s.regs.dstCount + BitVec.ofNat 64 ((s.regs.remLen.toNat + n.toNat) / 8),
                remData := t.regs.remData, remLen := BitVec.ofNat 3 ((s.regs.remLen.toNat + n.toNat) % 8) } 0
              with dst := t.dst } ∧
        t.dst.length = s.dst.length + (s.regs.remLen.toNat + n.toNat) / 8 ∧
        writtenBits t = writtenBits s ++ chunkBits data n.toNat ∧
        t.regs.remData.toNat % 2 ^ (8 - t.regs.remLen.toNat) = 0) ∧
    (s.regs.chkValid = true → emitsClean s ((s.regs.remLen.toNat + s.regs.chkLen.toNat) / 8) →
      ∃ t, exec .writec s = .next t ∧
        t = { completed s { s.regs with
                dstCount := s.regs.dstCount + BitVec.ofNat 64 ((s.regs.remLen.toNat + s.regs.chkLen.toNat) / 8),
                remData := t.regs.remData, remLen := BitVec.ofNat 3 ((s.regs.remLen.toNat + s.regs.chkLen.toNat) % 8),
                chkValid := false } 0
              with dst := t.dst } ∧
        t.dst.length = s.dst.length + (s.regs.remLen.toNat + s.regs.chkLen.toNat) / 8 ∧
        writtenBits t = writtenBits s ++ chunkBits s.regs.chkData s.regs.chkLen.toNat ∧
        t.regs.remData.toNat % 2 ^ (8 - t.regs.remLen.toNat) = 0)

/-- 20_memory.md rule R71, 42_chunk_writer.md rule R152: when the emit after `j` good ones answers "error", those `j` bytes
stay in DST, no register but ERR is written, and nothing more is emitted. -/
def Obligations.FailingEmitKeepsTheBytesBefore : Prop :=
  ∀ (s : State) (j : Nat), s.regs.err = 0 → emitsClean s j → Access.dstEmit (s.dst.length + j) ∈ s.ioErr →
    (∀ (n : BitVec 7) (data : BitVec 32), n.toNat ≤ 32 → j < (s.regs.remLen.toNat + n.toNat) / 8 →
      ∃ t, exec (.write n data) s = .next t ∧ t = { faultedWith s 0x08 with dst := t.dst } ∧
        t.dst.length = s.dst.length + j ∧
        t.dst.flatMap byteBits <+: writtenBits s ++ chunkBits data n.toNat) ∧
    (s.regs.chkValid = true → j < (s.regs.remLen.toNat + s.regs.chkLen.toNat) / 8 →
      ∃ t, exec .writec s = .next t ∧ t = { faultedWith s 0x08 with dst := t.dst } ∧
        t.dst.length = s.dst.length + j ∧
        t.dst.flatMap byteBits <+: writtenBits s ++ chunkBits s.regs.chkData s.regs.chkLen.toNat) ∧
    (j = 0 → s.regs.remLen ≠ 0 → exec .wrclose s = .next (faultedWith s 0x08))

/-- 42_chunk_writer.md rule R155: a non-empty Remainder is emitted as one byte, zero-padded; an empty one emits nothing. -/
def Obligations.WrcloseFlushesTheRemainder : Prop :=
  ∀ s : State, s.regs.err = 0 →
    (s.regs.remLen = 0 → exec .wrclose s = .next (completed s { s.regs with remData := 0, remLen := 0 } 0)) ∧
    (s.regs.remLen ≠ 0 → emitsClean s 1 →
      exec .wrclose s = .next
        { completed s { s.regs with remData := 0, remLen := 0, dstCount := s.regs.dstCount + 1 } 0
          with dst := s.dst ++ [s.regs.remData] })

/-- 41_chunk_reader.md rule R144 and 42_chunk_writer.md rule R156 (3), one chunk of it: while the bits written are, after
those of `before`, the payload bits up to the cursor, RDCHUNK then WRITEC keeps it so and moves the cursor on. -/
def Obligations.ReadThenWriteCopiesTheStream : Prop :=
  ∀ (s : State) (before : List Bool), s.regs.Inv → s.regs.err = 0 → s.regs.rdActive = true →
    s.regs.rdCursor.toNat < 8 * s.regs.srcLen.toNat → chunkReadable s → emitsClean s 4 →
    writtenBits s = before ++ srcBits s 0 s.regs.rdCursor.toNat →
      ∃ t u, exec .rdchunk s = .next t ∧ exec .writec t = .next u ∧
        u.regs.Inv ∧ u.regs.err = 0 ∧ u.regs.rdActive = true ∧ u.src = s.src ∧ u.regs.srcLen = s.regs.srcLen ∧
        s.regs.rdCursor.toNat < u.regs.rdCursor.toNat ∧
        writtenBits u = before ++ srcBits u 0 u.regs.rdCursor.toNat

/-- 42_chunk_writer.md rule R156 (3), its end: when the whole payload has been copied into an empty DST, WRCLOSE emits
nothing more and DST is SRC bit for bit. -/
def Obligations.CloseAfterTheLastChunkLeavesTheSource : Prop :=
  ∀ s : State, s.regs.err = 0 → writtenBits s = srcBits s 0 (8 * s.regs.srcLen.toNat) →
    ∃ t, exec .wrclose s = .next t ∧ t.dst = s.dst ∧ t.dst.length = s.regs.srcLen.toNat ∧
      t.dst.flatMap byteBits = srcBits t 0 (8 * s.regs.srcLen.toNat)

/-! ## Image -/

/-- 43_pixel_codec.md rule R165: IMGCFG records the image and ends any session; an image narrower than 32 pixels, of no row,
or of channels other than 3 and 4 is an OPERAND fault. -/
def Obligations.ImgcfgRecordsTheImage : Prop :=
  ∀ (s : State) (n : BitVec 7) (height width : BitVec 32), s.regs.err = 0 →
    (32 ≤ width.toNat → 1 ≤ height.toNat → n = 3 ∨ n = 4 →
      exec (.imgcfg n height width) s = .next (completed s
        { s.regs with
          imgW := width, imgH := height, imgCh := BitVec.ofNat 3 n.toNat, mode := .none, hidSize := 0, hidCsize := 0,
          rdPos := 0 } 0)) ∧
    (width.toNat < 32 ∨ height.toNat < 1 ∨ (n ≠ 3 ∧ n ≠ 4) → exec (.imgcfg n height width) s = .next (faultedWith s 0x20))

/-- 43_pixel_codec.md rules R166 and R167, 20_memory.md rules R63, R65 and R67: ENCBITS replaces the low bits of one pixel's
field and no other byte, alpha included. -/
def Obligations.EncbitsReplacesTheLowBits : Prop :=
  ∀ (s : State) (n : BitVec 7) (y x bits : BitVec 32),
    let i := pixelIndex x.toNat y.toNat s.regs.imgW.toNat
    s.memoriesOk = true → s.regs.err = 0 → n.toNat ≤ 24 → bits.toNat < 2 ^ n.toNat →
    x.toNat < s.regs.imgW.toNat → y.toNat < s.regs.imgH.toNat → pixelClean s i →
      ∃ t, exec (.encbits n y x bits) s = .next t ∧ t = { completed s s.regs 0 with pix := t.pix } ∧
        i.toNat = y.toNat * s.regs.imgW.toNat + x.toNat ∧
        fieldReplaced s t i bits n.toNat ∧ otherBytesKept s t (fun j => j = i)

/-- 43_pixel_codec.md rules R166 and R168: DECBITS returns the low bits of one pixel's field. -/
def Obligations.DecbitsReadsTheLowBits : Prop :=
  ∀ (s : State) (n : BitVec 7) (y x : BitVec 32),
    let i := pixelIndex x.toNat y.toNat s.regs.imgW.toNat
    s.regs.err = 0 → n.toNat ≤ 24 → x.toNat < s.regs.imgW.toNat → y.toNat < s.regs.imgH.toNat →
    Access.pixRead i ∉ s.ioErr →
      ∃ v : RegWord, exec (.decbits n y x) s = .next (completedWith s v) ∧
        ∀ j, v.getLsbD j = (decide (j < n.toNat) && (s.pixField i).getLsbD j)

/-- 43_pixel_codec.md rule R166: what ENCBITS wrote, DECBITS of the same pixel and length reads back. -/
def Obligations.DecbitsReadsWhatEncbitsWrote : Prop :=
  ∀ (s t : State) (n : BitVec 7) (y x bits : BitVec 32),
    s.memoriesOk = true → s.regs.err = 0 → exec (.encbits n y x bits) s = .next t → t.regs.err = 0 →
      exec (.decbits n y x) t = .next (completedWith t (BitVec.ofNat 64 bits.toNat))

/-- 20_memory.md rule R71, on the one pixel of ENCBITS, DECBITS, HIDE and HIDEC (rule R73): when an access to it answers
"error" the command is an IO fault, the pixel keeps its bytes, and only ERR is written: HIDEC keeps its latch. -/
def Obligations.FailingPixelAccessStoresNothing : Prop :=
  (∀ (s : State) (n : BitVec 7) (y x bits : BitVec 32),
    let i := pixelIndex x.toNat y.toNat s.regs.imgW.toNat
    s.regs.err = 0 → n.toNat ≤ 24 → x.toNat < s.regs.imgW.toNat → y.toNat < s.regs.imgH.toNat →
      (bits.toNat < 2 ^ n.toNat → ¬ pixelClean s i → exec (.encbits n y x bits) s = .next (faultedWith s 0x08)) ∧
      (Access.pixRead i ∈ s.ioErr → exec (.decbits n y x) s = .next (faultedWith s 0x08))) ∧
  ∀ (s : State) (length order : Nat) (data : BitVec 32),
    let xy := getCoordinates order s.regs.imgW.toNat
    let i := pixelIndex xy.1 xy.2 s.regs.imgW.toNat
    s.regs.err = 0 → s.regs.imgW ≠ 0 → s.regs.mode = .hide → length ≤ 24 → data.toNat < 2 ^ length →
    32 + order < s.regs.imgW.toNat * s.regs.imgH.toNat → ¬ pixelClean s i →
      i.toNat = 32 + order ∧
      (∀ (n : BitVec 7) (o : BitVec 64), n.toNat = length → o.toNat = order →
        exec (.hide n o data) s = .next (faultedWith s 0x08)) ∧
      (s.regs.chkValid = true → s.regs.chkData = data → s.regs.chkLen.toNat = length → s.regs.chkOrder.toNat = order →
        exec .hidec s = .next (faultedWith s 0x08))

/-- 43_pixel_codec.md rule R170: GETCOORD answers the coordinates of pixel `32 + order`, y above x; an order whose pixel is
outside the image is a BOUNDS fault, and an image not configured a PROTOCOL fault. -/
def Obligations.GetcoordAnswersRowMajorCoordinates : Prop :=
  ∀ (s : State) (order : BitVec 64), s.regs.err = 0 →
    (s.regs.imgW = 0 → exec (.getcoord order) s = .next (faultedWith s 0x10)) ∧
    (s.regs.imgW ≠ 0 → s.regs.imgW.toNat * s.regs.imgH.toNat ≤ 32 + order.toNat →
      exec (.getcoord order) s = .next (faultedWith s 0x40)) ∧
    (s.regs.imgW ≠ 0 → 32 + order.toNat < s.regs.imgW.toNat * s.regs.imgH.toNat →
      ∃ v : RegWord, exec (.getcoord order) s = .next (completedWith s v) ∧
        (v.extractLsb' 0 32).toNat < s.regs.imgW.toNat ∧ (v.extractLsb' 32 32).toNat < s.regs.imgH.toNat ∧
        (v.extractLsb' 32 32).toNat * s.regs.imgW.toNat + (v.extractLsb' 0 32).toNat = 32 + order.toNat)

/-- 43_pixel_codec.md rule R169, §8 property 9: GETCOORD is a bijection from the orders of the image's payload pixels onto
the coordinates outside the header. -/
def Obligations.GetcoordIsABijection : Prop :=
  ∀ (s : State) (x y : BitVec 32), s.regs.err = 0 → s.regs.imgW ≠ 0 →
    x.toNat < s.regs.imgW.toNat → y.toNat < s.regs.imgH.toNat → 32 ≤ y.toNat * s.regs.imgW.toNat + x.toNat →
      ∃ order : BitVec 64, 32 + order.toNat < s.regs.imgW.toNat * s.regs.imgH.toNat ∧
        exec (.getcoord order) s = .next (completedWith s (y ++ x)) ∧
        ∀ other : BitVec 64, exec (.getcoord other) s = .next (completedWith s (y ++ x)) → other = order

/-- 43_pixel_codec.md rule R171 (with rule R173's size test passed): CHUNKSZ answers the density of a payload that the usable
pixels can hold at 24 bits each, 0 for an empty one, and raises CAPACITY for any other. -/
def Obligations.ChunkszAnswersTheDensity : Prop :=
  ∀ (s : State) (size : BitVec 64), s.regs.err = 0 → s.regs.imgW ≠ 0 → size.toNat < 2 ^ 32 →
    let usable := s.regs.imgW.toNat * s.regs.imgH.toNat - 32
    (24 * usable < 8 * size.toNat → exec (.chunksz size) s = .next (faultedWith s 0x02)) ∧
    (8 * size.toNat ≤ 24 * usable →
      ∃ v : RegWord, exec (.chunksz size) s = .next (completedWith s v) ∧ isChunkSize size.toNat usable v.toNat)

/-- 43_pixel_codec.md rule R172: at the density CHUNKSZ answers, the payload has at most as many chunks as there are usable
pixels, and every chunk order of it lies inside the image. -/
def Obligations.ChunksAtThatDensityFitTheImage : Prop :=
  ∀ (s : State) (size : BitVec 64) (v : RegWord), s.regs.Inv → s.regs.err = 0 → 0 < size.toNat →
    exec (.chunksz size) s = .next (completedWith s v) →
      ceilDiv (8 * size.toNat) v.toNat ≤ s.regs.imgW.toNat * s.regs.imgH.toNat - 32 ∧
      ∀ k, k * v.toNat < 8 * size.toNat →
        32 + k ≤ s.regs.imgW.toNat * s.regs.imgH.toNat - 1 ∧ (getCoordinates k s.regs.imgW.toNat).1 < s.regs.imgW.toNat ∧
        (getCoordinates k s.regs.imgW.toNat).2 < s.regs.imgH.toNat

/-! ## Header and sessions -/

/-- 44_header_session.md rules R185 and R186: ENCHDR writes the size into bit 0 of the 32 header pixels and no other bit. -/
def Obligations.EnchdrWritesTheHeader : Prop :=
  ∀ (s : State) (size : BitVec 64), s.memoriesOk = true → s.regs.err = 0 → s.regs.imgW ≠ 0 → size.toNat < 2 ^ 32 →
    headerClean s →
      ∃ t, exec (.enchdr size) s = .next t ∧ t = { completed s s.regs 0 with pix := t.pix } ∧
        headerSpells s t (BitVec.ofNat 32 size.toNat) ∧ otherBytesKept s t (fun i => i.toNat < 32)

/-- 20_memory.md rule R71, 44_header_session.md rules R186 and R190: when the first failing access of ENCHDR, or of SETUPH
once its checks have passed, is one of pixel `k`, it is an IO fault, the pixels before `k` are rewritten and no other byte is;
SETUPH keeps MODE and RES. -/
def Obligations.FailingHeaderWriteLeavesAPrefix : Prop :=
  ∀ (s : State) (i : Instr) (size : BitVec 64) (k : Nat), s.memoriesOk = true → s.regs.err = 0 → s.regs.imgW ≠ 0 →
    size.toNat < 2 ^ 32 →
    i = .enchdr size ∨ (i = .setuph size ∧ s.regs.mode = .none ∧
      8 * size.toNat ≤ 24 * (s.regs.imgW.toNat * s.regs.imgH.toNat - 32)) →
    k < 32 → (∀ p, p < k → pixelClean s (headerPixel p)) → ¬ pixelClean s (headerPixel k) →
      ∃ t, exec i s = .next t ∧ t = { faultedWith s 0x08 with pix := t.pix } ∧
        (∀ p, p < k → ∀ j, j < 24 → (t.pixField (headerPixel p)).getLsbD j =
          if j = 0 then size.getLsbD (31 - p) else (s.pixField (headerPixel p)).getLsbD j) ∧
        otherBytesKept s t (fun p => p.toNat < k)

/-- 44_header_session.md rule R188: DECHDR answers the 32 low bits of the header pixels, pixel 0 most significant; a read that
answers "error" is an IO fault, an image not configured a PROTOCOL fault. -/
def Obligations.DechdrReadsTheHeader : Prop :=
  ∀ (s : State) (size : BitVec 32), s.regs.err = 0 →
    (s.regs.imgW = 0 → exec .dechdr s = .next (faultedWith s 0x10)) ∧
    (s.regs.imgW ≠ 0 → ¬ headerReadable s → exec .dechdr s = .next (faultedWith s 0x08)) ∧
    (s.regs.imgW ≠ 0 → headerReadable s → headerReads s size →
      exec .dechdr s = .next (completedWith s (BitVec.ofNat 64 size.toNat)))

/-- 44_header_session.md rule R187, §8 property 4: the header round trip, on every configured image. -/
def Obligations.HeaderRoundTrip : Prop :=
  ∀ (s : State) (size : BitVec 64), s.memoriesOk = true → s.regs.err = 0 → s.regs.imgW ≠ 0 → size.toNat < 2 ^ 32 →
    headerClean s →
      ∃ t, exec (.enchdr size) s = .next t ∧ exec .dechdr t = .next (completedWith t size)

/-- 44_header_session.md rule R190: SETUPH writes the header, starts the hide session and answers the density. -/
def Obligations.SetuphStartsAHideSession : Prop :=
  ∀ (s : State) (size : BitVec 64), s.memoriesOk = true → s.regs.err = 0 → s.regs.imgW ≠ 0 → s.regs.mode = .none →
    size.toNat < 2 ^ 32 → 8 * size.toNat ≤ 24 * (s.regs.imgW.toNat * s.regs.imgH.toNat - 32) → headerClean s →
      ∃ t v, exec (.setuph size) s = .next t ∧
        t = { completed s { s.regs with mode := .hide, res := v } v with pix := t.pix } ∧
        isChunkSize size.toNat (s.regs.imgW.toNat * s.regs.imgH.toNat - 32) v.toNat ∧
        headerSpells s t (BitVec.ofNat 32 size.toNat) ∧ otherBytesKept s t (fun i => i.toNat < 32)

/-- 44_header_session.md rules R191 and R192: SETUPX decodes the header into the ReadingState and writes no pixel; a header
read that answers "error" is an IO fault, whatever the header spells (60_exceptions.md rule R220). -/
def Obligations.SetupxStartsAnExtractSession : Prop :=
  ∀ (s : State) (v : BitVec 32), s.regs.err = 0 → s.regs.imgW ≠ 0 → s.regs.mode = .none →
    (¬ headerReadable s → exec .setupx s = .next (faultedWith s 0x08)) ∧
    (headerReadable s → headerReads s v → 8 * v.toNat ≤ 24 * (s.regs.imgW.toNat * s.regs.imgH.toNat - 32) →
      ∃ c : BitVec 5, isChunkSize v.toNat (s.regs.imgW.toNat * s.regs.imgH.toNat - 32) c.toNat ∧
        exec .setupx s = .next (completed s
          { s.regs with
            hidSize := v, hidCsize := c, rdPos := 0, mode := .extract, res := (c ++ v).setWidth 64 }
          ((c ++ v).setWidth 64)))

/-- 44_header_session.md rules R193 to R195: HIDE and HIDEC store the chunk in the low bits of pixel `32 + order` and change
no other byte; HIDEC also consumes the latch. -/
def Obligations.HidingStoresTheChunk : Prop :=
  ∀ (s : State) (length order : Nat) (data : BitVec 32),
    let xy := getCoordinates order s.regs.imgW.toNat
    let i := pixelIndex xy.1 xy.2 s.regs.imgW.toNat
    s.memoriesOk = true → s.regs.err = 0 → s.regs.imgW ≠ 0 → s.regs.mode = .hide →
    length ≤ 24 → data.toNat < 2 ^ length → 32 + order < s.regs.imgW.toNat * s.regs.imgH.toNat → pixelClean s i →
      i.toNat = 32 + order ∧
      (∀ (n : BitVec 7) (o : BitVec 64), n.toNat = length → o.toNat = order →
        ∃ t, exec (.hide n o data) s = .next t ∧ t = { completed s s.regs 0 with pix := t.pix } ∧
          fieldReplaced s t i data length ∧ otherBytesKept s t (fun j => j = i)) ∧
      (s.regs.chkValid = true → s.regs.chkData = data → s.regs.chkLen.toNat = length → s.regs.chkOrder.toNat = order →
        ∃ t, exec .hidec s = .next t ∧
          t = { completed s { s.regs with chkValid := false } 0 with pix := t.pix } ∧
          fieldReplaced s t i data length ∧ otherBytesKept s t (fun j => j = i))

/-- 44_header_session.md rule R196, 43_pixel_codec.md rule R172: PULL yields the low HID_CSIZE bits of pixel `32 + RD_POS`,
which lies inside the image. -/
def Obligations.PullYieldsTheNextHiddenChunk : Prop :=
  ∀ s : State, s.regs.Inv → s.regs.err = 0 → s.regs.mode = .extract →
    s.regs.rdPos.toNat * s.regs.hidCsize.toNat < 8 * s.regs.hidSize.toNat →
    Access.pixRead (BitVec.ofNat 64 (32 + s.regs.rdPos.toNat)) ∉ s.ioErr →
      32 + s.regs.rdPos.toNat < s.regs.imgW.toNat * s.regs.imgH.toNat ∧
      ∃ d : BitVec 32,
        exec .pull s = .next (completed s
          { s.regs with
            chkData := d, chkLen := BitVec.ofNat 6 s.regs.hidCsize.toNat, chkOrder := s.regs.rdPos, chkValid := true,
            rdPos := s.regs.rdPos + 1, res := 1 } 1) ∧
        ∀ j, d.getLsbD j = (decide (j < s.regs.hidCsize.toNat) &&
          (s.pixField (BitVec.ofNat 64 (32 + s.regs.rdPos.toNat))).getLsbD j)

/-- 44_header_session.md rule R196: exhaustion is no fault and changes only CHK_VALID and RES; a read that answers "error"
faults precisely. -/
def Obligations.PullExhaustedOrFailing : Prop :=
  ∀ s : State, s.regs.Inv → s.regs.err = 0 → s.regs.mode = .extract →
    (8 * s.regs.hidSize.toNat ≤ s.regs.rdPos.toNat * s.regs.hidCsize.toNat →
      exec .pull s = .next (completed s { s.regs with chkValid := false, res := 0 } 0)) ∧
    (s.regs.rdPos.toNat * s.regs.hidCsize.toNat < 8 * s.regs.hidSize.toNat →
      Access.pixRead (BitVec.ofNat 64 (32 + s.regs.rdPos.toNat)) ∈ s.ioErr →
      exec .pull s = .next (faultedWith s 0x08))

/-- 44_header_session.md rule R197, one chunk of it: a chunk hidden at an order is the chunk PULL yields at that position, on
an image that PIX holds unchanged since, when the density is the chunk's length. -/
def Obligations.PulledChunkIsTheHiddenChunk : Prop :=
  ∀ (s t u : State) (n : BitVec 7) (order : BitVec 64) (data : BitVec 32),
    s.memoriesOk = true → s.regs.err = 0 → exec (.hide n order data) s = .next t → t.regs.err = 0 →
    u.regs.Inv → u.regs.err = 0 → u.regs.mode = .extract → u.pix = t.pix → u.regs.imgW = s.regs.imgW →
    u.regs.rdPos = order → u.regs.hidCsize.toNat = n.toNat → u.regs.rdPos.toNat * n.toNat < 8 * u.regs.hidSize.toNat →
    Access.pixRead (BitVec.ofNat 64 (32 + order.toNat)) ∉ u.ioErr →
      ∃ v, exec .pull u = .next v ∧ v.regs.chkData = data ∧ v.regs.chkLen.toNat = n.toNat ∧ v.regs.chkOrder = order ∧
        v.regs.chkValid = true

/-- 44_header_session.md rule R193, §8 property 7: hiding a chunk changes no byte of a header pixel, and writing the header
changes no byte of any other pixel, whether or not the command faults. -/
def Obligations.HeaderAndPayloadDoNotOverlap : Prop :=
  ∀ (s t : State) (i : Instr), s.memoriesOk = true → exec i s = .next t →
    ((i = .hidec ∨ ∃ n order data, i = .hide n order data) →
      ∀ (j : PixIndex) (ch : Nat), ch < 4 → j.toNat < 32 → t.pixByte j ch = s.pixByte j ch) ∧
    ((∃ size, i = .enchdr size ∨ i = .setuph size) →
      ∀ (j : PixIndex) (ch : Nat), ch < 4 → 32 ≤ j.toNat → t.pixByte j ch = s.pixByte j ch)

/-- 44_header_session.md rule R189: the session mode machine. -/
def Obligations.SessionModeMachine : Prop :=
  ∀ (s t : State) (i : Instr), exec i s = .next t → t.regs.mode ≠ s.regs.mode →
    (s.regs.mode = .none ∧ t.regs.mode = .hide ∧ ∃ size, i = .setuph size) ∨
    (s.regs.mode = .none ∧ t.regs.mode = .extract ∧ i = .setupx) ∨
    (t.regs.mode = .none ∧ ∃ n height width, i = .imgcfg n height width)

/-! ## System -/

/-- 45_system.md rule R210, 10_state.md rules R26 and R27: RDREG answers each register of the CSR map, zero-extended, with
`fault` telling whether the block is FAULTED, and changes nothing; STATUS is composed of its four fields. Any other number is
ILLEGAL, and in a FAULTED block answered with 0 (as the model applies it to a term, log 15). -/
def Obligations.RdregReadsEveryRegister : Prop :=
  ∀ s : State,
    let r := s.regs
    let status : Nat :=
      (if r.err = 0 then 0 else 1) + 2 * (match r.mode with | .none => 0 | .hide => 1 | .extract => 2) +
        8 * r.rdActive.toNat + 16 * r.chkValid.toNat
    (∀ pv ∈ ([(0x00, status), (0x01, r.err.toNat), (0x02, r.res.toNat), (0x03, r.chkData.toNat), (0x04, r.chkLen.toNat),
        (0x05, r.chkOrder.toNat), (0x08, r.imgW.toNat), (0x09, r.imgH.toNat), (0x0A, r.imgCh.toNat),
        (0x10, r.srcLen.toNat), (0x11, r.rdCsize.toNat), (0x12, r.rdCursor.toNat), (0x13, r.rdOrder.toNat),
        (0x18, r.remData.toNat), (0x19, r.remLen.toNat), (0x1A, r.dstCount.toNat), (0x20, r.hidSize.toNat),
        (0x21, r.hidCsize.toNat), (0x22, r.rdPos.toNat)] : List (BitVec 7 × Nat)),
      exec (.rdreg pv.1) s = .next { s with rsps := s.rsps ++ [⟨decide (r.err ≠ 0), BitVec.ofNat 64 pv.2⟩] }) ∧
    ∀ p, p ∉ csrNumbers →
      (r.err = 0 → exec (.rdreg p) s = .next (faultedWith s 0x80)) ∧ (r.err ≠ 0 → exec (.rdreg p) s = .next (ignored s))

/-! ## The whole machine -/

/-- 10_state.md rule R39: every step keeps the invariant of the registers. -/
def Obligations.EveryStepKeepsTheRegisterInvariant : Prop :=
  ∀ s t : State, s.regs.Inv → step s = .next t → t.regs.Inv

/-- 10_state.md rule R39, and the model's own form of the memories (logs 5 and 7): the invariants hold after reset. -/
def Obligations.InvariantsHoldAtReset : Prop := State.reset.regs.Inv ∧ State.reset.memoriesOk = true

/-- 20_memory.md rules R61 and R63 (the canonical form is the model's own, logs 5 and 7): every step keeps SRC and PIX in
canonical form and inside their address spaces. -/
def Obligations.EveryStepKeepsTheMemoriesCanonical : Prop :=
  ∀ s t : State, s.memoriesOk = true → step s = .next t → t.memoriesOk = true

/-- 20_memory.md rules R61, R62, R65 and R73: no command writes SRC or an alpha byte, DST only grows and only in the writer
commands, and only ENCBITS, ENCHDR, SETUPH, HIDE and HIDEC write PIX. -/
def Obligations.CommandsStoreOnlyWhereTheyMay : Prop :=
  ∀ (s t : State) (i : Instr), s.memoriesOk = true → exec i s = .next t →
    (∀ a, t.srcByte a = s.srcByte a) ∧
    (∀ j : PixIndex, t.pixByte j 3 = s.pixByte j 3) ∧
    s.dst <+: t.dst ∧
    (t.dst ≠ s.dst → i = .writec ∨ i = .wrclose ∨ ∃ n data, i = .write n data) ∧
    ((∃ (j : PixIndex) (ch : Nat), ch < 4 ∧ t.pixByte j ch ≠ s.pixByte j ch) →
      i = .hidec ∨ (∃ n y x bits, i = .encbits n y x bits) ∨ (∃ n order data, i = .hide n order data) ∨
        ∃ size, i = .enchdr size ∨ i = .setuph size) ∧
    t.ioErr = s.ioErr ∧ t.inputs = s.inputs

/-- 10_state.md rules R20, R26 and R27: each register is written only by the commands its row names. -/
def Obligations.RegistersAreWrittenOnlyByTheirCommands : Prop :=
  ∀ (s t : State) (i : Instr), exec i s = .next t →
    (t.regs.res ≠ s.regs.res → writesRes i = true) ∧
    ((t.regs.chkData ≠ s.regs.chkData ∨ t.regs.chkLen ≠ s.regs.chkLen ∨ t.regs.chkOrder ≠ s.regs.chkOrder) →
      i = .rdchunk ∨ i = .pull) ∧
    (t.regs.chkValid ≠ s.regs.chkValid →
      i = .rdchunk ∨ i = .pull ∨ i = .writec ∨ i = .hidec ∨ ∃ n srclen, i = .rdinit n srclen) ∧
    ((t.regs.imgW ≠ s.regs.imgW ∨ t.regs.imgH ≠ s.regs.imgH ∨ t.regs.imgCh ≠ s.regs.imgCh) →
      ∃ n height width, i = .imgcfg n height width) ∧
    ((t.regs.srcLen ≠ s.regs.srcLen ∨ t.regs.rdCsize ≠ s.regs.rdCsize ∨ t.regs.rdActive ≠ s.regs.rdActive) →
      ∃ n srclen, i = .rdinit n srclen) ∧
    ((t.regs.rdCursor ≠ s.regs.rdCursor ∨ t.regs.rdOrder ≠ s.regs.rdOrder) →
      i = .rdchunk ∨ ∃ n srclen, i = .rdinit n srclen) ∧
    ((t.regs.remData ≠ s.regs.remData ∨ t.regs.remLen ≠ s.regs.remLen ∨ t.regs.dstCount ≠ s.regs.dstCount) →
      i = .writec ∨ i = .wrclose ∨ ∃ n data, i = .write n data) ∧
    ((t.regs.hidSize ≠ s.regs.hidSize ∨ t.regs.hidCsize ≠ s.regs.hidCsize) →
      i = .setupx ∨ ∃ n height width, i = .imgcfg n height width) ∧
    (t.regs.rdPos ≠ s.regs.rdPos → i = .setupx ∨ i = .pull ∨ ∃ n height width, i = .imgcfg n height width) ∧
    (t.regs.mode ≠ s.regs.mode → i = .setupx ∨ (∃ size, i = .setuph size) ∨ ∃ n height width, i = .imgcfg n height width)
end

