-- ==== Sys2Proof/Laws/State.lean ====
section
/-! SUPPORT. The small lemmas of the state's updates: one per field for each named operation that returns a state, and the
forms the operations take in a block that is not FAULTED, so that no later proof unfolds a record update. -/

namespace Sys2Proof.Machine

/-! ## respond -/

@[simp] theorem respond_regs (d : RegWord) (s : State) : (respond d s).regs = s.regs := rfl
@[simp] theorem respond_src (d : RegWord) (s : State) : (respond d s).src = s.src := rfl
@[simp] theorem respond_dst (d : RegWord) (s : State) : (respond d s).dst = s.dst := rfl
@[simp] theorem respond_pix (d : RegWord) (s : State) : (respond d s).pix = s.pix := rfl
@[simp] theorem respond_ioErr (d : RegWord) (s : State) : (respond d s).ioErr = s.ioErr := rfl
@[simp] theorem respond_inputs (d : RegWord) (s : State) : (respond d s).inputs = s.inputs := rfl
@[simp] theorem respond_rsps (d : RegWord) (s : State) : (respond d s).rsps = s.rsps ++ [⟨s.regs.faulted, d⟩] := rfl

/-! ## raise -/

@[simp] theorem raise_regs (cs : List Cause) (s : State) :
    (raise cs s).regs = { s.regs with err := s.regs.err ||| causeBits cs } := rfl
@[simp] theorem raise_src (cs : List Cause) (s : State) : (raise cs s).src = s.src := rfl
@[simp] theorem raise_dst (cs : List Cause) (s : State) : (raise cs s).dst = s.dst := rfl
@[simp] theorem raise_pix (cs : List Cause) (s : State) : (raise cs s).pix = s.pix := rfl
@[simp] theorem raise_ioErr (cs : List Cause) (s : State) : (raise cs s).ioErr = s.ioErr := rfl
@[simp] theorem raise_inputs (cs : List Cause) (s : State) : (raise cs s).inputs = s.inputs := rfl
theorem raise_rsps (cs : List Cause) (s : State) :
    (raise cs s).rsps = s.rsps ++ [⟨(s.regs.err ||| causeBits cs) != 0, 0⟩] := rfl

/-! ## answer -/

@[simp] theorem answer_regs (v : RegWord) (s : State) : (answer v s).regs = { s.regs with res := v } := rfl
@[simp] theorem answer_src (v : RegWord) (s : State) : (answer v s).src = s.src := rfl
@[simp] theorem answer_dst (v : RegWord) (s : State) : (answer v s).dst = s.dst := rfl
@[simp] theorem answer_pix (v : RegWord) (s : State) : (answer v s).pix = s.pix := rfl
@[simp] theorem answer_ioErr (v : RegWord) (s : State) : (answer v s).ioErr = s.ioErr := rfl
@[simp] theorem answer_inputs (v : RegWord) (s : State) : (answer v s).inputs = s.inputs := rfl
theorem answer_rsps (v : RegWord) (s : State) : (answer v s).rsps = s.rsps ++ [⟨s.regs.faulted, v⟩] := rfl

/-! ## resetRegisters -/

@[simp] theorem resetRegisters_regs (s : State) : (resetRegisters s).regs = Regs.reset := rfl
@[simp] theorem resetRegisters_src (s : State) : (resetRegisters s).src = s.src := rfl
@[simp] theorem resetRegisters_dst (s : State) : (resetRegisters s).dst = s.dst := rfl
@[simp] theorem resetRegisters_pix (s : State) : (resetRegisters s).pix = s.pix := rfl
@[simp] theorem resetRegisters_ioErr (s : State) : (resetRegisters s).ioErr = s.ioErr := rfl
@[simp] theorem resetRegisters_inputs (s : State) : (resetRegisters s).inputs = s.inputs := rfl
@[simp] theorem resetRegisters_rsps (s : State) : (resetRegisters s).rsps = s.rsps := rfl

/-! ## The forms statements use -/

@[simp] theorem completed_regs (s : State) (r : Regs) (d : RegWord) : (completed s r d).regs = r := rfl
@[simp] theorem completed_src (s : State) (r : Regs) (d : RegWord) : (completed s r d).src = s.src := rfl
@[simp] theorem completed_dst (s : State) (r : Regs) (d : RegWord) : (completed s r d).dst = s.dst := rfl
@[simp] theorem completed_pix (s : State) (r : Regs) (d : RegWord) : (completed s r d).pix = s.pix := rfl
@[simp] theorem completed_ioErr (s : State) (r : Regs) (d : RegWord) : (completed s r d).ioErr = s.ioErr := rfl
@[simp] theorem completed_inputs (s : State) (r : Regs) (d : RegWord) : (completed s r d).inputs = s.inputs := rfl
@[simp] theorem faultedWith_regs (s : State) (e : BitVec 8) : (faultedWith s e).regs = { s.regs with err := e } := rfl
@[simp] theorem faultedWith_src (s : State) (e : BitVec 8) : (faultedWith s e).src = s.src := rfl
@[simp] theorem faultedWith_dst (s : State) (e : BitVec 8) : (faultedWith s e).dst = s.dst := rfl
@[simp] theorem faultedWith_pix (s : State) (e : BitVec 8) : (faultedWith s e).pix = s.pix := rfl

theorem faulted_eq_false {r : Regs} (h : r.err = 0) : r.faulted = false := by simp [Regs.faulted, h]

theorem faulted_eq_true {r : Regs} (h : r.err ≠ 0) : r.faulted = true := by
  simpa [Regs.faulted] using h

/-- A block that is not FAULTED runs the command. -/
theorem unlessFaulted_of_clear {s : State} (h : s.regs.err = 0) (after : State) : unlessFaulted s after = .next after := by
  simp [unlessFaulted, faulted_eq_false h]

/-- A FAULTED block ignores the command. -/
theorem unlessFaulted_of_faulted {s : State} (h : s.regs.err ≠ 0) (after : State) :
    unlessFaulted s after = .next (ignored s) := by
  simp [unlessFaulted, respond, ignored, faulted_eq_true h]

/-- Everything `unlessFaulted` can do. -/
theorem unlessFaulted_cases {s after t : State} (h : unlessFaulted s after = .next t) :
    (s.regs.err = 0 ∧ t = after) ∨ (s.regs.err ≠ 0 ∧ t = ignored s) := by
  by_cases he : s.regs.err = 0
  · rw [unlessFaulted_of_clear he] at h
    exact .inl ⟨he, by cases h; rfl⟩
  · rw [unlessFaulted_of_faulted he] at h
    exact .inr ⟨he, by cases h; rfl⟩

/-- In a block that is not FAULTED, raising sets exactly the causes' bits. -/
theorem raise_of_clear {s : State} (h : s.regs.err = 0) (cs : List Cause) (hc : causeBits cs ≠ 0) :
    raise cs s = faultedWith s (causeBits cs) := by
  simpa [raise, respond, faultedWith, Regs.faulted, h] using hc

theorem respond_of_clear {s : State} (h : s.regs.err = 0) (d : RegWord) : respond d s = completed s s.regs d := by
  simp [respond, completed, faulted_eq_false h]

theorem answer_of_clear {s : State} (h : s.regs.err = 0) (v : RegWord) : answer v s = completedWith s v := by
  simp [answer, respond, completedWith, completed, Regs.faulted, h]

@[simp] theorem causeBits_one (c : Cause) : causeBits [c] = c.bit := by simp [causeBits]

@[simp] theorem Attempt.settle_ok (s : State) (f : State → State) : (Attempt.ok s).settle f = f s := rfl
@[simp] theorem Attempt.settle_fails (cs : List Cause) (s : State) (f : State → State) :
    (Attempt.fails cs s).settle f = raise cs s := rfl
@[simp] theorem Attempt.andThen_ok (s : State) (f : State → Attempt) : (Attempt.ok s).andThen f = f s := rfl
@[simp] theorem Attempt.andThen_fails (cs : List Cause) (s : State) (f : State → Attempt) :
    (Attempt.fails cs s).andThen f = .fails cs s := rfl

end Sys2Proof.Machine
end

