-- ==== Sys2Proof/Laws/Memory.lean ====
section
/-! SUPPORT. The laws of the byte-keyed memory: read after write, and every operation keeps the canonical form and the
address space. -/

namespace Sys2Proof.Machine

@[simp] theorem Memory.allAbove_nil (a : Nat) : Memory.allAbove a [] = true := rfl

theorem Memory.allAbove_cons (a k : Nat) (b : Byte) (m : Memory) :
    Memory.allAbove a ((k, b) :: m) = true ↔ a < k ∧ Memory.allAbove a m = true := by
  simp [Memory.allAbove]

theorem Memory.wf_cons (k : Nat) (b : Byte) (m : Memory) :
    Memory.wf ((k, b) :: m) = true ↔ b ≠ Config.unlistedByte ∧ Memory.allAbove k m = true ∧ Memory.wf m = true := by
  simp [Memory.wf, and_assoc]

theorem Memory.allAbove_mono {a a' : Nat} (h : a' ≤ a) {m : Memory} (hm : Memory.allAbove a m = true) :
    Memory.allAbove a' m = true := by
  simp only [Memory.allAbove, List.all_eq_true, decide_eq_true_eq] at *
  exact fun c hc => by have := hm c hc; omega

/-- A key below every listed key is unlisted. -/
theorem Memory.read_of_allAbove {a a' : Nat} (h : a' ≤ a) {m : Memory} (hm : Memory.allAbove a m = true) :
    Memory.read m a' = Config.unlistedByte := by
  induction m with
  | nil => rfl
  | cons c m ih =>
    obtain ⟨k, b⟩ := c
    rw [Memory.allAbove_cons] at hm
    simp only [Memory.read]
    rw [if_neg (by omega), ih hm.2]

theorem Memory.allAbove_write {l a : Nat} (h : l < a) {m : Memory} (hm : Memory.allAbove l m = true) (b : Byte) :
    Memory.allAbove l (m.write a b) = true := by
  induction m with
  | nil => simp only [Memory.write]; split <;> simp [Memory.allAbove_cons, h]
  | cons c m ih =>
    obtain ⟨k, d⟩ := c
    rw [Memory.allAbove_cons] at hm
    simp only [Memory.write]
    split_ifs <;> simp [Memory.allAbove_cons, h, hm, ih hm.2]

/-- A write keeps the canonical form. -/
theorem Memory.wf_write {m : Memory} (hm : m.wf = true) (a : Nat) (b : Byte) : (m.write a b).wf = true := by
  induction m with
  | nil => simp only [Memory.write]; split_ifs with h <;> simp [Memory.wf, h]
  | cons c m ih =>
    obtain ⟨k, d⟩ := c
    have hm' := hm
    rw [Memory.wf_cons] at hm
    obtain ⟨hd, hk, hw⟩ := hm
    simp only [Memory.write]
    split_ifs with h1 h2 h3 h4
    · exact hm'
    · rw [Memory.wf_cons]
      exact ⟨h2, (Memory.allAbove_cons ..).2 ⟨h1, Memory.allAbove_mono (by omega) hk⟩, hm'⟩
    · exact hw
    · rw [Memory.wf_cons]
      exact ⟨h4, by subst h3; exact hk, hw⟩
    · rw [Memory.wf_cons]
      exact ⟨hd, Memory.allAbove_write (by omega) hk b, ih hw⟩

theorem Memory.within_cons (size k : Nat) (b : Byte) (m : Memory) :
    Memory.within size ((k, b) :: m) = true ↔ k < size ∧ Memory.within size m = true := by
  simp [Memory.within]

/-- A write inside the address space keeps the memory inside it. -/
theorem Memory.within_write {m : Memory} {size a : Nat} (hm : m.within size = true) (ha : a < size) (b : Byte) :
    (m.write a b).within size = true := by
  induction m with
  | nil => simp only [Memory.write]; split_ifs <;> simp [Memory.within, ha]
  | cons c m ih =>
    obtain ⟨k, d⟩ := c
    have hm' := hm
    rw [Memory.within_cons] at hm
    simp only [Memory.write]
    split_ifs
    · exact hm'
    · exact (Memory.within_cons ..).2 ⟨ha, hm'⟩
    · exact hm.2
    · exact (Memory.within_cons ..).2 ⟨ha, hm.2⟩
    · exact (Memory.within_cons ..).2 ⟨hm.1, ih hm.2⟩

/-- Read after write. -/
theorem Memory.read_write {m : Memory} (hm : m.wf = true) (a a' : Nat) (b : Byte) :
    (m.write a b).read a' = if a' = a then b else m.read a' := by
  induction m with
  | nil =>
    simp only [Memory.write]
    split_ifs with h1 h2 h2 <;> simp_all [Memory.read]
  | cons c m ih =>
    obtain ⟨k, d⟩ := c
    rw [Memory.wf_cons] at hm
    obtain ⟨hd, hk, hw⟩ := hm
    simp only [Memory.write]
    by_cases h1 : a < k
    · rw [if_pos h1]
      by_cases h2 : b = Config.unlistedByte
      · rw [if_pos h2]
        by_cases h3 : a' = a
        · subst h3
          simp only [Memory.read, if_true]
          rw [if_neg (by omega), Memory.read_of_allAbove (by omega) hk, h2]
        · simp [h3]
      · rw [if_neg h2]
        simp [Memory.read]
    · rw [if_neg h1]
      by_cases h2 : a = k
      · subst h2
        by_cases h3 : b = Config.unlistedByte
        · by_cases h4 : a' = a
          · subst h4
            simp [h3, Memory.read_of_allAbove (Nat.le_refl a') hk]
          · simp [h3, h4, Memory.read]
        · simp only [h3, if_true, if_false, Memory.read]
          split_ifs <;> rfl
      · rw [if_neg h2]
        simp only [Memory.read]
        rw [ih hw]
        split_ifs <;> simp_all

/-! ## Pixels -/

theorem pixKey_inj {i j : PixIndex} {ch ch' : Nat} (h : ch < 4) (h' : ch' < 4) (he : pixKey i ch = pixKey j ch') :
    i = j ∧ ch = ch' := by
  simp only [pixKey] at he
  have : i.toNat = j.toNat := by omega
  exact ⟨BitVec.eq_of_toNat_eq this, by omega⟩

theorem pixKey_lt (i : PixIndex) {ch : Nat} (h : ch < 4) : pixKey i ch < Config.pixBytes := by
  have := i.isLt
  simp only [pixKey, Config.pixBytes]
  omega

theorem Memory.wf_writeColour {m : Memory} (hm : m.wf = true) (i : PixIndex) (c : Byte × Byte × Byte) :
    (m.writeColour i c).wf = true := Memory.wf_write (Memory.wf_write (Memory.wf_write hm _ _) _ _) _ _

theorem Memory.within_writeColour {m : Memory} (hm : m.within Config.pixBytes = true) (i : PixIndex)
    (c : Byte × Byte × Byte) : (m.writeColour i c).within Config.pixBytes = true :=
  Memory.within_write (Memory.within_write (Memory.within_write hm (pixKey_lt i (by decide)) _) (pixKey_lt i (by decide)) _)
    (pixKey_lt i (by decide)) _

/-- A pixel write changes the three colour bytes of its pixel and no other byte. -/
theorem Memory.read_writeColour {m : Memory} (hm : m.wf = true) (i j : PixIndex) (c : Byte × Byte × Byte) {ch : Nat}
    (hch : ch < 4) :
    (m.writeColour i c).read (pixKey j ch) =
      if j = i ∧ ch ≠ 3 then (if ch = 0 then c.1 else if ch = 1 then c.2.1 else c.2.2) else m.read (pixKey j ch) := by
  unfold Memory.writeColour
  rw [Memory.read_write (Memory.wf_write (Memory.wf_write hm _ _) _ _), Memory.read_write (Memory.wf_write hm _ _),
    Memory.read_write hm]
  have key : ∀ ch', ch' < 4 → (pixKey j ch = pixKey i ch' ↔ j = i ∧ ch = ch') := fun ch' h' =>
    ⟨pixKey_inj hch h', fun h => by rw [h.1, h.2]⟩
  simp only [key 0 (by decide), key 1 (by decide), key 2 (by decide)]
  by_cases hj : j = i
  · subst hj
    obtain rfl | rfl | rfl | rfl : ch = 0 ∨ ch = 1 ∨ ch = 2 ∨ ch = 3 := by omega
    all_goals simp
  · simp [hj]

end Sys2Proof.Machine
end

