-- ==== Sys2Proof/Laws/Bits.lean ====
section
/-! SUPPORT. What the operand functions compute, bit by bit: masks, fields, pixel fields, densities and coordinates. -/

namespace Sys2Proof.Machine

theorem maskValue_testBit {W L : Nat} (h : L ≤ W) (inv : Bool) (i : Nat) :
    (maskValue W L inv).testBit i = (decide (i < W) && (decide (i < L) ^^ inv)) := by
  have hp : 2 ^ L ≤ 2 ^ W := Nat.pow_le_pow_right (by decide) h
  have h0 : 0 < 2 ^ L := Nat.two_pow_pos L
  cases inv with
  | false =>
    simp only [maskValue, Bool.false_eq_true, if_false, Nat.testBit_two_pow_sub_one, Bool.xor_false]
    by_cases hi : i < L
    · simp [hi, Nat.lt_of_lt_of_le hi h]
    · simp [hi]
  | true =>
    have he : 2 ^ W - 1 - (2 ^ L - 1) = 2 ^ W - ((2 ^ L - 1) + 1) := by omega
    simp only [maskValue, if_true, he]
    rw [Nat.testBit_two_pow_sub_succ (by omega), Nat.testBit_two_pow_sub_one]
    simp

theorem maskValue_lt {W L : Nat} (h : L ≤ W) (inv : Bool) : maskValue W L inv < 2 ^ W := by
  have hp : 2 ^ L ≤ 2 ^ W := Nat.pow_le_pow_right (by decide) h
  have h0 : 0 < 2 ^ L := Nat.two_pow_pos L
  cases inv <;> simp [maskValue] <;> omega

theorem getBitsValue_testBit {W src p n : Nat} (i : Nat) :
    (getBitsValue W src p n).testBit i = (decide (i < n) && src.testBit (W - p - n + i)) := by
  rw [getBitsValue, Nat.testBit_and, Nat.testBit_shiftRight, Nat.testBit_two_pow_sub_one, Bool.and_comm]

theorem leftJustifyValue_testBit (data n i : Nat) :
    (leftJustifyValue data n).testBit i = (decide (i < 24) && (decide (24 - n ≤ i) && data.testBit (i - (24 - n)))) := by
  rw [leftJustifyValue, Nat.testBit_mod_two_pow, Nat.testBit_shiftLeft]

/-- R166: `insert` replaces the low bits. -/
theorem insertLow_getLsbD {F : Field24} {bits : BitVec 32} {L : Nat} (hL : L ≤ 24) (hb : bits.toNat < 2 ^ L) {j : Nat}
    (hj : j < 24) : (insertLow F bits L).getLsbD j = if j < L then bits.getLsbD j else F.getLsbD j := by
  simp only [insertLow, BitVec.getLsbD_or, BitVec.getLsbD_and, BitVec.getLsbD_ofNat, BitVec.getLsbD_setWidth,
    maskValue_testBit hL, hj, decide_true, Bool.true_and, Bool.xor_true]
  by_cases h : j < L
  · simp [h]
  · have hz : bits.getLsbD j = false := by
      rw [← BitVec.testBit_toNat]
      exact Nat.testBit_lt_two_pow (Nat.lt_of_lt_of_le hb (Nat.pow_le_pow_right (by decide) (by omega)))
    simp [h, hz]

/-- R166: `extract` reads the low bits. -/
theorem extractLow_getLsbD {F : Field24} {L : Nat} (hL : L ≤ 24) (j : Nat) :
    (extractLow F L).getLsbD j = (decide (j < L) && F.getLsbD j) := by
  simp only [extractLow, BitVec.getLsbD_and, BitVec.getLsbD_ofNat, maskValue_testBit hL]
  by_cases h : j < L
  · have : j < 24 := by omega
    simp [h, this]
  · simp [h]

theorem bytesToU24_getLsbD (b0 b1 b2 : Byte) (j : Nat) :
    (bytesToU24 b0 b1 b2).getLsbD j =
      if j < 8 then b2.getLsbD j else if j < 16 then b1.getLsbD (j - 8) else b0.getLsbD (j - 16) := by
  simp only [bytesToU24, BitVec.getLsbD_append]
  split_ifs <;> first | rfl | (exfalso; omega)

theorem bytesToU24_toNat (b0 b1 b2 : Byte) :
    (bytesToU24 b0 b1 b2).toNat = b0.toNat * 65536 + b1.toNat * 256 + b2.toNat := by
  have h1 := b1.isLt
  have h2 := b2.isLt
  simp only [bytesToU24, BitVec.toNat_append]
  rw [← Nat.shiftLeft_add_eq_or_of_lt h2, ← Nat.shiftLeft_add_eq_or_of_lt h1]
  simp only [Nat.shiftLeft_eq]
  omega

/-- §8 property 3: composing the bytes of a number gives its low 24 bits back. -/
theorem bytesToU24_u24ToBytes (x : BitVec 32) :
    bytesToU24 (u24ToBytes x).1 (u24ToBytes x).2.1 (u24ToBytes x).2.2 = x.setWidth 24 := by
  apply BitVec.eq_of_getLsbD_eq
  intro j hj
  rw [bytesToU24_getLsbD]
  simp only [u24ToBytes, BitVec.getLsbD_extractLsb', BitVec.getLsbD_setWidth]
  split_ifs with h1 h2
  · simp [h1, hj]
  · have e : 8 + (j - 8) = j := by omega
    have e' : j - 8 < 8 := by omega
    simp [e, e', hj]
  · have e : 16 + (j - 16) = j := by omega
    have e' : j - 16 < 8 := by omega
    simp [e, e', hj]

theorem setWidth_24_32_24 (F : Field24) : (F.setWidth 32).setWidth 24 = F := by
  apply BitVec.eq_of_getLsbD_eq
  intro j hj
  simp [hj]

theorem bytesToU24_of_field (F : Field24) :
    bytesToU24 (u24ToBytes (F.setWidth 32)).1 (u24ToBytes (F.setWidth 32)).2.1 (u24ToBytes (F.setWidth 32)).2.2 = F := by
  rw [bytesToU24_u24ToBytes, setWidth_24_32_24]

/-! ## Coordinates and densities -/

/-- R169: the pixel of a chunk order is pixel `32 + order`. -/
theorem getCoordinates_index (order W : Nat) : (getCoordinates order W).2 * W + (getCoordinates order W).1 = 32 + order := by
  simp only [getCoordinates, Config.headerPixels]
  rw [Nat.mul_comm]
  exact Nat.div_add_mod _ _

theorem pixelIndex_getCoordinates (order W : Nat) :
    pixelIndex (getCoordinates order W).1 (getCoordinates order W).2 W = BitVec.ofNat 64 (32 + order) := by
  rw [pixelIndex, getCoordinates_index]

theorem pixelIndex_toNat {x y W H : Nat} (hW : W < 2 ^ 32) (hH : H < 2 ^ 32) (hx : x < W) (hy : y < H) :
    (pixelIndex x y W).toNat = y * W + x := by
  have h1 : y * W + x < H * W := by nlinarith
  have h2 : H * W < 2 ^ 64 := by nlinarith
  simp only [pixelIndex, BitVec.toNat_ofNat]
  exact Nat.mod_eq_of_lt (by omega)

theorem getCoordinates_outside {order W H : Nat} (hW : 0 < W) : H ≤ (getCoordinates order W).2 ↔ W * H ≤ 32 + order := by
  simp only [getCoordinates, Config.headerPixels]
  rw [Nat.le_div_iff_mul_le hW, Nat.mul_comm]

theorem exceedsCapacity_eq_false {size usable : Nat} :
    exceedsCapacity size usable = false ↔ 8 * size ≤ 24 * usable := by
  rw [exceedsCapacity, decide_eq_false_iff_not, Nat.not_lt]
  rfl

theorem exceedsCapacity_eq_true {size usable : Nat} :
    exceedsCapacity size usable = true ↔ 24 * usable < 8 * size := by
  rw [exceedsCapacity, decide_eq_true_iff]
  rfl

/-- R171: the least density that holds the payload; it needs no clamp. -/
theorem chunkSizeFor_isChunkSize {size usable : Nat} (h : exceedsCapacity size usable = false) :
    isChunkSize size usable (chunkSizeFor size usable) := by
  rw [exceedsCapacity_eq_false] at h
  refine ⟨fun h0 => by simp [chunkSizeFor, h0], fun hpos => ?_⟩
  have hu : 0 < usable := by omega
  have hne : size ≠ 0 := by omega
  simp only [chunkSizeFor, hne, if_false, ceilDiv]
  generalize hq : (8 * size + usable - 1) / usable = q
  have hdm := Nat.div_add_mod (8 * size + usable - 1) usable
  have hm := Nat.mod_lt (8 * size + usable - 1) hu
  rw [hq] at hdm
  have e : usable * q = q * usable := Nat.mul_comm ..
  have h1 : 8 * size ≤ q * usable := by omega
  have h2 : 1 ≤ q := by
    rcases Nat.eq_zero_or_pos q with h0 | h0
    · subst h0; omega
    · exact h0
  have h3 : (q - 1) * usable = q * usable - usable := by rw [Nat.sub_mul, Nat.one_mul]
  have h4 : q ≤ 24 := by
    by_contra hc
    have : 25 * usable ≤ q * usable := Nat.mul_le_mul_right _ (by omega)
    omega
  exact ⟨h2, h4, by omega, h1⟩

theorem chunkSizeFor_le {size usable : Nat} (h : exceedsCapacity size usable = false) : chunkSizeFor size usable ≤ 24 := by
  obtain ⟨h0, h1⟩ := chunkSizeFor_isChunkSize h
  rcases Nat.eq_zero_or_pos size with hz | hp
  · rw [h0 hz]; decide
  · exact (h1 hp).2.1

theorem chunkSizeFor_eq_zero {size usable : Nat} (h : exceedsCapacity size usable = false) :
    chunkSizeFor size usable = 0 ↔ size = 0 := by
  obtain ⟨h0, h1⟩ := chunkSizeFor_isChunkSize h
  refine ⟨fun hc => ?_, h0⟩
  rcases Nat.eq_zero_or_pos size with hz | hp
  · exact hz
  · have := (h1 hp).1; omega

theorem lt_ceilDiv {a b k : Nat} (hb : 0 < b) : k < ceilDiv a b ↔ k * b < a := by
  simp only [ceilDiv]
  rw [Nat.lt_iff_add_one_le, Nat.le_div_iff_mul_le hb, Nat.add_mul]
  omega

/-- R172: at the density of R171 the payload's chunks fit the usable pixels. -/
theorem ceilDiv_chunkSizeFor_le {size usable : Nat} (h : exceedsCapacity size usable = false) (hs : 0 < size) :
    ceilDiv (8 * size) (chunkSizeFor size usable) ≤ usable := by
  obtain ⟨-, h1⟩ := chunkSizeFor_isChunkSize h
  obtain ⟨hc, -, -, hle⟩ := h1 hs
  by_contra hlt
  have := (lt_ceilDiv (a := 8 * size) (by omega : 0 < chunkSizeFor size usable)).1 (by omega : usable < _)
  rw [Nat.mul_comm] at this
  omega

end Sys2Proof.Machine
end

