-- ==== Sys2Proof/Laws/Stream.lean ====
section
/-! SUPPORT. Numbers as bit strings, most significant bit first, and what the accumulator and the reader do to them
(20_memory.md rules R66 and R69, 42_chunk_writer.md rule R151). -/

namespace Sys2Proof.Machine

/-- The low `len` bits of a number, most significant first. -/
def natBits (v len : Nat) : List Bool := (List.range len).map fun j => v.testBit (len - 1 - j)

@[simp] theorem natBits_length (v len : Nat) : (natBits v len).length = len := by simp [natBits]

theorem natBits_congr {v w len : Nat} (h : ∀ i, i < len → v.testBit i = w.testBit i) : natBits v len = natBits w len := by
  simp only [natBits, List.map_inj_left, List.mem_range]
  exact fun j hj => h _ (by omega)

theorem natBits_getElem {v len j : Nat} (h : j < (natBits v len).length) :
    (natBits v len)[j] = v.testBit (len - 1 - j) := by simp [natBits]

/-- A number cut in two: the high bits come first. -/
theorem natBits_split (v m n : Nat) : natBits v (m + n) = natBits (v >>> n) m ++ natBits v n := by
  apply List.ext_getElem (by simp)
  intro j h1 h2
  rw [natBits_getElem, List.getElem_append]
  simp only [natBits_length] at h1 ⊢
  split_ifs with hj
  · rw [natBits_getElem, Nat.testBit_shiftRight]
    congr 1
    omega
  · rw [natBits_getElem]
    congr 1
    omega

theorem natBits_concat (a b m n : Nat) (hb : b < 2 ^ n) : natBits (a * 2 ^ n + b) (m + n) = natBits a m ++ natBits b n := by
  rw [natBits_split]
  congr 1
  · rw [Nat.shiftRight_eq_div_pow, Nat.add_comm, Nat.add_mul_div_right _ _ (Nat.two_pow_pos n), Nat.div_eq_of_lt hb,
      Nat.zero_add]
  · apply natBits_congr
    intro i hi
    rw [Nat.mul_comm, Nat.testBit_two_pow_mul_add _ hb, if_pos hi]

theorem natBits_mod (v n : Nat) : natBits (v % 2 ^ n) n = natBits v n :=
  natBits_congr fun i hi => by simp [Nat.testBit_mod_two_pow, hi]

theorem byteBits_eq (b : Byte) : byteBits b = natBits b.toNat 8 := by
  simp only [byteBits, natBits, List.map_inj_left, List.mem_range]
  exact fun j _ => rfl

@[simp] theorem byteBits_length (b : Byte) : (byteBits b).length = 8 := by simp [byteBits]

theorem chunkBits_eq (data : BitVec 32) (n : Nat) : chunkBits data n = natBits data.toNat n := by
  simp only [chunkBits, natBits, List.map_inj_left, List.mem_range]
  exact fun j _ => rfl

theorem take_natBits (v len k : Nat) (h : k ≤ len) : (natBits v len).take k = natBits (v >>> (len - k)) k := by
  have := natBits_split v k (len - k)
  rw [Nat.add_sub_cancel' h] at this
  rw [this, List.take_left' (by simp)]

theorem remainderBits_eq (r : Regs) :
    remainderBits r = natBits (r.remData.toNat >>> (8 - r.remLen.toNat)) r.remLen.toNat := by
  have := r.remLen.isLt
  rw [remainderBits, byteBits_eq, take_natBits _ _ _ (by omega)]

@[simp] theorem remainderBits_length (r : Regs) : (remainderBits r).length = r.remLen.toNat := by
  rw [remainderBits_eq, natBits_length]

/-- Bytes cut from a number from its high end are its bits. -/
theorem flatMap_byteBits_cut (v nb r : Nat) :
    ((List.range nb).map fun j => BitVec.ofNat 8 (v >>> (8 * nb + r - 8 * (j + 1)))).flatMap byteBits =
      natBits (v >>> r) (8 * nb) := by
  induction nb generalizing v r with
  | zero => simp [natBits]
  | succ nb ih =>
    rw [List.range_succ, List.map_append, List.flatMap_append]
    have h1 : (List.range nb).map (fun j => BitVec.ofNat 8 (v >>> (8 * (nb + 1) + r - 8 * (j + 1)))) =
        (List.range nb).map (fun j => BitVec.ofNat 8 (v >>> (8 * nb + (8 + r) - 8 * (j + 1)))) := by
      apply List.map_congr_left
      intro j _
      congr 2
      omega
    rw [h1, ih v (8 + r)]
    have e : 8 * (nb + 1) = 8 * nb + 8 := by omega
    rw [e, natBits_split (v >>> r) (8 * nb) 8]
    congr 1
    · rw [← Nat.shiftRight_add, Nat.add_comm r 8]
    · have e2 : 8 * nb + 8 + r - 8 * (nb + 1) = r := by omega
      simp only [List.map_cons, List.map_nil, List.flatMap_cons, List.flatMap_nil, List.append_nil, e2]
      rw [byteBits_eq, BitVec.toNat_ofNat, natBits_mod]

/-- R151: what `accumulate` emits and keeps are the Remainder's bits followed by the chunk's. -/
theorem accumulate_bits (r : Regs) (data : BitVec 32) (n : Nat) :
    let a := accumulate r.remData r.remLen data n
    a.out.flatMap byteBits ++ natBits (a.remData.toNat >>> (8 - a.remLen.toNat)) a.remLen.toNat =
      remainderBits r ++ chunkBits data n := by
  intro a
  have hlt : (r.remLen.toNat + n) % 8 < 8 := Nat.mod_lt _ (by decide)
  have hT : 8 * ((r.remLen.toNat + n) / 8) + (r.remLen.toNat + n) % 8 = r.remLen.toNat + n := Nat.div_add_mod _ _
  rw [remainderBits_eq, chunkBits_eq, ← natBits_mod data.toNat n, ← natBits_concat _ _ _ _ (Nat.mod_lt _ (Nat.two_pow_pos n))]
  generalize hacc : (r.remData.toNat >>> (8 - r.remLen.toNat)) * 2 ^ n + data.toNat % 2 ^ n = acc
  generalize hR : (r.remLen.toNat + n) % 8 = R at *
  generalize hN : (r.remLen.toNat + n) / 8 = N at *
  have hlen : a.remLen.toNat = R := by
    simp only [a, accumulate, BitVec.toNat_ofNat, hR]
    exact Nat.mod_eq_of_lt (by omega)
  have hout : a.out = (List.range N).map fun j => BitVec.ofNat 8 (acc >>> (8 * N + R - 8 * (j + 1))) := by
    simp only [a, accumulate, hacc, hN, hT]
  have hdata : a.remData.toNat >>> (8 - R) = acc % 2 ^ R := by
    simp only [a, accumulate, hacc, hR, BitVec.toNat_ofNat]
    have hb : acc % 2 ^ R < 2 ^ R := Nat.mod_lt _ (Nat.two_pow_pos R)
    have hs : (acc % 2 ^ R) <<< (8 - R) < 2 ^ 8 := by
      have e : 2 ^ 8 = 2 ^ R * 2 ^ (8 - R) := by rw [← Nat.pow_add]; congr 1; omega
      rw [Nat.shiftLeft_eq, e]
      exact Nat.mul_lt_mul_of_pos_right hb (Nat.two_pow_pos _)
    rw [Nat.mod_eq_of_lt hs, Nat.shiftLeft_shiftRight]
  rw [hlen, hdata, natBits_mod, hout, flatMap_byteBits_cut, ← natBits_split, hT]

theorem accumulate_out_length (rd : BitVec 8) (rl : BitVec 3) (data : BitVec 32) (n : Nat) :
    (accumulate rd rl data n).out.length = (rl.toNat + n) / 8 := by simp [accumulate]

theorem accumulate_remLen (rd : BitVec 8) (rl : BitVec 3) (data : BitVec 32) (n : Nat) :
    (accumulate rd rl data n).remLen = BitVec.ofNat 3 ((rl.toNat + n) % 8) := rfl

/-- R30: the new Remainder's unused low bits are zero. -/
theorem accumulate_remData_mod (rd : BitVec 8) (rl : BitVec 3) (data : BitVec 32) (n : Nat) :
    (accumulate rd rl data n).remData.toNat % 2 ^ (8 - (accumulate rd rl data n).remLen.toNat) = 0 := by
  have hlt : (rl.toNat + n) % 8 < 8 := Nat.mod_lt _ (by decide)
  have hl : (accumulate rd rl data n).remLen.toNat = (rl.toNat + n) % 8 := by
    simp only [accumulate, BitVec.toNat_ofNat]
    exact Nat.mod_eq_of_lt (by omega)
  rw [hl]
  simp only [accumulate, BitVec.toNat_ofNat, Nat.shiftLeft_eq]
  generalize (rl.toNat + n) % 8 = R at *
  have hd : 2 ^ (8 - R) ∣ 2 ^ 8 := Nat.pow_dvd_pow _ (by omega)
  rw [Nat.mod_mod_of_dvd _ hd]
  exact Nat.mul_mod_left _ _

/-! ## The reader -/

theorem gatherBits_lt (bytes : List Byte) (skip length : Nat) : gatherBits bytes skip length < 2 ^ length := by
  induction length with
  | zero => simp [gatherBits]
  | succ n ih =>
    simp only [gatherBits, Nat.pow_succ]
    have := Bool.toNat_lt (streamBit bytes (skip + n))
    omega

/-- R142: the gathered number is the stream's bits, the first most significant. -/
theorem natBits_gatherBits (bytes : List Byte) (skip length : Nat) :
    natBits (gatherBits bytes skip length) length = (List.range length).map fun i => streamBit bytes (skip + i) := by
  induction length with
  | zero => rfl
  | succ n ih =>
    have hb : (streamBit bytes (skip + n)).toNat < 2 ^ 1 := by simpa using Bool.toNat_lt _
    have e : gatherBits bytes skip (n + 1) = gatherBits bytes skip n * 2 ^ 1 + (streamBit bytes (skip + n)).toNat := by
      simp only [gatherBits]; omega
    rw [e, natBits_concat _ _ _ _ hb, ih, List.range_succ, List.map_append]
    congr 1
    rw [List.map_singleton]
    cases streamBit bytes (skip + n) <;> rfl

end Sys2Proof.Machine
end

