-- ==== Sys2Proof/Laws/Accesses.lean ====
section
/-! SUPPORT. Everything the shared access operations can do, said once for each: the emits, the pixel read-modify-write, the
header, the SRC reads, and the writer's and the session's bodies built on them. -/

namespace Sys2Proof.Machine

/-- Only PIX differs. -/
def samePix (s t : State) : Prop := t = { s with pix := t.pix }

/-- Only DST differs. -/
def sameDst (s t : State) : Prop := t = { s with dst := t.dst }

theorem samePix.refl (s : State) : samePix s s := rfl

theorem samePix.trans {s t u : State} (h : samePix s t) (h' : samePix t u) : samePix s u := by
  unfold samePix at *
  rw [h'] at *
  rw [h]

theorem samePix.regs {s t : State} (h : samePix s t) : t.regs = s.regs := by rw [h]
theorem samePix.ioErr {s t : State} (h : samePix s t) : t.ioErr = s.ioErr := by rw [h]

theorem failsAt_iff (s : State) (a : Access) : s.failsAt a = true ↔ a ∈ s.ioErr := by
  simp [State.failsAt]

theorem failsAt_eq_false (s : State) (a : Access) : s.failsAt a = false ↔ a ∉ s.ioErr := by
  rw [← failsAt_iff]; simp

/-! ## Emits -/

/-- All emits succeed. -/
theorem emitAll_clean {s : State} {out : List Byte} (h : emitsClean s out.length) :
    emitAll out s = .ok { s with dst := s.dst ++ out } := by
  induction out generalizing s with
  | nil => simp [emitAll]
  | cons b bs ih =>
    have h0 : s.failsAt (.dstEmit s.dst.length) = false := (failsAt_eq_false ..).2 (by simpa using h 0 (by simp))
    simp only [emitAll, dstEmit, h0, Bool.false_eq_true, if_false, Attempt.andThen_ok]
    rw [ih]
    · simp
    · intro j hj
      have := h (j + 1) (by simpa using hj)
      simpa [Nat.add_assoc, Nat.add_comm 1 j] using this

/-- The emit after `j` good ones answers "error": those bytes stand. -/
theorem emitAll_fails {s : State} {out : List Byte} {j : Nat} (hj : j < out.length) (h : emitsClean s j)
    (hf : Access.dstEmit (s.dst.length + j) ∈ s.ioErr) :
    emitAll out s = .fails [.io] { s with dst := s.dst ++ out.take j } := by
  induction out generalizing s j with
  | nil => simp at hj
  | cons b bs ih =>
    cases j with
    | zero =>
      have h0 : s.failsAt (.dstEmit s.dst.length) = true := (failsAt_iff ..).2 (by simpa using hf)
      simp [emitAll, dstEmit, h0]
    | succ j =>
      have h0 : s.failsAt (.dstEmit s.dst.length) = false := (failsAt_eq_false ..).2 (by simpa using h 0 (by omega))
      simp only [emitAll, dstEmit, h0, Bool.false_eq_true, if_false, Attempt.andThen_ok]
      rw [ih (j := j)]
      · simp
      · simpa using hj
      · intro i hi
        have := h (i + 1) (by omega)
        simpa [Nat.add_assoc, Nat.add_comm 1 i] using this
      · simpa [Nat.add_assoc, Nat.add_comm 1 j] using hf

/-- Either all emits succeed, or one answers "error" after some good ones. -/
theorem emits_clean_or_fail (s : State) (count : Nat) :
    emitsClean s count ∨ ∃ j, j < count ∧ emitsClean s j ∧ Access.dstEmit (s.dst.length + j) ∈ s.ioErr := by
  induction count with
  | zero => exact .inl fun j hj => by omega
  | succ n ih =>
    rcases ih with h | ⟨j, hj, h1, h2⟩
    · by_cases hn : Access.dstEmit (s.dst.length + n) ∈ s.ioErr
      · exact .inr ⟨n, by omega, h, hn⟩
      · refine .inl fun j hj => ?_
        rcases Nat.lt_succ_iff_lt_or_eq.1 hj with h' | rfl
        · exact h j h'
        · exact hn
    · exact .inr ⟨j, by omega, h1, h2⟩

/-- Everything `emitAll` can do. -/
theorem emitAll_cases (out : List Byte) (s : State) :
    (emitsClean s out.length ∧ emitAll out s = .ok { s with dst := s.dst ++ out }) ∨
    ∃ j, j < out.length ∧ emitAll out s = .fails [.io] { s with dst := s.dst ++ out.take j } := by
  rcases emits_clean_or_fail s out.length with h | ⟨j, hj, h1, h2⟩
  · exact .inl ⟨h, emitAll_clean h⟩
  · exact .inr ⟨j, hj, emitAll_fails hj h1 h2⟩

/-- Everything `writeChunk` can do (42_chunk_writer.md rules R151 to R153). -/
theorem writeChunk_clean {s : State} {data : BitVec 32} {n : Nat} (h : emitsClean s ((s.regs.remLen.toNat + n) / 8)) :
    let a := accumulate s.regs.remData s.regs.remLen data n
    writeChunk data n s = .ok { s with
      dst := s.dst ++ a.out
      regs := { s.regs with
        dstCount := s.regs.dstCount + BitVec.ofNat 64 ((s.regs.remLen.toNat + n) / 8)
        remData := a.remData
        remLen := a.remLen } } := by
  intro a
  have h' : emitsClean s a.out.length := by rw [accumulate_out_length]; exact h
  simp only [writeChunk]
  rw [emitAll_clean h', Attempt.andThen_ok, accumulate_out_length]

theorem writeChunk_fails {s : State} {data : BitVec 32} {n j : Nat} (hj : j < (s.regs.remLen.toNat + n) / 8)
    (h : emitsClean s j) (hf : Access.dstEmit (s.dst.length + j) ∈ s.ioErr) :
    writeChunk data n s = .fails [.io]
      { s with dst := s.dst ++ (accumulate s.regs.remData s.regs.remLen data n).out.take j } := by
  simp only [writeChunk]
  rw [emitAll_fails (by rw [accumulate_out_length]; exact hj) h hf, Attempt.andThen_fails]

/-! ## Pixels -/

theorem pixByte_writeColour {s : State} (hm : s.pix.wf = true) (i j : PixIndex) (c : Byte × Byte × Byte) {ch : Nat}
    (hch : ch < 4) :
    ({ s with pix := s.pix.writeColour i c } : State).pixByte j ch =
      if j = i ∧ ch ≠ 3 then (if ch = 0 then c.1 else if ch = 1 then c.2.1 else c.2.2) else s.pixByte j ch :=
  Memory.read_writeColour hm i j c hch

/-- Everything `modifyPixel` can do when neither access answers "error": the pixel's field becomes `f` of it and no other
byte changes, alpha included. -/
theorem modifyPixel_clean {s : State} {i : PixIndex} (f : Field24 → Field24) (hm : s.pix.wf = true) (h : pixelClean s i) :
    ∃ t, modifyPixel i f s = .ok t ∧ samePix s t ∧ t.pix.wf = true ∧
      (s.pix.within Config.pixBytes = true → t.pix.within Config.pixBytes = true) ∧
      t.pixField i = f (s.pixField i) ∧ otherBytesKept s t (fun j => j = i) := by
  have h1 : s.failsAt (.pixRead i) = false := (failsAt_eq_false ..).2 h.1
  have h2 : s.failsAt (.pixWrite i) = false := (failsAt_eq_false ..).2 h.2
  refine ⟨{ s with pix := s.pix.writeColour i (u24ToBytes ((f (s.pixField i)).setWidth 32)) }, ?_, rfl,
    Memory.wf_writeColour hm i _, fun hw => Memory.within_writeColour hw i _, ?_, ?_⟩
  · simp [modifyPixel, pixRead, pixWrite, h1, h2, State.pixField]
  · unfold State.pixField
    rw [pixByte_writeColour hm _ _ _ (by decide), pixByte_writeColour hm _ _ _ (by decide),
      pixByte_writeColour hm _ _ _ (by decide)]
    simp only [true_and, ne_eq]
    simp only [show (0 : Nat) ≠ 3 by decide, show (1 : Nat) ≠ 3 by decide, show (2 : Nat) ≠ 3 by decide,
      not_false_eq_true, if_true, if_false, show ¬ (1 : Nat) = 0 by decide, show ¬ (2 : Nat) = 0 by decide,
      show ¬ (2 : Nat) = 1 by decide]
    exact bytesToU24_of_field _
  · intro j ch hch hj
    rw [pixByte_writeColour hm _ _ _ hch, if_neg]
    rintro ⟨rfl, h3⟩
    rcases hj with hj | hj
    · exact hj rfl
    · exact h3 hj

/-- When an access to the pixel answers "error", nothing is stored. -/
theorem modifyPixel_fails {s : State} {i : PixIndex} (f : Field24 → Field24) (h : ¬ pixelClean s i) :
    modifyPixel i f s = .fails [.io] s := by
  by_cases h1 : Access.pixRead i ∈ s.ioErr
  · simp [modifyPixel, pixRead, (failsAt_iff ..).2 h1]
  · have h2 : Access.pixWrite i ∈ s.ioErr := by
      by_contra hc
      exact h ⟨h1, hc⟩
    simp [modifyPixel, pixRead, pixWrite, (failsAt_eq_false ..).2 h1, (failsAt_iff ..).2 h2]

theorem readField_clean {s : State} {i : PixIndex} (h : Access.pixRead i ∉ s.ioErr) : readField i s = some (s.pixField i) := by
  simp [readField, pixRead, (failsAt_eq_false ..).2 h, State.pixField]

theorem readField_fails {s : State} {i : PixIndex} (h : Access.pixRead i ∈ s.ioErr) : readField i s = none := by
  simp [readField, pixRead, (failsAt_iff ..).2 h]

theorem otherBytesKept.mono {s t : State} {p q : PixIndex → Prop} (h : otherBytesKept s t p) (hpq : ∀ i, p i → q i) :
    otherBytesKept s t q := fun i ch hch hi =>
  h i ch hch (hi.imp (fun hn hp => hn (hpq i hp)) id)

theorem otherBytesKept.trans {s t u : State} {p : PixIndex → Prop} (h : otherBytesKept s t p) (h' : otherBytesKept t u p) :
    otherBytesKept s u p := fun i ch hch hi => (h' i ch hch hi).trans (h i ch hch hi)

theorem otherBytesKept.refl (s : State) (p : PixIndex → Prop) : otherBytesKept s s p := fun _ _ _ _ => rfl

theorem otherBytesKept.field {s t : State} {p : PixIndex → Prop} (h : otherBytesKept s t p) {i : PixIndex} (hi : ¬ p i) :
    t.pixField i = s.pixField i := by
  unfold State.pixField
  rw [h i 0 (by decide) (.inl hi), h i 1 (by decide) (.inl hi), h i 2 (by decide) (.inl hi)]

/-! ## The header -/

theorem headerPixel_toNat {i : Nat} (h : i < 32) : (headerPixel i).toNat = i := by
  simp only [headerPixel, BitVec.toNat_ofNat]
  exact Nat.mod_eq_of_lt (by omega)

theorem headerBit_lt (size : BitVec 32) (i : Nat) : (headerBit size i).toNat < 2 ^ 1 := by
  simp only [headerBit, BitVec.toNat_and]
  exact Nat.lt_of_le_of_lt Nat.and_le_right (by decide)

theorem headerBit_getLsbD_zero (size : BitVec 32) (i : Nat) : (headerBit size i).getLsbD 0 = size.getLsbD (31 - i) := by
  simp [headerBit]

theorem insert_headerBit (F : Field24) (size : BitVec 32) (i : Nat) {j : Nat} (hj : j < 24) :
    (insertLow F (headerBit size i) 1).getLsbD j = if j = 0 then size.getLsbD (31 - i) else F.getLsbD j := by
  rw [insertLow_getLsbD (by decide) (headerBit_lt size i) hj]
  by_cases h : j = 0
  · subst h; rw [if_pos (by decide), if_pos rfl, headerBit_getLsbD_zero]
  · rw [if_neg h, if_neg (by omega)]

theorem pixelClean_of_samePix {s t : State} (h : samePix s t) {i : PixIndex} : pixelClean t i ↔ pixelClean s i := by
  unfold pixelClean; rw [h.ioErr]

/-- Everything `encodeHeaderAt` can do over the header pixels `k, k+1, …, k+n-1`. -/
theorem encodeHeaderAt_cases (v : BitVec 32) (n k : Nat) (hk : k + n ≤ 32) {s : State} (hm : s.pix.wf = true) :
    ∃ t m, m ≤ n ∧ samePix s t ∧ t.pix.wf = true ∧
      (s.pix.within Config.pixBytes = true → t.pix.within Config.pixBytes = true) ∧
      (∀ i, k ≤ i → i < k + m → t.pixField (headerPixel i) = insertLow (s.pixField (headerPixel i)) (headerBit v i) 1) ∧
      otherBytesKept s t (fun j => k ≤ j.toNat ∧ j.toNat < k + m) ∧
      (∀ i, k ≤ i → i < k + m → pixelClean s (headerPixel i)) ∧
      ((m = n ∧ encodeHeaderAt v (List.range' k n) s = .ok t) ∨
        (m < n ∧ ¬ pixelClean s (headerPixel (k + m)) ∧ encodeHeaderAt v (List.range' k n) s = .fails [.io] t)) := by
  induction n generalizing k s with
  | zero =>
    exact ⟨s, 0, Nat.le_refl _, rfl, hm, id, fun i _ _ => by omega, otherBytesKept.refl _ _, fun i _ _ => by omega,
      .inl ⟨rfl, rfl⟩⟩
  | succ n ih =>
    rw [List.range'_succ]
    simp only [encodeHeaderAt]
    by_cases hc : pixelClean s (headerPixel k)
    · obtain ⟨t1, e1, hp1, hm1, hw1, hf1, ho1⟩ :=
        modifyPixel_clean (fun F => insertLow F (headerBit v k) 1) hm hc
      obtain ⟨t, m, hmn, hp, hmt, hw, hf, ho, hcl, hres⟩ := ih (k + 1) (by omega) hm1
      have hne : ∀ i, k + 1 ≤ i → i < k + 1 + m → headerPixel i ≠ headerPixel k := by
        intro i h1 h2 he
        have := congrArg BitVec.toNat he
        rw [headerPixel_toNat (by omega), headerPixel_toNat (by omega)] at this
        omega
      refine ⟨t, m + 1, by omega, hp1.trans hp, hmt, fun h => hw (hw1 h), ?_, ?_, ?_, ?_⟩
      · intro i h1 h2
        rcases Nat.eq_or_lt_of_le h1 with rfl | h1
        · rw [ho.field (by rw [headerPixel_toNat (by omega)]; omega)]
          exact hf1
        · rw [hf i h1 (by omega), ho1.field (hne i h1 (by omega))]
      · refine (ho1.mono ?_).trans (ho.mono ?_)
        · rintro j rfl
          rw [headerPixel_toNat (by omega)]
          omega
        · intro j hj
          omega
      · intro i h1 h2
        rcases Nat.eq_or_lt_of_le h1 with rfl | h1
        · exact hc
        · exact (pixelClean_of_samePix hp1).1 (hcl i h1 (by omega))
      · change samePix s t1 at hp1
        rw [show (BitVec.ofNat 64 k) = headerPixel k from rfl, e1, Attempt.andThen_ok]
        rcases hres with ⟨rfl, he⟩ | ⟨hlt, hnc, he⟩
        · exact .inl ⟨rfl, he⟩
        · refine .inr ⟨by omega, ?_, he⟩
          rw [pixelClean_of_samePix hp1] at hnc
          rwa [show k + (m + 1) = k + 1 + m by omega]
    · refine ⟨s, 0, by omega, rfl, hm, id, fun i _ _ => by omega, otherBytesKept.refl _ _, fun i _ _ => by omega,
        .inr ⟨by omega, hc, ?_⟩⟩
      rw [show (BitVec.ofNat 64 k) = headerPixel k from rfl, modifyPixel_fails _ hc, Attempt.andThen_fails]

/-- Everything `encodeHeader` can do: the first `m` header pixels are rewritten and no other byte is; `m` is 32 when no access
answers "error", else the pixel of the first failing access. -/
theorem encodeHeader_cases (v : BitVec 32) {s : State} (hm : s.pix.wf = true) :
    ∃ t m, m ≤ 32 ∧ samePix s t ∧ t.pix.wf = true ∧
      (s.pix.within Config.pixBytes = true → t.pix.within Config.pixBytes = true) ∧
      (∀ i, i < m → ∀ j, j < 24 → (t.pixField (headerPixel i)).getLsbD j =
        if j = 0 then v.getLsbD (31 - i) else (s.pixField (headerPixel i)).getLsbD j) ∧
      otherBytesKept s t (fun j => j.toNat < m) ∧ (∀ i, i < m → pixelClean s (headerPixel i)) ∧
      ((m = 32 ∧ encodeHeader v s = .ok t) ∨
        (m < 32 ∧ ¬ pixelClean s (headerPixel m) ∧ encodeHeader v s = .fails [.io] t)) := by
  obtain ⟨t, m, h1, h2, h3, h4, h5, h6, h7, h8⟩ := encodeHeaderAt_cases v 32 0 (by decide) hm
  refine ⟨t, m, h1, h2, h3, h4, ?_, h6.mono (by omega), fun i hi => h7 i (by omega) (by omega), ?_⟩
  · intro i hi j hj
    rw [h5 i (by omega) (by omega), insert_headerBit _ _ _ hj]
  · rw [encodeHeader, Config.headerPixels, List.range_eq_range']
    simpa using h8

theorem encodeHeader_clean (v : BitVec 32) {s : State} (hm : s.pix.wf = true) (hc : headerClean s) :
    ∃ t, encodeHeader v s = .ok t ∧ samePix s t ∧ t.pix.wf = true ∧
      (s.pix.within Config.pixBytes = true → t.pix.within Config.pixBytes = true) ∧
      headerSpells s t v ∧ otherBytesKept s t (fun j => j.toNat < 32) := by
  obtain ⟨t, m, h1, h2, h3, h4, h5, h6, -, ⟨rfl, h8⟩ | ⟨h9, h10, -⟩⟩ := encodeHeader_cases v hm
  · exact ⟨t, h8, h2, h3, h4, h5, h6⟩
  · exact absurd (hc m h9) h10

theorem extractLow_one_toNat (F : Field24) : (extractLow F 1).toNat = (F.getLsbD 0).toNat := by
  have hlt : (extractLow F 1).toNat < 2 ^ 1 := by
    simp only [extractLow, BitVec.toNat_and]
    exact Nat.lt_of_le_of_lt Nat.and_le_right (by decide)
  have hb := extractLow_getLsbD (F := F) (L := 1) (by decide) 0
  rw [← BitVec.testBit_toNat] at hb
  simp only [Nat.testBit_zero, Nat.zero_lt_one, decide_true, Bool.true_and] at hb
  rw [← hb]
  rcases Nat.mod_two_eq_zero_or_one (extractLow F 1).toNat with h | h
  · rw [h]; simp; omega
  · rw [h]; simp; omega

/-- `decode_header` over the pixels `k, …, k+n-1` when no read answers "error": their low bits, the first most significant. -/
theorem decodeHeaderAt_clean (n k acc : Nat) {s : State}
    (h : ∀ i, k ≤ i → i < k + n → Access.pixRead (headerPixel i) ∉ s.ioErr) :
    ∃ v, decodeHeaderAt (List.range' k n) acc s = some (acc * 2 ^ n + v) ∧ v < 2 ^ n ∧
      ∀ i, i < n → v.testBit (n - 1 - i) = (s.pixField (headerPixel (k + i))).getLsbD 0 := by
  induction n generalizing k acc with
  | zero => exact ⟨0, by simp [decodeHeaderAt], by simp, fun i hi => by omega⟩
  | succ n ih =>
    rw [List.range'_succ]
    simp only [decodeHeaderAt]
    rw [show (BitVec.ofNat 64 k) = headerPixel k from rfl, readField_clean (h k (Nat.le_refl _) (by omega))]
    simp only [extractLow_one_toNat]
    generalize hb : ((s.pixField (headerPixel k)).getLsbD 0) = b
    obtain ⟨v, h1, h2, h3⟩ := ih (k + 1) (2 * acc + b.toNat) fun i hi hi' => h i (by omega) (by omega)
    refine ⟨2 ^ n * b.toNat + v, ?_, ?_, ?_⟩
    · rw [h1]
      congr 1
      rw [Nat.pow_succ]
      ring
    · have := Bool.toNat_le b
      rw [Nat.pow_succ]
      nlinarith [Nat.two_pow_pos n]
    · intro i hi
      rw [Nat.testBit_two_pow_mul_add _ h2]
      rcases Nat.eq_zero_or_pos i with rfl | hpos
      · have e : n + 1 - 1 - 0 = n := by omega
        rw [if_neg (by omega), e, Nat.sub_self, Nat.add_zero, hb]
        cases b <;> rfl
      · rw [if_pos (by omega)]
        have := h3 (i - 1) (by omega)
        rw [show n + 1 - 1 - i = n - 1 - (i - 1) by omega, this]
        congr 3
        omega

theorem decodeHeader_clean {s : State} (h : headerReadable s) :
    ∃ v : BitVec 32, decodeHeader s = some v.toNat ∧ headerReads s v := by
  obtain ⟨v, h1, h2, h3⟩ := decodeHeaderAt_clean 32 0 0 (s := s) fun i _ hi => h i (by omega)
  refine ⟨BitVec.ofNat 32 v, ?_, ?_⟩
  · rw [decodeHeader, Config.headerPixels, List.range_eq_range', h1, BitVec.toNat_ofNat, Nat.mod_eq_of_lt h2]
    simp
  · intro i hi
    rw [BitVec.getLsbD_ofNat, h3 i hi]
    simp [show 31 - i < 32 by omega]

/-- The header spells one value. -/
theorem headerReads_unique {s : State} {v w : BitVec 32} (hv : headerReads s v) (hw : headerReads s w) : v = w := by
  apply BitVec.eq_of_getLsbD_eq
  intro j hj
  have h1 := hv (31 - j) (by omega)
  have h2 := hw (31 - j) (by omega)
  rw [show 31 - (31 - j) = j by omega] at h1 h2
  rw [h1, h2]

theorem decodeHeader_eq {s : State} {v : BitVec 32} (h : headerReadable s) (hv : headerReads s v) :
    decodeHeader s = some v.toNat := by
  obtain ⟨w, h1, h2⟩ := decodeHeader_clean h
  rw [h1, headerReads_unique h2 hv]

theorem decodeHeaderAt_fails {is : List Nat} (acc : Nat) {s : State}
    (h : ∃ i ∈ is, Access.pixRead (headerPixel i) ∈ s.ioErr) : decodeHeaderAt is acc s = none := by
  induction is generalizing acc with
  | nil => obtain ⟨i, hi, -⟩ := h; cases hi
  | cons i is ih =>
    simp only [decodeHeaderAt]
    rw [show (BitVec.ofNat 64 i) = headerPixel i from rfl]
    by_cases hr : Access.pixRead (headerPixel i) ∈ s.ioErr
    · rw [readField_fails hr]
    · rw [readField_clean hr]
      obtain ⟨j, hj, hf⟩ := h
      rcases List.mem_cons.1 hj with rfl | hj
      · exact absurd hf hr
      · exact ih _ ⟨j, hj, hf⟩

/-- A header pixel whose read answers "error" ends the decoding. -/
theorem decodeHeader_fails {s : State} (h : ¬ headerReadable s) : decodeHeader s = none := by
  simp only [headerReadable, not_forall, not_not] at h
  obtain ⟨i, hi, hf⟩ := h
  exact decodeHeaderAt_fails 0 ⟨i, List.mem_range.2 hi, hf⟩

theorem decodeHeaderAt_lt {is : List Nat} {acc v : Nat} {s : State} {n : Nat} (h : decodeHeaderAt is acc s = some v)
    (hacc : acc < 2 ^ n) : v < 2 ^ (n + is.length) := by
  induction is generalizing acc n with
  | nil => cases h; simpa using hacc
  | cons i is ih =>
    simp only [decodeHeaderAt] at h
    split at h
    · cases h
    · rename_i F _
      rw [extractLow_one_toNat] at h
      have hb := Bool.toNat_le (F.getLsbD 0)
      have := ih h (n := n + 1) (by rw [Nat.pow_succ]; omega)
      rwa [List.length_cons, Nat.add_comm is.length 1, ← Nat.add_assoc]

theorem decodeHeader_lt {s : State} {v : Nat} (h : decodeHeader s = some v) : v < 2 ^ 32 := by
  have := decodeHeaderAt_lt (n := 0) h (by decide)
  simpa [Config.headerPixels] using this

/-! ## hide_data -/

/-- Everything `hideData` can do (44_header_session.md rule R193). -/
theorem hideData_cases (data : BitVec 32) (length order : Nat) (s : State) :
    hideData data length order s = .fails [.operand] s ∨ hideData data length order s = .fails [.bounds] s ∨
    (length ≤ 24 ∧ data.toNat < 2 ^ length ∧ (getCoordinates order s.regs.imgW.toNat).2 < s.regs.imgH.toNat ∧
      hideData data length order s =
        modifyPixel (BitVec.ofNat 64 (32 + order)) (fun F => insertLow F data length) s) := by
  simp only [hideData, Config.pixelBits, pixelIndex_getCoordinates]
  split_ifs with h1 h2 h3
  · exact .inl rfl
  · exact .inl rfl
  · exact .inr (.inl rfl)
  · exact .inr (.inr ⟨by omega, by omega, by omega, rfl⟩)

/-! ## SRC -/

theorem srcReadAll_clean {as : List SrcAddr} {s : State} (h : ∀ a ∈ as, Access.srcRead a ∉ s.ioErr) :
    srcReadAll as s = some (as.map s.srcByte) := by
  induction as with
  | nil => rfl
  | cons a as ih =>
    have h0 := (failsAt_eq_false s (.srcRead a)).2 (h a (by simp))
    simp [srcReadAll, srcRead, h0, ih fun b hb => h b (by simp [hb])]

theorem srcReadAll_fails {as : List SrcAddr} {s : State} (h : ∃ a ∈ as, Access.srcRead a ∈ s.ioErr) :
    srcReadAll as s = none := by
  induction as with
  | nil => obtain ⟨a, ha, -⟩ := h; cases ha
  | cons a as ih =>
    by_cases h0 : Access.srcRead a ∈ s.ioErr
    · simp [srcReadAll, srcRead, (failsAt_iff ..).2 h0]
    · obtain ⟨b, hb, hf⟩ := h
      have hb' : b ∈ as := by
        rcases List.mem_cons.1 hb with rfl | hb'
        · exact absurd hf h0
        · exact hb'
      simp [srcReadAll, ih ⟨b, hb', hf⟩]

/-- The span of a chunk is the addresses whose bits it takes. -/
theorem mem_spanAddresses {cursor length : Nat} (hl : 1 ≤ length) (hc : cursor + length ≤ 2 ^ 64) (a : SrcAddr) :
    a ∈ spanAddresses cursor length ↔ cursor / 8 ≤ a.toNat ∧ 8 * a.toNat < cursor + length := by
  simp only [spanAddresses, List.mem_map, List.mem_range]
  constructor
  · rintro ⟨j, hj, rfl⟩
    have hlt : cursor / 8 + j < 2 ^ 61 := by omega
    rw [BitVec.toNat_ofNat, Nat.mod_eq_of_lt hlt]
    omega
  · rintro ⟨h1, h2⟩
    refine ⟨a.toNat - cursor / 8, by omega, ?_⟩
    rw [Nat.add_sub_cancel' h1]
    simp

/-- The bytes of the span hold the stream's bits (20_memory.md rule R66). -/
theorem streamBit_span (s : State) {cursor length i : Nat} (hi : i < length) :
    streamBit ((spanAddresses cursor length).map s.srcByte) (cursor % 8 + i) = srcBit s (cursor + i) := by
  have h8 : cursor / 8 + (cursor % 8 + i) / 8 = (cursor + i) / 8 := by omega
  have hm : (cursor % 8 + i) % 8 = (cursor + i) % 8 := by omega
  have hb : (cursor % 8 + i) / 8 < (cursor + length - 1) / 8 + 1 - cursor / 8 := by omega
  simp only [streamBit, srcBit, hm, spanAddresses, List.map_map]
  congr 1
  rw [List.getD_eq_getElem _ _ (by simpa using hb)]
  simp [h8]

end Sys2Proof.Machine
end

