-- ==== Sys2Proof/Laws/Decode.lean ====
section
/-! SUPPORT. The lemmas of the decoder's parts: a packet and its eight fields are the same thing, each code is read back as
what it was written from, and the checks of WellFormed are the decoder's own. -/

namespace Sys2Proof

/-- The fields of a packet, bit by bit (30_encoding.md rule R90). -/
theorem Fields.toPacket_getLsbD (f : Fields) (j : Nat) :
    f.toPacket.getLsbD j =
      if j < 64 then f.lo.getLsbD j
      else if j < 96 then f.hi.getLsbD (j - 64)
      else if j < 102 then f.rsv.getLsbD (j - 96)
      else if j < 109 then f.p.getLsbD (j - 102)
      else if j < 116 then f.n.getLsbD (j - 109)
      else if j < 117 then f.inv.getLsbD (j - 116)
      else if j < 120 then f.wsel.getLsbD (j - 117)
      else f.op.getLsbD (j - 120) := by
  simp only [Fields.toPacket, BitVec.getLsbD_append, Nat.sub_sub]
  split_ifs <;> first | (exfalso; omega) | rfl

/-- Reading the fields of a packet put together from fields. -/
theorem Fields.ofPacket_toPacket (f : Fields) : Fields.ofPacket f.toPacket = f := by
  cases f with
  | mk op wsel inv n p rsv hi lo =>
    simp only [Fields.ofPacket, Fields.mk.injEq]
    refine ⟨?_, ?_, ?_, ?_, ?_, ?_, ?_, ?_⟩ <;>
      (apply BitVec.eq_of_getLsbD_eq
       intro j hj
       rw [BitVec.getLsbD_extractLsb', Fields.toPacket_getLsbD, decide_eq_true hj, Bool.true_and]
       split_ifs <;> first | (exfalso; omega) | simp only [Nat.add_sub_cancel_left, Nat.zero_add])

/-- Putting together the fields read from a packet. -/
theorem Fields.toPacket_ofPacket (w : Packet) : (Fields.ofPacket w).toPacket = w := by
  apply BitVec.eq_of_getLsbD_eq
  intro j hj
  rw [Fields.toPacket_getLsbD]
  simp only [Fields.ofPacket, BitVec.getLsbD_extractLsb']
  split_ifs <;> (rw [decide_eq_true (by omega), Bool.true_and]; congr 1; omega)

theorem Fields.toPacket_inj {f g : Fields} (h : f.toPacket = g.toPacket) : f = g := by
  rw [← Fields.ofPacket_toPacket f, h, Fields.ofPacket_toPacket]

/-- Each mnemonic's code is read back as the mnemonic (30_encoding.md rule R94). -/
theorem Opcode.ofCode_code (o : Opcode) : Opcode.ofCode o.code = some o := by cases o <;> rfl

/-- No code but a mnemonic's own is read as it. -/
theorem Opcode.code_of_ofCode {c : BitVec 8} {o : Opcode} (h : Opcode.ofCode c = some o) : o.code = c := by
  revert c
  cases o <;> decide

/-- The width select check of WellFormed is the decoder's table (30_encoding.md rule R93). -/
theorem Width.ofSelect_isSome (wsel : BitVec 3) : (Width.ofSelect wsel).isSome = widthSelectOk wsel := by
  revert wsel
  decide

/-- The CSR check of WellFormed is the decoder's table (10_state.md rule R26). -/
theorem Csr.ofNumber_isSome (p : BitVec 7) : (Csr.ofNumber p).isSome = csrNumberOk p := by
  revert p
  decide

/-- Everything `decodeFields` accepts (30_encoding.md rule R95). -/
theorem decodeFields_ok {f : Fields} {i : Instr} (h : decodeFields f = .ok i) :
    f.rsv = 0 ∧ ∃ o, Opcode.ofCode f.op = some o ∧ f.unusedZero o.uses = true ∧ operandsOf o f = .ok i := by
  unfold decodeFields at h
  split at h
  · cases h
  · rename_i hr
    split at h
    · cases h
    · rename_i o ho
      split at h
      · rename_i hz
        exact ⟨by simpa using hr, o, ho, hz, h⟩
      · cases h

/-- What `decodeFields` accepts, in the other direction. -/
theorem decodeFields_eq {f : Fields} {o : Opcode} (hr : f.rsv = 0) (ho : Opcode.ofCode f.op = some o)
    (hz : f.unusedZero o.uses = true) : decodeFields f = operandsOf o f := by
  simp [decodeFields, hr, ho, hz]

/-- An unused field of a command is zero (30_encoding.md rule R96). -/
theorem Fields.unusedZero_iff (f : Fields) (u : Uses) :
    f.unusedZero u = true ↔
      (u.wsel = true ∨ f.wsel = 0) ∧ (u.inv = true ∨ f.inv = 0) ∧ (u.n = true ∨ f.n = 0) ∧ (u.p = true ∨ f.p = 0) ∧
        (u.hi = true ∨ f.hi = 0) ∧ f.lo &&& ~~~u.lo = 0 := by
  simp [Fields.unusedZero, and_assoc]

/-! ## The low operand word

How `lo` is put together and taken apart (30_encoding.md rules R91 and R92). -/

/-- The halves of a 64-bit value, bit by bit. -/
theorem halves_getLsbD (a b : BitVec 32) (j : Nat) :
    BitVec.getLsbD (w := 64) (a ++ b) j = if j < 32 then b.getLsbD j else a.getLsbD (j - 32) := BitVec.getLsbD_append ..

/-- Three bytes below forty zero bits, bit by bit. -/
theorem threeBytes_getLsbD (b0 b1 b2 : Byte) (j : Nat) :
    BitVec.getLsbD (w := 64) ((0 : BitVec 40) ++ b0 ++ b1 ++ b2) j =
      if j < 8 then b2.getLsbD j else if j < 16 then b1.getLsbD (j - 8) else if j < 24 then b0.getLsbD (j - 16)
      else false := by
  have h : BitVec.getLsbD (w := 64) ((0 : BitVec 40) ++ b0 ++ b1 ++ b2) j = _ := BitVec.getLsbD_append ..
  rw [h, BitVec.getLsbD_append, BitVec.getLsbD_append]
  simp only [Nat.sub_sub]
  split_ifs <;> first | (exfalso; omega) | rfl | simp

theorem lowHalf_append (a b : BitVec 32) : BitVec.extractLsb' (n := 64) 0 32 (a ++ b) = b := by
  apply BitVec.eq_of_getLsbD_eq
  intro j hj
  rw [BitVec.getLsbD_extractLsb', halves_getLsbD, Nat.zero_add, if_pos hj, decide_eq_true hj, Bool.true_and]

theorem highHalf_append (a b : BitVec 32) : BitVec.extractLsb' (n := 64) 32 32 (a ++ b) = a := by
  apply BitVec.eq_of_getLsbD_eq
  intro j hj
  rw [BitVec.getLsbD_extractLsb', halves_getLsbD, if_neg (by omega), Nat.add_sub_cancel_left, decide_eq_true hj,
    Bool.true_and]

/-- A 64-bit value is its two halves. -/
theorem append_halves (v : BitVec 64) : v.extractLsb' 32 32 ++ v.extractLsb' 0 32 = v := by
  apply BitVec.eq_of_getLsbD_eq (w := 64)
  intro j hj
  rw [halves_getLsbD]
  split_ifs with h
  · rw [BitVec.getLsbD_extractLsb', decide_eq_true h, Bool.true_and, Nat.zero_add]
  · rw [BitVec.getLsbD_extractLsb', decide_eq_true (by omega), Bool.true_and]
    congr 1
    omega

/-- The bits a mask lets through (30_encoding.md rule R96). -/
theorem and_not_eq_zero_iff {n : Nat} (v m : BitVec n) :
    v &&& ~~~m = 0 ↔ ∀ j, j < n → m.getLsbD j = false → v.getLsbD j = false := by
  constructor
  · intro h j hj hm
    have := congrArg (fun x => BitVec.getLsbD x j) h
    simp only [BitVec.getLsbD_and, BitVec.getLsbD_not, hj, hm, decide_true, Bool.not_false, Bool.and_true] at this
    rw [this]
    exact BitVec.getLsbD_zero
  · intro h
    apply BitVec.eq_of_getLsbD_eq
    intro j hj
    rw [BitVec.getLsbD_and, BitVec.getLsbD_not]
    cases hm : m.getLsbD j
    · rw [h j hj hm]; simp
    · simp

theorem loLow_getLsbD {j : Nat} (h : j < 64) : loLow.getLsbD j = decide (j < 32) := by
  revert j; decide

theorem loHigh_getLsbD {j : Nat} (h : j < 64) : loHigh.getLsbD j = decide (32 ≤ j) := by
  revert j; decide

/-- `lo` holds nothing above its low half exactly when it is that half zero-extended. -/
theorem lowOnly_iff (v : BitVec 64) : v &&& ~~~loLow = 0 ↔ (0 : BitVec 32) ++ v.extractLsb' 0 32 = v := by
  rw [and_not_eq_zero_iff]
  constructor
  · intro h
    apply BitVec.eq_of_getLsbD_eq (w := 64)
    intro j hj
    rw [halves_getLsbD]
    split_ifs with h32
    · rw [BitVec.getLsbD_extractLsb', decide_eq_true h32, Bool.true_and, Nat.zero_add]
    · rw [h j hj (by rw [loLow_getLsbD hj, decide_eq_false h32])]; simp
  · intro h j hj hm
    rw [loLow_getLsbD hj, decide_eq_false_iff_not] at hm
    rw [← h, halves_getLsbD, if_neg hm]; simp

/-- `lo` holds nothing below its high half exactly when it is that half shifted up. -/
theorem highOnly_iff (v : BitVec 64) : v &&& ~~~loHigh = 0 ↔ v.extractLsb' 32 32 ++ (0 : BitVec 32) = v := by
  rw [and_not_eq_zero_iff]
  constructor
  · intro h
    apply BitVec.eq_of_getLsbD_eq (w := 64)
    intro j hj
    rw [halves_getLsbD]
    split_ifs with h32
    · rw [h j hj (by rw [loHigh_getLsbD hj, decide_eq_false (by omega)])]; simp
    · rw [BitVec.getLsbD_extractLsb', decide_eq_true (by omega), Bool.true_and]
      congr 1
      omega
  · intro h j hj hm
    rw [loHigh_getLsbD hj, decide_eq_false_iff_not] at hm
    rw [← h, halves_getLsbD, if_pos (by omega)]; simp

/-- `lo` holds three bytes and nothing above exactly when it is those bytes put together. -/
theorem threeBytesOnly_iff (v : BitVec 64) :
    v &&& ~~~(0xFFFFFF : BitVec 64) = 0 ↔
      (0 : BitVec 40) ++ v.extractLsb' 16 8 ++ v.extractLsb' 8 8 ++ v.extractLsb' 0 8 = v := by
  have hm : ∀ j, j < 64 → (0xFFFFFF : BitVec 64).getLsbD j = decide (j < 24) := by decide
  rw [and_not_eq_zero_iff]
  constructor
  · intro h
    apply BitVec.eq_of_getLsbD_eq (w := 64)
    intro j hj
    rw [threeBytes_getLsbD]
    simp only [BitVec.getLsbD_extractLsb']
    split_ifs with h1 h2 h3
    · rw [decide_eq_true h1, Bool.true_and, Nat.zero_add]
    · rw [decide_eq_true (by omega), Bool.true_and]
      congr 1
      omega
    · rw [decide_eq_true (by omega), Bool.true_and]
      congr 1
      omega
    · rw [h j hj (by rw [hm j hj, decide_eq_false h3])]
  · intro h j hj hj'
    rw [hm j hj, decide_eq_false_iff_not] at hj'
    rw [← h, threeBytes_getLsbD, if_neg (by omega), if_neg (by omega), if_neg hj']

theorem threeBytes_extract (b0 b1 b2 : Byte) :
    BitVec.extractLsb' (n := 64) 16 8 ((0 : BitVec 40) ++ b0 ++ b1 ++ b2) = b0 ∧
    BitVec.extractLsb' (n := 64) 8 8 ((0 : BitVec 40) ++ b0 ++ b1 ++ b2) = b1 ∧
    BitVec.extractLsb' (n := 64) 0 8 ((0 : BitVec 40) ++ b0 ++ b1 ++ b2) = b2 := by
  refine ⟨?_, ?_, ?_⟩ <;>
    (apply BitVec.eq_of_getLsbD_eq
     intro j hj
     rw [BitVec.getLsbD_extractLsb', threeBytes_getLsbD, decide_eq_true hj, Bool.true_and])
  · rw [if_neg (by omega), if_neg (by omega), if_pos (by omega), Nat.add_sub_cancel_left]
  · rw [if_neg (by omega), if_pos (by omega), Nat.add_sub_cancel_left]
  · rw [if_pos (by omega), Nat.zero_add]

theorem ofBool_beq_one (b : BitVec 1) : BitVec.ofBool (b == 1) = b := by revert b; decide

theorem beq_one_ofBool (b : Bool) : (BitVec.ofBool b == 1) = b := by cases b <;> rfl

/-- 30_encoding.md rule R96: an encoding leaves every field its command does not use at zero. -/
theorem encodeFields_unusedZero (i : Instr) : (encodeFields i).unusedZero i.opcode.uses = true := by
  rw [Fields.unusedZero_iff]
  have low : ∀ x : BitVec 32, (((0 : BitVec 32) ++ x) : BitVec 64) &&& ~~~loLow = 0 := fun x => by
    rw [lowOnly_iff, lowHalf_append]
  have high : ∀ x : BitVec 32, ((x ++ (0 : BitVec 32)) : BitVec 64) &&& ~~~loHigh = 0 := fun x => by
    rw [highOnly_iff, highHalf_append]
  have hall : ∀ j, j < 64 → loAll.getLsbD j = true := by decide
  have all : ∀ x : BitVec 64, x &&& ~~~loAll = 0 := fun x => by
    rw [and_not_eq_zero_iff]
    intro j hj h
    rw [hall j hj] at h
    cases h
  have three : ∀ b0 b1 b2 : Byte,
      (((0 : BitVec 40) ++ b0 ++ b1 ++ b2) : BitVec 64) &&& ~~~(0xFFFFFF : BitVec 64) = 0 := fun b0 b1 b2 => by
    have h := threeBytes_extract b0 b1 b2
    rw [threeBytesOnly_iff, h.1, h.2.1, h.2.2]
  have z : ∀ m : BitVec 64, (0 : BitVec 64) &&& ~~~m = 0 := fun m => BitVec.zero_and
  cases i <;>
    simp only [encodeFields, Instr.opcode, Opcode.bare, Opcode.uses, low, high, all, three, z, true_or, or_true, and_true,
      Bool.false_eq_true]

/-- What the decoder reads from an encoding is the command's own operand split. -/
theorem decode_encode_eq (i : Instr) : decode (encode i) = operandsOf i.opcode (encodeFields i) := by
  unfold decode encode
  rw [Fields.ofPacket_toPacket]
  exact decodeFields_eq (by cases i <;> rfl) (by cases i <;> rfl) (encodeFields_unusedZero i)

end Sys2Proof
end

