-- ==== Sys2Proof/Laws/Exec.lean ====
section
/-! SUPPORT. Each command's whole effect in a block that is not FAULTED, as one equation in the words that statements use
(faultedWith, completed, completedWith), so that a proof about a command starts from its equation and never unfolds its
meaning. -/

namespace Sys2Proof.Machine

theorem raise_one {s : State} (he : s.regs.err = 0) (c : Cause) : raise [c] s = faultedWith s c.bit := by
  rw [raise_of_clear he, causeBits_one]
  cases c <;> decide

theorem respond_eq {s : State} (he : s.regs.err = 0) (d : RegWord) :
    respond d s = { s with rsps := s.rsps ++ [⟨false, d⟩] } := by
  simp [respond, Regs.faulted, he]

theorem answer_eq {s : State} (he : s.regs.err = 0) (v : RegWord) :
    answer v s = { s with regs := { s.regs with res := v }, rsps := s.rsps ++ [⟨false, v⟩] } := by
  simp [answer, respond, Regs.faulted, he]

/-- In a FAULTED block every command but RDREG is ignored. -/
theorem exec_of_faulted {s : State} (he : s.regs.err ≠ 0) {i : Instr} (hi : ∀ p, i ≠ .rdreg p) :
    exec i s = .next (ignored s) := by
  cases i
  case rdreg p => exact absurd rfl (hi p)
  all_goals exact unlessFaulted_of_faulted he _

/-- The registers after RDCHUNK has yielded the chunk `d`. -/
def chunkTaken (r : Regs) (d : BitVec 32) : Regs :=
  { r with
    chkData := d, chkLen := BitVec.ofNat 6 (nextChunkLength r), chkOrder := r.rdOrder, chkValid := true,
    rdCursor := BitVec.ofNat 64 (r.rdCursor.toNat + nextChunkLength r), rdOrder := r.rdOrder + 1, res := 1 }

/-- The registers after PULL has yielded the field `F`'s low bits. -/
def chunkPulled (r : Regs) (F : Field24) : Regs :=
  { r with
    chkData := (extractLow F r.hidCsize.toNat).setWidth 32, chkLen := r.hidCsize.setWidth 6, chkOrder := r.rdPos,
    chkValid := true, rdPos := r.rdPos + 1, res := 1 }

section Clear

variable {s : State} (he : s.regs.err = 0)

include he

theorem exec_mask_eq (wsel : BitVec 3) (inv : Bool) (n : BitVec 7) :
    exec (.mask wsel inv n) s = .next (match Width.ofSelect wsel with
      | none => faultedWith s 0x80
      | some w =>
        if w.bits < n.toNat then faultedWith s 0x20
        else completedWith s (BitVec.ofNat 64 (maskValue w.bits n.toNat inv))) := by
  cases h : Width.ofSelect wsel <;>
    simp only [h, exec, execMask, unlessFaulted_of_clear he, raise_one he, answer_of_clear he, Cause.bit]

theorem exec_getbits_eq (wsel : BitVec 3) (n p : BitVec 7) (src : BitVec 64) :
    exec (.getbits wsel n p src) s = .next (match Width.ofSelect wsel with
      | none => faultedWith s 0x80
      | some w =>
        if 2 ^ w.bits ≤ src.toNat then faultedWith s 0x20
        else if w.bits < p.toNat + n.toNat then faultedWith s 0x20
        else completedWith s (BitVec.ofNat 64 (getBitsValue w.bits src.toNat p.toNat n.toNat))) := by
  cases h : Width.ofSelect wsel <;>
    simp only [h, exec, execGetbits, unlessFaulted_of_clear he, raise_one he, answer_of_clear he, Cause.bit]

theorem exec_b2u24_eq (b0 b1 b2 : Byte) :
    exec (.b2u24 b0 b1 b2) s = .next (completedWith s ((bytesToU24 b0 b1 b2).setWidth 64)) := by
  simp only [exec, execB2u24, unlessFaulted_of_clear he, answer_of_clear he]

theorem exec_u24b_eq (x : BitVec 32) : exec (.u24b x) s = .next (completedWith s ((x.setWidth 24).setWidth 64)) := by
  simp only [exec, execU24b, unlessFaulted_of_clear he, answer_of_clear he, bytesToU24_u24ToBytes]

theorem exec_ljust_eq (n : BitVec 7) (data : BitVec 32) :
    exec (.ljust n data) s = .next (if 24 < n.toNat then faultedWith s 0x20
      else completedWith s (BitVec.ofNat 64 (leftJustifyValue data.toNat n.toNat))) := by
  simp only [exec, execLjust, unlessFaulted_of_clear he, raise_one he, answer_of_clear he, Cause.bit]

theorem exec_rdinit_eq (n : BitVec 7) (srclen : BitVec 64) :
    exec (.rdinit n srclen) s = .next (
      if n.toNat < 1 ∨ 32 < n.toNat then faultedWith s 0x20
      else if 2 ^ 61 ≤ srclen.toNat then faultedWith s 0x20
      else completed s { s.regs with
        srcLen := srclen, rdCsize := n.setWidth 6, rdCursor := 0, rdOrder := 0, rdActive := true, chkValid := false } 0) := by
  simp only [exec, execRdinit, unlessFaulted_of_clear he, raise_one he, Cause.bit, Config.maxChunkBits, Config.srcLenLimit]
  rw [respond_eq (by exact he)]
  rfl

theorem exec_rdchunk_eq :
    exec .rdchunk s = .next (
      if s.regs.rdActive = false then faultedWith s 0x10
      else if 8 * s.regs.srcLen.toNat - s.regs.rdCursor.toNat = 0 then
        completed s { s.regs with chkValid := false, res := 0 } 0
      else match srcReadAll (spanAddresses s.regs.rdCursor.toNat (nextChunkLength s.regs)) s with
        | none => faultedWith s 0x08
        | some bytes =>
          completed s (chunkTaken s.regs
            (BitVec.ofNat 32 (gatherBits bytes (s.regs.rdCursor.toNat % 8) (nextChunkLength s.regs)))) 1) := by
  simp only [exec, execRdchunk, unlessFaulted_of_clear he, raise_one he, Cause.bit]
  rw [answer_eq (by exact he)]
  unfold nextChunkLength
  cases srcReadAll _ s with
  | none => rfl
  | some bytes =>
    simp only
    rw [answer_eq (by exact he)]
    rfl

theorem exec_write_eq (n : BitVec 7) (data : BitVec 32) :
    exec (.write n data) s = .next (if 32 < n.toNat then faultedWith s 0x20
      else (writeChunk data n.toNat s).settle (respond 0)) := by
  simp only [exec, execWrite, unlessFaulted_of_clear he, raise_one he, Cause.bit, Config.maxChunkBits]

theorem exec_writec_eq :
    exec .writec s = .next (if s.regs.chkValid = false then faultedWith s 0x10
      else (writeChunk s.regs.chkData s.regs.chkLen.toNat s).settle fun t =>
        respond 0 { t with regs := { t.regs with chkValid := false } }) := by
  simp only [exec, execWritec, unlessFaulted_of_clear he, raise_one he, Cause.bit]

theorem exec_wrclose_eq : exec .wrclose s = .next ((flushRemainder s).settle (respond 0)) := by
  simp only [exec, execWrclose, unlessFaulted_of_clear he]

theorem exec_imgcfg_eq (n : BitVec 7) (height width : BitVec 32) :
    exec (.imgcfg n height width) s = .next (
      if width.toNat < 32 ∨ height.toNat < 1 then faultedWith s 0x20
      else if n ≠ 3 ∧ n ≠ 4 then faultedWith s 0x20
      else completed s { s.regs with
        imgW := width, imgH := height, imgCh := n.setWidth 3, mode := .none, hidSize := 0, hidCsize := 0, rdPos := 0 } 0) := by
  simp only [exec, execImgcfg, unlessFaulted_of_clear he, raise_one he, Cause.bit, Config.headerPixels]
  rw [respond_eq (by exact he)]
  rfl

end Clear

theorem configured_iff (r : Regs) : r.configured = false ↔ r.imgW = 0 := by simp [Regs.configured]

section Clear

variable {s : State} (he : s.regs.err = 0)

include he

theorem exec_encbits_eq (n : BitVec 7) (y x bits : BitVec 32) :
    exec (.encbits n y x bits) s = .next (
      if s.regs.imgW = 0 then faultedWith s 0x10
      else if 24 < n.toNat then faultedWith s 0x20
      else if 2 ^ n.toNat ≤ bits.toNat then faultedWith s 0x20
      else if s.regs.imgW.toNat ≤ x.toNat ∨ s.regs.imgH.toNat ≤ y.toNat then faultedWith s 0x40
      else (modifyPixel (pixelIndex x.toNat y.toNat s.regs.imgW.toNat) (fun F => insertLow F bits n.toNat) s).settle
        (respond 0)) := by
  simp only [exec, execEncbits, unlessFaulted_of_clear he, raise_one he, Cause.bit, configured_iff, Config.pixelBits]

theorem exec_decbits_eq (n : BitVec 7) (y x : BitVec 32) :
    exec (.decbits n y x) s = .next (
      if s.regs.imgW = 0 then faultedWith s 0x10
      else if 24 < n.toNat then faultedWith s 0x20
      else if s.regs.imgW.toNat ≤ x.toNat ∨ s.regs.imgH.toNat ≤ y.toNat then faultedWith s 0x40
      else match readField (pixelIndex x.toNat y.toNat s.regs.imgW.toNat) s with
        | none => faultedWith s 0x08
        | some F => completedWith s ((extractLow F n.toNat).setWidth 64)) := by
  cases h : readField (pixelIndex x.toNat y.toNat s.regs.imgW.toNat) s <;>
    simp only [h, exec, execDecbits, unlessFaulted_of_clear he, raise_one he, answer_of_clear he, Cause.bit, configured_iff,
      Config.pixelBits]

theorem exec_getcoord_eq (order : BitVec 64) :
    exec (.getcoord order) s = .next (
      if s.regs.imgW = 0 then faultedWith s 0x10
      else if s.regs.imgH.toNat ≤ (32 + order.toNat) / s.regs.imgW.toNat then faultedWith s 0x40
      else completedWith s (BitVec.ofNat 32 ((32 + order.toNat) / s.regs.imgW.toNat) ++
        BitVec.ofNat 32 ((32 + order.toNat) % s.regs.imgW.toNat))) := by
  simp only [exec, execGetcoord, unlessFaulted_of_clear he, raise_one he, answer_of_clear he, Cause.bit, configured_iff,
    getCoordinates, Config.headerPixels]

end Clear

/-- The ERR bits that CHUNKSZ and SETUPH raise for a size (60_exceptions.md rule R224); 0 when the size passes. -/
def sizeErr (r : Regs) (size : Nat) : BitVec 8 :=
  (if 2 ^ 32 ≤ size then 0x04 else 0) ||| (if 24 * r.usable < 8 * size then 0x02 else 0)

/-- The causes of a size, as ERR bits. -/
theorem sizeCauses_cases (r : Regs) (size : Nat) :
    (r.sizeCauses size = [] ∧ sizeErr r size = 0 ∧ size < 2 ^ 32 ∧ exceedsCapacity size r.usable = false) ∨
    (∃ c cs, r.sizeCauses size = c :: cs ∧ causeBits (c :: cs) = sizeErr r size ∧ sizeErr r size ≠ 0) := by
  simp only [Regs.sizeCauses, sizeErr, Config.sizeLimit]
  have hx : exceedsCapacity size r.usable = decide (24 * r.usable < 8 * size) := rfl
  rw [hx]
  rcases Decidable.em (2 ^ 32 ≤ size) with h1 | h1 <;> rcases Decidable.em (24 * r.usable < 8 * size) with h2 | h2 <;>
    simp only [h1, h2, if_true, if_false, decide_true, decide_false]
  · exact .inr ⟨_, _, rfl, rfl, by decide⟩
  · exact .inr ⟨_, _, rfl, rfl, by decide⟩
  · exact .inr ⟨_, _, rfl, rfl, by decide⟩
  · exact .inl ⟨rfl, rfl, by omega, trivial⟩

section Clear

variable {s : State} (he : s.regs.err = 0)

include he

theorem exec_chunksz_eq (size : BitVec 64) :
    exec (.chunksz size) s = .next (
      if s.regs.imgW = 0 then faultedWith s 0x10
      else if sizeErr s.regs size.toNat ≠ 0 then faultedWith s (sizeErr s.regs size.toNat)
      else completedWith s (BitVec.ofNat 64 (chunkSizeFor size.toNat s.regs.usable))) := by
  simp only [exec, execChunksz, unlessFaulted_of_clear he, raise_one he, answer_of_clear he, Cause.bit, configured_iff]
  rcases sizeCauses_cases s.regs size.toNat with ⟨h1, h2, -⟩ | ⟨c, cs, h1, h2, h3⟩
  · simp only [h1, h2, ne_eq, not_true_eq_false, if_false]
  · simp only [h1]
    rw [raise_of_clear he _ (by rw [h2]; exact h3), h2, if_pos h3]

theorem exec_enchdr_eq (size : BitVec 64) :
    exec (.enchdr size) s = .next (
      if s.regs.imgW = 0 then faultedWith s 0x10
      else if 2 ^ 32 ≤ size.toNat then faultedWith s 0x04
      else (encodeHeader (size.setWidth 32) s).settle (respond 0)) := by
  simp only [exec, execEnchdr, unlessFaulted_of_clear he, raise_one he, Cause.bit, configured_iff, Config.sizeLimit]

theorem exec_dechdr_eq :
    exec .dechdr s = .next (
      if s.regs.imgW = 0 then faultedWith s 0x10
      else match decodeHeader s with
        | none => faultedWith s 0x08
        | some v => completedWith s (BitVec.ofNat 64 v)) := by
  cases h : decodeHeader s <;>
    simp only [h, exec, execDechdr, unlessFaulted_of_clear he, raise_one he, answer_of_clear he, Cause.bit, configured_iff]

theorem exec_setuph_eq (size : BitVec 64) :
    exec (.setuph size) s = .next (
      if s.regs.imgW = 0 then faultedWith s 0x10
      else if s.regs.mode ≠ .none then faultedWith s 0x10
      else if sizeErr s.regs size.toNat ≠ 0 then faultedWith s (sizeErr s.regs size.toNat)
      else (encodeHeader (size.setWidth 32) s).settle fun t =>
        answer (BitVec.ofNat 64 (chunkSizeFor size.toNat s.regs.usable)) { t with regs := { t.regs with mode := .hide } }) := by
  simp only [exec, execSetuph, unlessFaulted_of_clear he, raise_one he, Cause.bit, configured_iff]
  rcases sizeCauses_cases s.regs size.toNat with ⟨h1, h2, -⟩ | ⟨c, cs, h1, h2, h3⟩
  · simp only [h1, h2, ne_eq, not_true_eq_false, if_false]
  · simp only [h1]
    rw [raise_of_clear he _ (by rw [h2]; exact h3), h2, if_pos h3]

theorem exec_setupx_eq :
    exec .setupx s = .next (
      if s.regs.imgW = 0 then faultedWith s 0x10
      else if s.regs.mode ≠ .none then faultedWith s 0x10
      else match decodeHeader s with
        | none => faultedWith s 0x08
        | some v =>
          if 24 * s.regs.usable < 8 * v then faultedWith s 0x02
          else completed s
            { s.regs with
              hidSize := BitVec.ofNat 32 v, hidCsize := BitVec.ofNat 5 (chunkSizeFor v s.regs.usable), rdPos := 0,
              mode := .extract,
              res := (BitVec.ofNat 5 (chunkSizeFor v s.regs.usable) ++ BitVec.ofNat 32 v).setWidth 64 }
            ((BitVec.ofNat 5 (chunkSizeFor v s.regs.usable) ++ BitVec.ofNat 32 v).setWidth 64)) := by
  simp only [exec, execSetupx, unlessFaulted_of_clear he, raise_one he, Cause.bit, configured_iff, exceedsCapacity_eq_true]
  cases decodeHeader s with
  | none => rfl
  | some v =>
    simp only
    rw [answer_eq (by exact he)]
    rfl

theorem exec_hide_eq (n : BitVec 7) (order : BitVec 64) (data : BitVec 32) :
    exec (.hide n order data) s = .next (
      if s.regs.imgW = 0 then faultedWith s 0x10
      else if s.regs.mode ≠ .hide then faultedWith s 0x10
      else (hideData data n.toNat order.toNat s).settle (respond 0)) := by
  simp only [exec, execHide, unlessFaulted_of_clear he, raise_one he, Cause.bit, configured_iff]

theorem exec_hidec_eq :
    exec .hidec s = .next (
      if s.regs.imgW = 0 then faultedWith s 0x10
      else if s.regs.mode ≠ .hide then faultedWith s 0x10
      else if s.regs.chkValid = false then faultedWith s 0x10
      else (hideData s.regs.chkData s.regs.chkLen.toNat s.regs.chkOrder.toNat s).settle fun t =>
        respond 0 { t with regs := { t.regs with chkValid := false } }) := by
  simp only [exec, execHidec, unlessFaulted_of_clear he, raise_one he, Cause.bit, configured_iff]

theorem exec_pull_eq :
    exec .pull s = .next (
      if s.regs.imgW = 0 then faultedWith s 0x10
      else if s.regs.mode ≠ .extract then faultedWith s 0x10
      else if s.regs.rdPos.toNat * s.regs.hidCsize.toNat < s.regs.hidSize.toNat * 8 then
        match readField (BitVec.ofNat 64 (32 + s.regs.rdPos.toNat)) s with
        | none => faultedWith s 0x08
        | some F => completed s (chunkPulled s.regs F) 1
      else completed s { s.regs with chkValid := false, res := 0 } 0) := by
  simp only [exec, execPull, unlessFaulted_of_clear he, raise_one he, Cause.bit, configured_iff, pixelIndex_getCoordinates]
  rw [answer_eq (s := { s with regs := { s.regs with chkValid := false } }) (by exact he)]
  cases readField _ s with
  | none => rfl
  | some F =>
    simp only
    rw [answer_eq (by exact he)]
    rfl

end Clear

/-! ## What the shared bodies come to -/

/-- Everything a chunk write can do: all emits made, or an IO fault after some of them. -/
theorem writeChunk_outcome (data : BitVec 32) (n : Nat) (s : State) :
    (∃ count rd rl out, rd.toNat % 2 ^ (8 - rl.toNat) = 0 ∧ writeChunk data n s = .ok
      { s with dst := s.dst ++ out, regs := { s.regs with dstCount := count, remData := rd, remLen := rl } }) ∨
    ∃ out, writeChunk data n s = .fails [.io] { s with dst := s.dst ++ out } := by
  rcases emits_clean_or_fail s ((s.regs.remLen.toNat + n) / 8) with h | ⟨j, hj, h1, h2⟩
  · exact .inl ⟨_, _, _, _, accumulate_remData_mod .., writeChunk_clean h⟩
  · exact .inr ⟨_, writeChunk_fails hj h1 h2⟩

/-- Everything the final flush can do. -/
theorem flushRemainder_outcome (s : State) :
    (∃ count out, flushRemainder s = .ok
      { s with dst := s.dst ++ out, regs := { s.regs with dstCount := count, remData := 0, remLen := 0 } }) ∨
    ∃ out, flushRemainder s = .fails [.io] { s with dst := s.dst ++ out } := by
  unfold flushRemainder
  rcases emitAll_cases (if s.regs.remLen = 0 then [] else [s.regs.remData]) s with ⟨-, h⟩ | ⟨j, hj, h⟩
  · simp only [h]
    exact .inl ⟨_, _, rfl⟩
  · simp only [h]
    exact .inr ⟨_, rfl⟩

/-- Everything a read-modify-write of a pixel can do. -/
theorem modifyPixel_outcome (i : PixIndex) (f : Field24 → Field24) (s : State) :
    (∃ c, modifyPixel i f s = .ok { s with pix := s.pix.writeColour i c }) ∨ modifyPixel i f s = .fails [.io] s := by
  by_cases h : pixelClean s i
  · have h1 : s.failsAt (.pixRead i) = false := (failsAt_eq_false ..).2 h.1
    have h2 : s.failsAt (.pixWrite i) = false := (failsAt_eq_false ..).2 h.2
    left
    simp only [modifyPixel, pixRead, pixWrite, h1, h2]
    exact ⟨_, rfl⟩
  · exact .inr (modifyPixel_fails f h)

/-- Everything `hide_data` can do: the pixel `32 + order` stored, or one fault with no memory effect. -/
theorem hideData_outcome (data : BitVec 32) (length order : Nat) (s : State) :
    (∃ c, hideData data length order s = .ok { s with pix := s.pix.writeColour (BitVec.ofNat 64 (32 + order)) c }) ∨
    ∃ c, (c = .io ∨ c = .operand ∨ c = .bounds) ∧ hideData data length order s = .fails [c] s := by
  rcases hideData_cases data length order s with h | h | ⟨-, -, -, h⟩
  · exact .inr ⟨_, by simp, h⟩
  · exact .inr ⟨_, by simp, h⟩
  · rw [h]
    rcases modifyPixel_outcome (BitVec.ofNat 64 (32 + order)) (fun F => insertLow F data length) s with ⟨c, h⟩ | h
    · exact .inl ⟨c, h⟩
    · exact .inr ⟨.io, by simp, h⟩

/-- Everything the header write can do, PIX aside. -/
theorem encodeHeaderAt_outcome (v : BitVec 32) (is : List Nat) (s : State) :
    ∃ p, encodeHeaderAt v is s = .ok { s with pix := p } ∨ encodeHeaderAt v is s = .fails [.io] { s with pix := p } := by
  induction is generalizing s with
  | nil => exact ⟨_, .inl rfl⟩
  | cons i is ih =>
    simp only [encodeHeaderAt]
    rcases modifyPixel_outcome (BitVec.ofNat 64 i) (fun F => insertLow F (headerBit v i) 1) s with ⟨c, h⟩ | h
    · rw [h]; exact ih _
    · rw [h]; exact ⟨s.pix, .inr rfl⟩

theorem encodeHeader_outcome (v : BitVec 32) (s : State) :
    ∃ p, encodeHeader v s = .ok { s with pix := p } ∨ encodeHeader v s = .fails [.io] { s with pix := p } :=
  encodeHeaderAt_outcome _ _ _

/-- Every command answers a next state. -/
theorem exec_answers_next (i : Instr) (s : State) : ∃ t, exec i s = .next t := by
  cases i <;>
    simp only [exec, execMask, execGetbits, execB2u24, execU24b, execLjust, execRdinit, execRdchunk, execWrite, execWritec,
      execWrclose, execImgcfg, execEncbits, execDecbits, execGetcoord, execChunksz, execEnchdr, execDechdr, execSetuph,
      execSetupx, execHide, execHidec, execPull, execRdreg, unlessFaulted] <;>
    first
      | exact ⟨_, rfl⟩
      | (split <;> exact ⟨_, rfl⟩)

end Sys2Proof.Machine
end

