-- ==== Sys2Proof/Laws/PerInstr.lean ====
section
/-! SUPPORT. Statements about every command as syntax, one lemma per constructor: the fields its encoding leaves alone. -/

namespace Sys2Proof.Laws.OwnOpcode

/-- 30_encoding.md rules R94 and R96: the encoding of a command holds its own opcode and a zero `rsv`. -/
def Statement (i : Instr) : Prop :=
  (Fields.ofPacket (encode i)).op = i.opcode.code ∧ (Fields.ofPacket (encode i)).rsv = 0

theorem of_fields {i : Instr} (h : (encodeFields i).op = i.opcode.code) (h' : (encodeFields i).rsv = 0) : Statement i := by
  unfold Statement encode
  rw [Fields.ofPacket_toPacket]
  exact ⟨h, h'⟩

theorem mask (wsel : BitVec 3) (inv : Bool) (n : BitVec 7) : Statement (.mask wsel inv n) := of_fields rfl rfl
theorem getbits (wsel : BitVec 3) (n p : BitVec 7) (src : BitVec 64) : Statement (.getbits wsel n p src) := of_fields rfl rfl
theorem b2u24 (b0 b1 b2 : Byte) : Statement (.b2u24 b0 b1 b2) := of_fields rfl rfl
theorem u24b (x : BitVec 32) : Statement (.u24b x) := of_fields rfl rfl
theorem ljust (n : BitVec 7) (data : BitVec 32) : Statement (.ljust n data) := of_fields rfl rfl
theorem rdinit (n : BitVec 7) (srclen : BitVec 64) : Statement (.rdinit n srclen) := of_fields rfl rfl
theorem rdchunk : Statement .rdchunk := of_fields rfl rfl
theorem write (n : BitVec 7) (data : BitVec 32) : Statement (.write n data) := of_fields rfl rfl
theorem writec : Statement .writec := of_fields rfl rfl
theorem wrclose : Statement .wrclose := of_fields rfl rfl
theorem imgcfg (n : BitVec 7) (height width : BitVec 32) : Statement (.imgcfg n height width) := of_fields rfl rfl
theorem encbits (n : BitVec 7) (y x bits : BitVec 32) : Statement (.encbits n y x bits) := of_fields rfl rfl
theorem decbits (n : BitVec 7) (y x : BitVec 32) : Statement (.decbits n y x) := of_fields rfl rfl
theorem getcoord (order : BitVec 64) : Statement (.getcoord order) := of_fields rfl rfl
theorem chunksz (size : BitVec 64) : Statement (.chunksz size) := of_fields rfl rfl
theorem enchdr (size : BitVec 64) : Statement (.enchdr size) := of_fields rfl rfl
theorem dechdr : Statement .dechdr := of_fields rfl rfl
theorem setuph (size : BitVec 64) : Statement (.setuph size) := of_fields rfl rfl
theorem setupx : Statement .setupx := of_fields rfl rfl
theorem hide (n : BitVec 7) (order : BitVec 64) (data : BitVec 32) : Statement (.hide n order data) := of_fields rfl rfl
theorem hidec : Statement .hidec := of_fields rfl rfl
theorem pull : Statement .pull := of_fields rfl rfl
theorem rdreg (p : BitVec 7) : Statement (.rdreg p) := of_fields rfl rfl

end Sys2Proof.Laws.OwnOpcode
end

