-- ==== Sys2Proof/Tests/Slice0.lean ====
section
/-! SUPPORT. The model's own tests: ill-formed terms refused, every command's packet decoded, one or two steps per command
with the results of 95_test_vectors.md, and for every statement that has hypotheses a state that meets them all. -/

namespace Sys2Proof.Tests

open Sys2Proof Sys2Proof.Machine

/-! ## WellFormed: each check refuses an ill-formed term (30_encoding.md rule R95 (4) and (5)) -/

theorem test_wf_mask_reserved_width : Instr.wellFormed (.mask 5 false 1) = false := by decide
theorem test_wf_getbits_reserved_width : Instr.wellFormed (.getbits 7 1 0 0) = false := by decide
theorem test_wf_rdreg_unimplemented : Instr.wellFormed (.rdreg 0x07) = false := by decide
theorem test_wf_edges : Instr.wellFormed (.mask 4 true 64) = true ∧ Instr.wellFormed (.rdreg 0x22) = true := by decide

/-! ## Decode: a word of each command, written out from 30_encoding.md rules R90 to R94 (packets of 95_test_vectors.md) -/

theorem test_decode_mask : decode 0x0150A000000000000000000000000000 = .ok (.mask 2 true 5) := by decide
theorem test_decode_getbits : decode 0x02808F00000000000123456789ABCDEF = .ok (.getbits 4 4 60 0x0123456789ABCDEF) := by decide
theorem test_decode_b2u24 : decode 0x03000000000000000000000000FF0001 = .ok (.b2u24 0xFF 0x00 0x01) := by decide
theorem test_decode_u24b : decode 0x040000000000000000000000AB123456 = .ok (.u24b 0xAB123456) := by decide
theorem test_decode_ljust : decode 0x050280000000000000000000000A53C0 = .ok (.ljust 20 0xA53C0) := by decide
theorem test_decode_rdinit : decode 0x10002000000000002000000000000000 = .ok (.rdinit 1 0x2000000000000000) := by decide
theorem test_decode_rdchunk : decode 0x11000000000000000000000000000000 = .ok .rdchunk := by decide
theorem test_decode_write : decode 0x180400000000000000000000DEADBEEF = .ok (.write 32 0xDEADBEEF) := by decide
theorem test_decode_writec : decode 0x19000000000000000000000000000000 = .ok .writec := by decide
theorem test_decode_wrclose : decode 0x1A000000000000000000000000000000 = .ok .wrclose := by decide
theorem test_decode_imgcfg : decode 0x20008000000000020000000000000022 = .ok (.imgcfg 4 2 34) := by decide
theorem test_decode_encbits : decode 0x210120000000000100000000000001FF = .ok (.encbits 9 1 0 0x1FF) := by decide
theorem test_decode_decbits : decode 0x22018000000000010000002100000000 = .ok (.decbits 12 1 33) := by decide
theorem test_decode_getcoord : decode 0x23000000000000000000000000000023 = .ok (.getcoord 35) := by decide
theorem test_decode_chunksz : decode 0x24000000000000000000000100000000 = .ok (.chunksz 0x100000000) := by decide
theorem test_decode_enchdr : decode 0x280000000000000000000000DEADBEEF = .ok (.enchdr 0xDEADBEEF) := by decide
theorem test_decode_dechdr : decode 0x29000000000000000000000000000000 = .ok .dechdr := by decide
theorem test_decode_setuph : decode 0x2A000000000000000000000000000005 = .ok (.setuph 5) := by decide
theorem test_decode_setupx : decode 0x2B000000000000000000000000000000 = .ok .setupx := by decide
theorem test_decode_hide : decode 0x2C00800000000001000000020000000C = .ok (.hide 4 0x100000002 0xC) := by decide
theorem test_decode_hidec : decode 0x2D000000000000000000000000000000 = .ok .hidec := by decide
theorem test_decode_pull : decode 0x2E000000000000000000000000000000 = .ok .pull := by decide
theorem test_decode_rdreg : decode 0x3F000680000000000000000000000000 = .ok (.rdreg 0x1A) := by decide

/-- The five tests of rule R95, each with a packet of 95_test_vectors.md (V-M20, V-M21, V-B3, section 2.8). -/
theorem test_decode_illegal :
    decode 0x11000001000000000000000000000000 = .error .reservedField ∧
    decode 0x00000000000000000000000000000000 = .error .reservedOpcode ∧
    decode 0x01000040000000000000000000000000 = .error .unusedFieldNotZero ∧
    decode 0x03000000000000000000000001000000 = .error .unusedFieldNotZero ∧
    decode 0x01A02000000000000000000000000000 = .error .reservedWidth ∧
    decode 0x3F0001C0000000000000000000000000 = .error .unimplementedCsr := by decide

/-- The mask of the opcode table is what rule R91's table of used fields leaves to be fixed. -/
theorem test_table_masks : ∀ o ∈ [Opcode.mask, .getbits, .b2u24, .u24b, .ljust, .rdinit, .rdchunk, .write, .writec, .wrclose,
      .imgcfg, .encbits, .decbits, .getcoord, .chunksz, .enchdr, .dechdr, .setuph, .setupx, .hide, .hidec, .pull, .rdreg],
    tableMatch o = o.bare.toPacket ∧
    tableMask o = Fields.toPacket
      ⟨0xFF, if o.uses.wsel then 0 else 7, if o.uses.inv then 0 else 1, if o.uses.n then 0 else 0x7F,
        if o.uses.p then 0 else 0x7F, 0x3F, if o.uses.hi then 0 else 0xFFFFFFFF, ~~~o.uses.lo⟩ := by decide

theorem test_decodeTableWord : decodeTableWord 128 0x1A000000000000000000000000000000 = some .wrclose := by decide

/-! ## Small states -/

/-- The state after one packet. -/
def onPacket (w : Packet) (s : State) : State :=
  match step (presentPacket w s) with
  | .next t => t
  | .fault _ => s
  | .refused _ => s

/-- The state after one command. -/
def after (i : Instr) (s : State) : State :=
  match exec i s with
  | .next t => t
  | .fault _ => s
  | .refused _ => s

theorem exec_after (i : Instr) (s : State) : exec i s = .next (after i s) := by
  obtain ⟨t, h⟩ := exec_answers_next i s
  simp [after, h]

def fresh : State := State.reset

/-- `n` pixels (0x12, 0x34, 0x57), alpha 0x80. -/
def grey (n : Nat) : Memory :=
  (List.range n).flatMap fun i => [(4 * i, 0x12), (4 * i + 1, 0x34), (4 * i + 2, 0x57), (4 * i + 3, 0x80)]

/-- A configured image with grey pixels. -/
def image (w h : BitVec 32) (pixels : Nat) : State :=
  { fresh with regs := { Regs.reset with imgW := w, imgH := h, imgCh := 4 }, pix := grey pixels }

/-- The image of program P1. -/
def image34 : State := image 34 1 34

/-- The image of program P1 in a hide session, with a chunk of 20 bits in the latch. -/
def hiding34 : State :=
  { image34 with
    regs := { image34.regs with mode := .hide, chkData := 0xA53C0, chkLen := 20, chkOrder := 0, chkValid := true } }

/-- The pixels that program P1 leaves: a header that spells 5, and two chunks of 20 bits. -/
def hidden34 : Memory :=
  ((List.range 32).flatMap fun i =>
    [(4 * i, 0x12), (4 * i + 1, 0x34), (4 * i + 2, if i = 29 ∨ i = 31 then 0x57 else 0x56)]) ++
  [(128, 0x1A), (129, 0x53), (130, 0xC0), (132, 0x1F), (133, 0x96), (134, 0xC3)]

/-- Program P2 before its second command. -/
def carrier34 : State := { image34 with pix := hidden34 }

/-- Program P2 after its second command. -/
def extracting34 : State :=
  { carrier34 with regs := { carrier34.regs with mode := .extract, hidSize := 5, hidCsize := 20, rdPos := 0 } }

/-- SRC of vectors V-R2 and V-R5. -/
def payload : Memory := [(0, 0xA5), (1, 0x3C), (2, 0x0F), (3, 0x96), (4, 0xC3)]

/-- A reader of `csize` bits over the payload at bit `cursor`. -/
def reading (csize : BitVec 6) (cursor order : BitVec 64) : State :=
  { fresh with
    src := payload
    regs := { Regs.reset with srcLen := 5, rdCsize := csize, rdCursor := cursor, rdOrder := order, rdActive := true } }

/-- A writer with a Remainder. -/
def writing (d : BitVec 8) (l : BitVec 3) : State := { fresh with regs := { Regs.reset with remData := d, remLen := l } }

/-! ## One step each, results of 95_test_vectors.md -/

/-- V-M8, and its response. -/
theorem test_mask_inverted24 : (onPacket 0x0150A000000000000000000000000000 fresh).regs.res = 0xFFFFE0 ∧
    (onPacket 0x0150A000000000000000000000000000 fresh).rsps = [⟨false, 0xFFFFE0⟩] := by decide
/-- V-M17. -/
theorem test_mask_too_long : (onPacket 0x01012000000000000000000000000000 fresh).regs.err = 0x20 ∧
    (onPacket 0x01012000000000000000000000000000 fresh).rsps = [⟨true, 0⟩] := by decide
/-- V-X6. -/
theorem test_getbits_middle : (onPacket 0x0221010000000000000000000000A53C fresh).regs.res = 0x53 := by decide
/-- V-X13. -/
theorem test_getbits_source_too_wide : (onPacket 0x020020000000000000000000000001B5 fresh).regs.err = 0x20 := by decide
/-- V-B2. -/
theorem test_b2u24 : (onPacket 0x03000000000000000000000000FF0001 fresh).regs.res = 0xFF0001 := by decide
/-- V-B4. -/
theorem test_u24b_drops_top : (onPacket 0x040000000000000000000000AB123456 fresh).regs.res = 0x123456 := by decide
/-- V-L6. -/
theorem test_ljust_drops_high : (onPacket 0x050060000000000000000000000000FD fresh).regs.res = 0xA00000 := by decide
/-- V-L8. -/
theorem test_ljust_too_long : (onPacket 0x05032000000000000000000000000001 fresh).regs.err = 0x20 := by decide
/-- V-R1, first line. -/
theorem test_rdinit : (onPacket 0x1000A000000000000000000000000002 fresh).regs.status = 0x08 ∧
    (onPacket 0x1000A000000000000000000000000002 fresh).regs.rdCsize = 5 := by decide
/-- V-R9. -/
theorem test_rdinit_length : (onPacket 0x10002000000000002000000000000000 fresh).regs.err = 0x20 := by decide
/-- V-R5, third chunk: 13 bits across a byte boundary. -/
theorem test_rdchunk_across : (after .rdchunk (reading 13 26 2)).regs.chkData = 0x0B61 ∧
    (after .rdchunk (reading 13 26 2)).regs.rdCursor = 39 := by decide
/-- V-R5, last chunk: one bit. -/
theorem test_rdchunk_short : (after .rdchunk (reading 13 39 3)).regs.chkData = 1 ∧
    (after .rdchunk (reading 13 39 3)).regs.chkLen = 1 := by decide
/-- V-W4, second command. -/
theorem test_write_39_bits : (onPacket 0x180400000000000000000000DEADBEEF (writing 0xAA 7)).dst = [0xAB, 0xBD, 0x5B, 0x7D] ∧
    (onPacket 0x180400000000000000000000DEADBEEF (writing 0xAA 7)).regs.remData = 0xDE := by decide
/-- V-W2, second command: seven bits stay. -/
theorem test_write_pending : (onPacket 0x18008000000000000000000000000009 (writing 0xA0 3)).dst = [] ∧
    (onPacket 0x18008000000000000000000000000009 (writing 0xA0 3)).regs.remData = 0xB2 := by decide
/-- P2, command 4: 20 bits, 4 pending, latch empty. -/
theorem test_writec : (after .writec hiding34).dst = [0xA5, 0x3C] ∧ (after .writec hiding34).regs.chkValid = false := by decide
/-- V-W8. -/
theorem test_writec_empty : (onPacket 0x19000000000000000000000000000000 fresh).regs.err = 0x10 := by decide
/-- V-W2, third command. -/
theorem test_wrclose : (onPacket 0x1A000000000000000000000000000000 (writing 0xB2 7)).dst = [0xB2] ∧
    (onPacket 0x1A000000000000000000000000000000 (writing 0xB2 7)).regs.dstCount = 1 := by decide
/-- V-W5, second WRCLOSE. -/
theorem test_wrclose_empty : (after .wrclose (writing 0 0)).dst = [] ∧ (after .wrclose (writing 0 0)).regs.err = 0 := by decide
/-- P1, command 1. -/
theorem test_imgcfg : (onPacket 0x20006000000000010000000000000022 fresh).regs =
    { Regs.reset with imgW := 34, imgH := 1, imgCh := 3 } := by decide
/-- V-P17. -/
theorem test_imgcfg_channels : (onPacket 0x2000A000000000010000000000000020 fresh).regs.err = 0x20 := by decide
/-- V-P7: the ninth bit lands in bit 0 of G; alpha stays. -/
theorem test_encbits_across_bytes : [0, 1, 2, 3].map (fun c =>
    (onPacket 0x210120000000000100000000000001FF (image 34 2 35)).pixByte 34 c) = [0x12, 0x35, 0xFF, 0x80] := by decide +kernel
/-- V-P10. -/
theorem test_encbits_too_big : (onPacket 0x21006000000000000000000000000008 (image 34 2 1)).regs.err = 0x20 := by decide
/-- V-P5 on the field V-P3 wrote. -/
theorem test_decbits : (after (.decbits 12 1 33) { image 34 2 0 with
    pix := [(268, 0xAB), (269, 0xCD), (270, 0xEF)] }).regs.res = 0xDEF := by decide
/-- V-P13. -/
theorem test_decbits_unconfigured : (onPacket 0x22002000000000000000000000000000 fresh).regs.err = 0x10 := by decide
/-- V-G4, V-G5. -/
theorem test_getcoord_last : (after (.getcoord 35) (image 34 2 0)).regs.res = 0x0000000100000021 ∧
    (after (.getcoord 36) (image 34 2 0)).regs.err = 0x40 := by decide
/-- V-C5, V-C6. -/
theorem test_chunksz : (after (.chunksz 32765) (image 512 512 0)).regs.res = 2 ∧
    (after (.chunksz 786336) (image 512 512 0)).regs.res = 24 := by decide
/-- V-C9, V-C14. -/
theorem test_chunksz_causes : (after (.chunksz 0x100000000) (image 512 512 0)).regs.err = 0x06 ∧
    (after (.chunksz 0x100000000) (image 0xFFFFFFFF 0xFFFFFFFF 0)).regs.err = 0x04 := by decide
/-- V-H5: the blue low bits spell the size, pixel 0 first. -/
theorem test_enchdr : (List.range 32).map (fun i =>
      ((after (.enchdr 0xDEADBEEF) image34).pixByte (headerPixel i) 2).getLsbD 0) =
    [true, true, false, true, true, true, true, false, true, false, true, false, true, true, false, true,
     true, false, true, true, true, true, true, false, true, true, true, false, true, true, true, true] := by decide +kernel
/-- V-H7. -/
theorem test_enchdr_overflow : (after (.enchdr 0x100000000) image34).regs.err = 0x04 := by decide
/-- V-H8. -/
theorem test_dechdr : (after .dechdr image34).regs.res = 0xFFFFFFFF := by decide +kernel
/-- V-S9. -/
theorem test_setuph : (after (.setuph 6) image34).regs.res = 24 ∧ (after (.setuph 6) image34).regs.mode = .hide := by
  decide +kernel
/-- V-S10. -/
theorem test_setuph_causes : (after (.setuph 0x100000000) image34).regs.err = 0x06 := by decide
/-- P2, command 2. -/
theorem test_setupx : (after .setupx carrier34).regs.res = 0x0000001400000005 ∧
    (after .setupx carrier34).regs.status = 0x04 := by decide +kernel
/-- V-S11. -/
theorem test_setupx_no_header : (after .setupx image34).regs.err = 0x02 ∧ (after .setupx image34).regs.hidSize = 0 := by
  decide +kernel
/-- The example of 44_header_session.md rule R194. -/
theorem test_hide : (after (.hide 20 0 0xA53C0) hiding34).pixField 32 = 0x1A53C0 := by decide +kernel
/-- V-S5. -/
theorem test_hide_outside : (after (.hide 1 2 1) hiding34).regs.err = 0x40 := by decide
/-- P1, command 5. -/
theorem test_hidec : (after .hidec hiding34).pixField 32 = 0x1A53C0 ∧
    (after .hidec hiding34).regs.chkValid = false := by decide +kernel
/-- P2, command 3. -/
theorem test_pull : (after .pull extracting34).regs.chkData = 0xA53C0 ∧ (after .pull extracting34).regs.chkLen = 20 ∧
    (after .pull extracting34).regs.rdPos = 1 := by decide +kernel
/-- P2, command 7: exhausted, no fault. -/
theorem test_pull_exhausted : (after .pull { extracting34 with regs := { extracting34.regs with rdPos := 2 } }).rsps =
    [⟨false, 0⟩] := by decide +kernel
/-- P5, commands 5 and 6, in the FAULTED block. -/
theorem test_rdreg_faulted :
    (onPacket 0x3F000040000000000000000000000000 { fresh with regs := { Regs.reset with err := 0x10 } }).rsps = [⟨true, 0x10⟩] ∧
    (onPacket 0x3F000000000000000000000000000000 { fresh with regs := { Regs.reset with err := 0x10 } }).rsps = [⟨true, 1⟩] := by
  decide
/-- P5, command 7, and section 2.8: an unimplemented number. -/
theorem test_rdreg_unimplemented :
    (onPacket 0x3F0001C0000000000000000000000000 { fresh with regs := { Regs.reset with err := 0x10 } }).regs.err = 0x10 ∧
    (onPacket 0x3F0001C0000000000000000000000000 fresh).regs.err = 0x80 := by decide
/-- Section 2.9: the PixWrite of pixel 3 fails, pixels 0 to 2 are rewritten. -/
theorem test_io_header_prefix : (List.range 5).map (fun i => (after (.enchdr 0) { image34 with
      ioErr := [.pixWrite 3] }).pixByte (headerPixel i) 2) = [0x56, 0x56, 0x56, 0x57, 0x57] ∧
    (after (.enchdr 0) { image34 with ioErr := [.pixWrite 3] }).regs.err = 0x08 := by decide +kernel
/-- Section 2.9: the second emit fails. -/
theorem test_io_emit : (after (.write 24 0xABCDEF) { fresh with ioErr := [.dstEmit 1] }).dst = [0xAB] ∧
    (after (.write 24 0xABCDEF) { fresh with ioErr := [.dstEmit 1] }).regs.dstCount = 0 := by decide

/-! ## For every statement with hypotheses, a state and operands that meet them

Each theorem is named after its statement, and takes each clause at the edge of its range. -/

theorem inv_fresh : fresh.regs.Inv := by constructor <;> decide
theorem inv_image34 : image34.regs.Inv := by constructor <;> decide
theorem inv_hiding34 : hiding34.regs.Inv := by constructor <;> decide
theorem inv_extracting34 : extracting34.regs.Inv := by constructor <;> decide
theorem inv_reading (h : c = 13 ∨ c = 32) (hk : k = 26 ∨ k = 39 ∨ k = 40) : (reading c k 2).regs.Inv := by
  rcases h with rfl | rfl <;> rcases hk with rfl | rfl | rfl <;> constructor <;> decide
theorem memoriesOk_image34 : image34.memoriesOk = true := by decide +kernel

theorem clean_of_none {s : State} (h : s.ioErr = []) (i : PixIndex) : pixelClean s i := by simp [pixelClean, h]
theorem header_clean_of_none {s : State} (h : s.ioErr = []) : headerClean s := fun _ _ => clean_of_none h _
theorem header_readable_of_none {s : State} (h : s.ioErr = []) : headerReadable s := by simp [headerReadable, h]
theorem emits_clean_of_none {s : State} (h : s.ioErr = []) (n : Nat) : emitsClean s n := by simp [emitsClean, h]
theorem chunk_readable_of_none {s : State} (h : s.ioErr = []) : chunkReadable s := by simp [chunkReadable, h]

/-- A FAULTED block. -/
def stopped : State := { fresh with regs := { Regs.reset with err := 0x10 } }

/-- A state with its next inputs. -/
def fed (s : State) (es : List Input) : State := { s with inputs := es }

/-- The state after one step. -/
def stepped (s : State) : State :=
  match step s with
  | .next t => t
  | .fault _ => s
  | .refused _ => s

/-- Rule R242, with rule R186's example: ENCHDR of 0 cut before it writes pixel 3. -/
theorem test_cut_short : let t := stepped (fed image34 [.cutShort 0x28000000000000000000000000000000 (.pixWrite 3)])
    t.pixByte 2 2 = 0x56 ∧ t.pixByte 3 2 = 0x57 ∧ t.regs = Regs.reset ∧ t.rsps = [] := by decide +kernel
/-- Rule R261: the host takes the first of two bytes, DST_COUNT is the block's own. -/
theorem test_host_dst : let t := stepped (fed (after (.write 16 0xA53C) fresh) [.hostDst [0x3C]])
    t.dst = [0x3C] ∧ t.regs.dstCount = 2 := by decide

theorem test_hyp_DecodeInvertsEncode : (Instr.mask 4 true 127).wellFormed = true ∧ (Instr.rdreg 0x22).wellFormed = true := by decide
theorem test_hyp_EncodeInvertsDecode : decode 0x2C00800000000001000000020000000C = .ok (.hide 4 0x100000002 0xC) := by decide
theorem test_hyp_StepRunsTheDecodedCommand : ∃ (s : State) (w : Packet) (rest : List Input) (i : Instr),
    s.inputs = .command w :: rest ∧ decode w = .ok i :=
  ⟨fed fresh [.command 0x1A000000000000000000000000000000, .reset], _, _, .wrclose, rfl, by decide⟩
theorem test_hyp_UndecodablePacketRaisesIllegal : decode 0 = .error .reservedOpcode ∧ fresh.regs.err = 0 ∧
    stopped.regs.err ≠ 0 := by decide
theorem test_hyp_EveryPacketGetsOneResponse : decode 0x3F000680000000000000000000000000 = .ok (.rdreg 0x1A) ∧
    Csr.ofNumber 0x1A = some .dstCount := by decide
theorem test_hyp_EveryPacketGetsOneResponse_other : ∀ p, decode 0 ≠ .ok (.rdreg p) := by decide
theorem test_hyp_IdleBlockAndHostAccesses : image34.memoriesOk = true ∧ image34.inputs = [] ∧
    (fed image34 [.hostSrc 0x1FFFFFFFFFFFFFFF 0xFF]).memoriesOk = true ∧
    (fed image34 [.hostPix 0xFFFFFFFFFFFFFFFF 3 0]).memoriesOk = true ∧ (fed image34 [.hostDst [0xFF]]).memoriesOk = true := by
  decide +kernel
theorem test_hyp_ResetClearsRegistersAndTouchesNoMemory : ∃ (s : State) (rest : List Input), s.inputs = .reset :: rest :=
  ⟨fed stopped [.reset], [], rfl⟩
/-- CutShortCommandLeavesItsEarlierWrites: ENCHDR cut before pixel 3, ENCBITS before its pixel, WRITE before its second emit,
WRITE before no access of its own. -/
theorem test_hyp_CutShortCommandLeavesItsEarlierWrites : ∃ (s u : State) (w : Packet) (a : Access) (rest : List Input),
    s.inputs = .cutShort w a :: rest ∧ s.memoriesOk = true ∧ execPacket w { s with inputs := rest } = .next u ∧
    a = .pixWrite 3 ∧ ∃ size, decode w = .ok (.enchdr size) ∨ decode w = .ok (.setuph size) :=
  ⟨fed image34 [.cutShort 0x28000000000000000000000000000000 (.pixWrite 3)],
    after (.enchdr 0) image34, 0x28000000000000000000000000000000, .pixWrite 3, [], rfl, by decide +kernel,
    exec_after (.enchdr 0) image34, rfl, 0, .inl (by decide)⟩
theorem test_hyp_CutShortCommandLeavesItsEarlierWrites_pixel : ∃ (s u : State) (w : Packet) (a : Access) (rest : List Input),
    s.inputs = .cutShort w a :: rest ∧ s.memoriesOk = true ∧ execPacket w { s with inputs := rest } = .next u ∧
    a = .pixRead 33 ∧ ¬ ∃ size, decode w = .ok (.enchdr size) ∨ decode w = .ok (.setuph size) := by
  refine ⟨fed image34 [.cutShort 0x21030000000000000000002100ABCDEF (.pixRead 33)], after (.encbits 24 0 33 0xABCDEF) image34,
    0x21030000000000000000002100ABCDEF, .pixRead 33, [], rfl, by decide +kernel, exec_after (.encbits 24 0 33 0xABCDEF) image34,
    rfl, ?_⟩
  rw [show decode 0x21030000000000000000002100ABCDEF = .ok (.encbits 24 0 33 0xABCDEF) by decide]
  simp
theorem test_hyp_CutShortCommandLeavesItsEarlierWrites_emit : ∃ (s u : State) (w : Packet) (k : Nat) (rest : List Input),
    s.inputs = .cutShort w (.dstEmit k) :: rest ∧ s.memoriesOk = true ∧ execPacket w { s with inputs := rest } = .next u ∧
    s.dst.length ≤ k :=
  ⟨fed (writing 0xAA 7) [.cutShort 0x180400000000000000000000DEADBEEF (.dstEmit 1)],
    after (.write 32 0xDEADBEEF) (writing 0xAA 7), 0x180400000000000000000000DEADBEEF, 1, [], rfl, by decide,
    exec_after (.write 32 0xDEADBEEF) (writing 0xAA 7), by decide⟩
theorem test_hyp_CutShortCommandLeavesItsEarlierWrites_whole : ∃ (s u : State) (w : Packet) (a : Access) (rest : List Input),
    s.inputs = .cutShort w a :: rest ∧ s.memoriesOk = true ∧ execPacket w { s with inputs := rest } = .next u ∧
    (∀ k, a = .dstEmit k → k < s.dst.length) ∧ ∀ q, a ≠ .pixRead q ∧ a ≠ .pixWrite q :=
  ⟨fed (writing 0xAA 7) [.cutShort 0x180400000000000000000000DEADBEEF (.srcRead 0)],
    after (.write 32 0xDEADBEEF) (writing 0xAA 7), 0x180400000000000000000000DEADBEEF, .srcRead 0, [], rfl, by decide,
    exec_after (.write 32 0xDEADBEEF) (writing 0xAA 7), nofun, fun _ => ⟨nofun, nofun⟩⟩
/-- FaultedBlockIgnoresAllButRdreg: an illegal packet, a legal one (WRCLOSE), a legal RDREG. -/
theorem test_hyp_FaultedBlockIgnoresAllButRdreg : stopped.regs.err ≠ 0 ∧ (∀ p, decode 0 ≠ .ok (.rdreg p)) ∧
    (∀ p, decode 0x1A000000000000000000000000000000 ≠ .ok (.rdreg p)) ∧
    decode 0x3F000880000000000000000000000000 = .ok (.rdreg 0x22) := by decide
theorem test_hyp_FaultsWriteOnlyErr : ∃ (s t : State) (i : Instr),
    s.regs.err = 0 ∧ exec i s = .next t ∧ t.regs.err ≠ 0 ∧ t.regs.err ≠ 0x08 :=
  ⟨fresh, _, .mask 0 false 9, rfl, exec_after _ _, by decide, by decide⟩
theorem test_hyp_FaultsWriteOnlyErr_io : ∃ (s t : State) (i : Instr), s.regs.err = 0 ∧ exec i s = .next t ∧ t.regs.err ≠ 0 :=
  ⟨{ fresh with ioErr := [.dstEmit 1] }, _, .write 24 0xABCDEF, rfl, exec_after _ _, by decide⟩
theorem test_hyp_CommandsRaiseOnlyTheirCauses : ∃ (s t : State) (i : Instr),
    i.wellFormed = true ∧ s.regs.err = 0 ∧ exec i s = .next t :=
  ⟨image34, _, .setuph 0x100000000, by decide, rfl, exec_after _ _⟩
theorem test_hyp_ProtocolFaultsExactlyOnMisuse : fresh.regs.err = 0 ∧ (Instr.setuph 1).wellFormed = true ∧
    protocolMisuse fresh.regs (.setuph 1) = true ∧ protocolMisuse image34.regs (.setuph 1) = false ∧
    protocolMisuse hiding34.regs (.setuph 1) = true := by decide
theorem test_hyp_OperandFaultsExactlyOutsideTheDomain : image34.regs.Inv ∧ image34.regs.err = 0 ∧
    (Instr.encbits 24 0 0 0xFFFFFF).wellFormed = true ∧ protocolMisuse image34.regs (.encbits 24 0 0 0xFFFFFF) = false ∧
    operandOutside image34.regs (.encbits 24 0 0 0xFFFFFF) = false ∧
    operandOutside image34.regs (.encbits 24 0 0 0x1000000) = true := ⟨inv_image34, by decide⟩
theorem test_hyp_BoundsFaultsExactlyOutsideTheImage : hiding34.regs.Inv ∧ hiding34.regs.err = 0 ∧
    (Instr.hide 1 2 1).wellFormed = true ∧ protocolMisuse hiding34.regs (.hide 1 2 1) = false ∧
    operandOutside hiding34.regs (.hide 1 2 1) = false ∧ outsideImage hiding34.regs (.hide 1 2 1) = true ∧
    outsideImage hiding34.regs (.hide 1 1 1) = false := ⟨inv_hiding34, by decide⟩

/-- SizeAndCapacityFaults on a 34x1 image (48 bits): sizes 7 and 2^32, and a header that reads all ones, are too much; a size
of 6, and a header that reads 5, are not. -/
theorem test_hyp_SizeAndCapacityFaults : image34.regs.err = 0 ∧
    24 * (image34.regs.imgW.toNat * image34.regs.imgH.toNat - 32) < 8 * (7 : BitVec 64).toNat ∧
    protocolMisuse image34.regs (.chunksz 7) = false ∧ protocolMisuse image34.regs (.setuph 7) = false ∧
    8 * (6 : BitVec 64).toNat ≤ 24 * (image34.regs.imgW.toNat * image34.regs.imgH.toNat - 32) ∧
    protocolMisuse image34.regs (.chunksz 6) = false ∧ protocolMisuse image34.regs (.setuph 6) = false ∧
    2 ^ 32 ≤ (0x100000000 : BitVec 64).toNat ∧ protocolMisuse image34.regs (.enchdr 0x100000000) = false ∧
    (0xFFFFFFFF : BitVec 64).toNat < 2 ^ 32 ∧ protocolMisuse image34.regs (.enchdr 0xFFFFFFFF) = false ∧
    headerReads image34 0xFFFFFFFF ∧ headerReadable image34 ∧
    24 * (image34.regs.imgW.toNat * image34.regs.imgH.toNat - 32) < 8 * (0xFFFFFFFF : BitVec 32).toNat ∧
    protocolMisuse image34.regs .setupx = false :=
  ⟨rfl, by decide, by decide, by decide, by decide, by decide, by decide, by decide, by decide, by decide, by decide,
    by unfold headerReads; decide +kernel, header_readable_of_none rfl, by decide, by decide⟩
theorem test_hyp_SizeAndCapacityFaults_fits : carrier34.regs.err = 0 ∧ protocolMisuse carrier34.regs .setupx = false ∧
    headerReadable carrier34 ∧ headerReads carrier34 5 ∧
    8 * (5 : BitVec 32).toNat ≤ 24 * (carrier34.regs.imgW.toNat * carrier34.regs.imgH.toNat - 32) :=
  ⟨rfl, by decide, header_readable_of_none rfl, by unfold headerReads; decide +kernel, by decide⟩
theorem test_hyp_ReservedOperandsRaiseIllegal : fresh.regs.err = 0 ∧ (Instr.mask 5 false 0).wellFormed = false := by decide
theorem test_hyp_OnlyResetLeavesFaulted : ∃ s t : State, s.regs.err ≠ 0 ∧ step s = .next t ∧ t.regs ≠ s.regs :=
  ⟨fed stopped [.reset], resetRegisters stopped, by decide, rfl, by decide⟩

/-! ### BitPacking -/

theorem test_hyp_MaskSetsExactlyTheLowBits : fresh.regs.err = 0 ∧ Width.ofSelect 2 = some .w24 ∧
    (24 : BitVec 7).toNat ≤ Width.w24.bits ∧ Width.ofSelect 4 = some .w64 ∧ (64 : BitVec 7).toNat ≤ Width.w64.bits := by decide
theorem test_hyp_GetbitsReadsTheFieldFromTheTop : fresh.regs.err = 0 ∧ Width.ofSelect 0 = some .w8 ∧
    (0xFF : BitVec 64).toNat < 2 ^ Width.w8.bits ∧ (7 : BitVec 7).toNat + (1 : BitVec 7).toNat ≤ Width.w8.bits := by decide
theorem test_hyp_ByteConversions : fresh.regs.err = 0 := rfl
theorem test_hyp_LjustMovesTheLowBitsUp : fresh.regs.err = 0 ∧ (24 : BitVec 7).toNat ≤ 24 ∧ (0 : BitVec 7).toNat ≤ 24 := by decide

/-! ### Reader and writer -/

theorem test_hyp_RdinitStartsANewReader : fresh.regs.err = 0 ∧ 1 ≤ (1 : BitVec 7).toNat ∧ (32 : BitVec 7).toNat ≤ 32 ∧
    (0x1FFFFFFFFFFFFFFF : BitVec 64).toNat < 2 ^ 61 ∧ (0 : BitVec 7).toNat < 1 ∧ 32 < (33 : BitVec 7).toNat ∧
    2 ^ 61 ≤ (0x2000000000000000 : BitVec 64).toNat := by decide
theorem test_hyp_RdchunkYieldsTheNextStreamBits : (reading 13 39 2).regs.Inv ∧ (reading 13 39 2).regs.err = 0 ∧
    (reading 13 39 2).regs.rdActive = true ∧
    (reading 13 39 2).regs.rdCursor.toNat < 8 * (reading 13 39 2).regs.srcLen.toNat ∧ chunkReadable (reading 13 39 2) :=
  ⟨inv_reading (.inl rfl) (.inr (.inl rfl)), rfl, rfl, by decide, chunk_readable_of_none rfl⟩
theorem test_hyp_RdchunkExhaustedOrFailing : (reading 13 40 2).regs.Inv ∧ (reading 13 40 2).regs.err = 0 ∧
    (reading 13 40 2).regs.rdActive = true ∧
    (reading 13 40 2).regs.rdCursor.toNat = 8 * (reading 13 40 2).regs.srcLen.toNat :=
  ⟨inv_reading (.inl rfl) (.inr (.inr rfl)), rfl, rfl, by decide⟩
theorem test_hyp_RdchunkExhaustedOrFailing_io : ∃ s : State, s.regs.Inv ∧ s.regs.err = 0 ∧ s.regs.rdActive = true ∧
    s.regs.rdCursor.toNat < 8 * s.regs.srcLen.toNat ∧ ¬ chunkReadable s :=
  ⟨{ reading 13 39 2 with ioErr := [.srcRead 4] }, inv_reading (.inl rfl) (.inr (.inl rfl)), rfl, rfl, by decide,
    fun h => h 4 (by decide) (by decide) (by decide)⟩
theorem test_hyp_WritersAppendTheChunksBits : hiding34.regs.err = 0 ∧ (32 : BitVec 7).toNat ≤ 32 ∧
    emitsClean hiding34 ((hiding34.regs.remLen.toNat + (32 : BitVec 7).toNat) / 8) ∧ hiding34.regs.chkValid = true ∧
    emitsClean hiding34 ((hiding34.regs.remLen.toNat + hiding34.regs.chkLen.toNat) / 8) :=
  ⟨rfl, by decide, emits_clean_of_none rfl _, rfl, emits_clean_of_none rfl _⟩

/-- FailingEmitKeepsTheBytesBefore: the second emit of WRITE and WRITEC, and the first of WRCLOSE. -/
theorem test_hyp_FailingEmitKeepsTheBytesBefore : ∃ s s' : State, s.regs.err = 0 ∧ emitsClean s 1 ∧
    Access.dstEmit (s.dst.length + 1) ∈ s.ioErr ∧ (24 : BitVec 7).toNat ≤ 32 ∧
    1 < (s.regs.remLen.toNat + (24 : BitVec 7).toNat) / 8 ∧ s.regs.chkValid = true ∧
    1 < (s.regs.remLen.toNat + s.regs.chkLen.toNat) / 8 ∧
    s'.regs.err = 0 ∧ emitsClean s' 0 ∧ Access.dstEmit (s'.dst.length + 0) ∈ s'.ioErr ∧ s'.regs.remLen ≠ 0 :=
  ⟨{ hiding34 with ioErr := [.dstEmit 1] }, { writing 0xA0 3 with ioErr := [.dstEmit 0] }, rfl,
    by unfold emitsClean; decide, by decide, by decide, by decide, rfl, by decide, rfl, by unfold emitsClean; decide, by decide,
    by decide⟩
theorem test_hyp_WrcloseFlushesTheRemainder : (writing 0 0).regs.err = 0 ∧ (writing 0 0).regs.remLen = 0 ∧
    (writing 0xB2 7).regs.remLen ≠ 0 ∧ emitsClean (writing 0xB2 7) 1 := ⟨rfl, rfl, by decide, emits_clean_of_none rfl _⟩

/-- ReadThenWriteCopiesTheStream: 26 bits of the payload written, two of them pending. -/
theorem test_hyp_ReadThenWriteCopiesTheStream : ∃ s : State, s.regs.Inv ∧ s.regs.err = 0 ∧ s.regs.rdActive = true ∧
    s.regs.rdCursor.toNat < 8 * s.regs.srcLen.toNat ∧ chunkReadable s ∧ emitsClean s 4 ∧
    writtenBits s = [] ++ srcBits s 0 s.regs.rdCursor.toNat :=
  ⟨{ reading 13 26 2 with
      dst := [0xA5, 0x3C, 0x0F], regs := { (reading 13 26 2).regs with remData := 0x80, remLen := 2 } },
    by constructor <;> decide, rfl, rfl, by decide, chunk_readable_of_none rfl, emits_clean_of_none rfl _, by decide +kernel⟩
theorem test_hyp_CloseAfterTheLastChunkLeavesTheSource : ∃ s : State, s.regs.err = 0 ∧
    writtenBits s = srcBits s 0 (8 * s.regs.srcLen.toNat) :=
  ⟨{ reading 13 40 4 with dst := [0xA5, 0x3C, 0x0F, 0x96, 0xC3] }, rfl, by decide +kernel⟩

/-! ### Image -/

theorem test_hyp_ImgcfgRecordsTheImage : extracting34.regs.err = 0 ∧ 32 ≤ (32 : BitVec 32).toNat ∧ 1 ≤ (1 : BitVec 32).toNat ∧
    ((4 : BitVec 7) = 3 ∨ (4 : BitVec 7) = 4) ∧ (31 : BitVec 32).toNat < 32 ∧ (0 : BitVec 32).toNat < 1 ∧
    ((2 : BitVec 7) ≠ 3 ∧ (2 : BitVec 7) ≠ 4) := by decide

/-- EncbitsReplacesTheLowBits: the last pixel, all 24 bits. -/
theorem test_hyp_EncbitsReplacesTheLowBits : image34.memoriesOk = true ∧ image34.regs.err = 0 ∧ (24 : BitVec 7).toNat ≤ 24 ∧
    (0xFFFFFF : BitVec 32).toNat < 2 ^ (24 : BitVec 7).toNat ∧ (33 : BitVec 32).toNat < image34.regs.imgW.toNat ∧
    (0 : BitVec 32).toNat < image34.regs.imgH.toNat ∧
    pixelClean image34 (pixelIndex (33 : BitVec 32).toNat (0 : BitVec 32).toNat image34.regs.imgW.toNat) :=
  ⟨memoriesOk_image34, rfl, by decide, by decide, by decide, by decide, clean_of_none rfl _⟩
theorem test_hyp_DecbitsReadsTheLowBits : image34.regs.err = 0 ∧ (24 : BitVec 7).toNat ≤ 24 ∧
    (33 : BitVec 32).toNat < image34.regs.imgW.toNat ∧ (0 : BitVec 32).toNat < image34.regs.imgH.toNat ∧
    Access.pixRead (pixelIndex (33 : BitVec 32).toNat (0 : BitVec 32).toNat image34.regs.imgW.toNat) ∉ image34.ioErr :=
  ⟨rfl, by decide, by decide, by decide, (clean_of_none rfl _).1⟩
theorem test_hyp_DecbitsReadsWhatEncbitsWrote : ∃ s t : State, s.memoriesOk = true ∧ s.regs.err = 0 ∧
    exec (.encbits 24 0 33 0xABCDEF) s = .next t ∧ t.regs.err = 0 :=
  ⟨image34, _, memoriesOk_image34, rfl, exec_after _ _, by decide +kernel⟩
theorem test_hyp_FailingPixelAccessStoresNothing : ∃ s : State, let i := pixelIndex 33 0 s.regs.imgW.toNat
    s.regs.err = 0 ∧ 33 < s.regs.imgW.toNat ∧ 0 < s.regs.imgH.toNat ∧ ¬ pixelClean s i ∧ Access.pixRead i ∈ s.ioErr :=
  ⟨{ image34 with ioErr := [.pixRead 33] }, rfl, by decide, by decide, fun h => h.1 (by decide), by decide⟩

/-- FailingPixelAccessStoresNothing, HIDE and HIDEC: the write of the latch's own chunk, on the first payload pixel. -/
theorem test_hyp_FailingPixelAccessStoresNothing_hide : ∃ s : State, s.regs.err = 0 ∧ s.regs.imgW ≠ 0 ∧
    s.regs.mode = .hide ∧ 20 ≤ 24 ∧ (0xA53C0 : BitVec 32).toNat < 2 ^ 20 ∧ 32 + 0 < s.regs.imgW.toNat * s.regs.imgH.toNat ∧
    ¬ pixelClean s (pixelIndex (getCoordinates 0 s.regs.imgW.toNat).1 (getCoordinates 0 s.regs.imgW.toNat).2
      s.regs.imgW.toNat) ∧
    (20 : BitVec 7).toNat = 20 ∧ (0 : BitVec 64).toNat = 0 ∧ s.regs.chkValid = true ∧ s.regs.chkData = 0xA53C0 ∧
    s.regs.chkLen.toNat = 20 ∧ s.regs.chkOrder.toNat = 0 :=
  ⟨{ hiding34 with ioErr := [.pixWrite 32] }, rfl, by decide, rfl, by decide, by decide, by decide, fun h => h.2 (by decide),
    by decide, by decide, rfl, rfl, by decide, by decide⟩
theorem test_hyp_GetcoordAnswersRowMajorCoordinates : (image 34 2 0).regs.err = 0 ∧ (image 34 2 0).regs.imgW ≠ 0 ∧
    32 + (35 : BitVec 64).toNat < (image 34 2 0).regs.imgW.toNat * (image 34 2 0).regs.imgH.toNat ∧
    (image 34 2 0).regs.imgW.toNat * (image 34 2 0).regs.imgH.toNat ≤ 32 + (36 : BitVec 64).toNat ∧
    fresh.regs.err = 0 ∧ fresh.regs.imgW = 0 := by decide
theorem test_hyp_GetcoordIsABijection : image34.regs.err = 0 ∧ image34.regs.imgW ≠ 0 ∧
    (32 : BitVec 32).toNat < image34.regs.imgW.toNat ∧ (0 : BitVec 32).toNat < image34.regs.imgH.toNat ∧
    32 ≤ (0 : BitVec 32).toNat * image34.regs.imgW.toNat + (32 : BitVec 32).toNat := by decide
theorem test_hyp_ChunkszAnswersTheDensity : image34.regs.err = 0 ∧ image34.regs.imgW ≠ 0 ∧ (6 : BitVec 64).toNat < 2 ^ 32 ∧
    8 * (6 : BitVec 64).toNat ≤ 24 * (image34.regs.imgW.toNat * image34.regs.imgH.toNat - 32) ∧
    (7 : BitVec 64).toNat < 2 ^ 32 ∧
    24 * (image34.regs.imgW.toNat * image34.regs.imgH.toNat - 32) < 8 * (7 : BitVec 64).toNat ∧
    8 * (0 : BitVec 64).toNat ≤ 24 * ((image 32 1 0).regs.imgW.toNat * (image 32 1 0).regs.imgH.toNat - 32) := by decide
theorem test_hyp_ChunksAtThatDensityFitTheImage : image34.regs.Inv ∧ image34.regs.err = 0 ∧ 0 < (6 : BitVec 64).toNat ∧
    exec (.chunksz 6) image34 = .next (completedWith image34 24) ∧ 1 * (24 : RegWord).toNat < 8 * (6 : BitVec 64).toNat :=
  ⟨inv_image34, rfl, by decide, rfl, by decide⟩

/-! ### Header and sessions -/

theorem test_hyp_EnchdrWritesTheHeader : image34.memoriesOk = true ∧ image34.regs.err = 0 ∧ image34.regs.imgW ≠ 0 ∧
    (0xFFFFFFFF : BitVec 64).toNat < 2 ^ 32 ∧ headerClean image34 :=
  ⟨memoriesOk_image34, rfl, by decide, by decide, header_clean_of_none rfl⟩
theorem test_hyp_HeaderRoundTrip : image34.memoriesOk = true ∧ image34.regs.err = 0 ∧ image34.regs.imgW ≠ 0 ∧
    (0xDEADBEEF : BitVec 64).toNat < 2 ^ 32 ∧ headerClean image34 :=
  ⟨memoriesOk_image34, rfl, by decide, by decide, header_clean_of_none rfl⟩

/-- FailingHeaderWriteLeavesAPrefix: the last header pixel fails, in ENCHDR and in SETUPH. -/
theorem test_hyp_FailingHeaderWriteLeavesAPrefix : ∃ s : State, s.memoriesOk = true ∧ s.regs.err = 0 ∧ s.regs.imgW ≠ 0 ∧
    (6 : BitVec 64).toNat < 2 ^ 32 ∧ s.regs.mode = .none ∧
    8 * (6 : BitVec 64).toNat ≤ 24 * (s.regs.imgW.toNat * s.regs.imgH.toNat - 32) ∧ 31 < 32 ∧
    (∀ p, p < 31 → pixelClean s (headerPixel p)) ∧ ¬ pixelClean s (headerPixel 31) :=
  ⟨{ image34 with ioErr := [.pixWrite 31] }, memoriesOk_image34, rfl, by decide, by decide, rfl, by decide, by decide,
    by unfold pixelClean; decide, fun h => h.2 (by decide)⟩
theorem test_hyp_DechdrReadsTheHeader : carrier34.regs.err = 0 ∧ carrier34.regs.imgW ≠ 0 ∧ headerReadable carrier34 ∧
    headerReads carrier34 5 :=
  ⟨rfl, by decide, header_readable_of_none rfl, by unfold headerReads; decide +kernel⟩
theorem test_hyp_DechdrReadsTheHeader_faults : fresh.regs.err = 0 ∧ fresh.regs.imgW = 0 ∧
    ∃ s : State, s.regs.err = 0 ∧ s.regs.imgW ≠ 0 ∧ ¬ headerReadable s :=
  ⟨rfl, rfl, { image34 with ioErr := [.pixRead 31] }, rfl, by decide, fun h => h 31 (by decide) (by decide)⟩
theorem test_hyp_SetuphStartsAHideSession : image34.memoriesOk = true ∧ image34.regs.err = 0 ∧ image34.regs.imgW ≠ 0 ∧
    image34.regs.mode = .none ∧ (6 : BitVec 64).toNat < 2 ^ 32 ∧
    8 * (6 : BitVec 64).toNat ≤ 24 * (image34.regs.imgW.toNat * image34.regs.imgH.toNat - 32) ∧ headerClean image34 :=
  ⟨memoriesOk_image34, rfl, by decide, rfl, by decide, by decide, header_clean_of_none rfl⟩
theorem test_hyp_SetupxStartsAnExtractSession : carrier34.regs.err = 0 ∧ carrier34.regs.imgW ≠ 0 ∧ carrier34.regs.mode = .none ∧
    headerReadable carrier34 ∧ headerReads carrier34 5 ∧
    8 * (5 : BitVec 32).toNat ≤ 24 * (carrier34.regs.imgW.toNat * carrier34.regs.imgH.toNat - 32) :=
  ⟨rfl, by decide, rfl, header_readable_of_none rfl, by unfold headerReads; decide +kernel, by decide⟩
theorem test_hyp_SetupxStartsAnExtractSession_io : ∃ s : State, s.regs.err = 0 ∧ s.regs.imgW ≠ 0 ∧ s.regs.mode = .none ∧
    ¬ headerReadable s :=
  ⟨{ image34 with ioErr := [.pixRead 0] }, rfl, by decide, rfl, fun h => h 0 (by decide) (by decide)⟩

/-- HidingStoresTheChunk: the latch's own chunk, so that both clauses are met, on the first payload pixel. -/
theorem test_hyp_HidingStoresTheChunk : hiding34.memoriesOk = true ∧ hiding34.regs.err = 0 ∧ hiding34.regs.imgW ≠ 0 ∧
    hiding34.regs.mode = .hide ∧ 20 ≤ 24 ∧ (0xA53C0 : BitVec 32).toNat < 2 ^ 20 ∧
    32 + 0 < hiding34.regs.imgW.toNat * hiding34.regs.imgH.toNat ∧
    pixelClean hiding34 (pixelIndex (getCoordinates 0 hiding34.regs.imgW.toNat).1
      (getCoordinates 0 hiding34.regs.imgW.toNat).2 hiding34.regs.imgW.toNat) ∧
    (20 : BitVec 7).toNat = 20 ∧ (0 : BitVec 64).toNat = 0 ∧ hiding34.regs.chkValid = true ∧
    hiding34.regs.chkData = 0xA53C0 ∧ hiding34.regs.chkLen.toNat = 20 ∧ hiding34.regs.chkOrder.toNat = 0 :=
  ⟨memoriesOk_image34, rfl, by decide, rfl, by decide, by decide, by decide, clean_of_none rfl _, by decide, by decide, rfl, rfl,
    by decide, by decide⟩
theorem test_hyp_PullYieldsTheNextHiddenChunk : extracting34.regs.Inv ∧ extracting34.regs.err = 0 ∧
    extracting34.regs.mode = .extract ∧
    extracting34.regs.rdPos.toNat * extracting34.regs.hidCsize.toNat < 8 * extracting34.regs.hidSize.toNat ∧
    Access.pixRead (BitVec.ofNat 64 (32 + extracting34.regs.rdPos.toNat)) ∉ extracting34.ioErr :=
  ⟨inv_extracting34, rfl, rfl, by decide, by decide⟩
theorem test_hyp_PullExhaustedOrFailing : ∃ s s' : State, s.regs.Inv ∧ s.regs.err = 0 ∧ s.regs.mode = .extract ∧
    8 * s.regs.hidSize.toNat ≤ s.regs.rdPos.toNat * s.regs.hidCsize.toNat ∧
    s'.regs.Inv ∧ s'.regs.err = 0 ∧ s'.regs.mode = .extract ∧
    s'.regs.rdPos.toNat * s'.regs.hidCsize.toNat < 8 * s'.regs.hidSize.toNat ∧
    Access.pixRead (BitVec.ofNat 64 (32 + s'.regs.rdPos.toNat)) ∈ s'.ioErr :=
  ⟨{ extracting34 with regs := { extracting34.regs with rdPos := 2 } }, { extracting34 with ioErr := [.pixRead 32] },
    by constructor <;> decide, rfl, rfl, by decide, inv_extracting34, rfl, rfl, by decide, by decide⟩
theorem test_hyp_PulledChunkIsTheHiddenChunk : ∃ s t u : State, s.memoriesOk = true ∧ s.regs.err = 0 ∧
    exec (.hide 20 0 0xA53C0) s = .next t ∧ t.regs.err = 0 ∧ u.regs.Inv ∧ u.regs.err = 0 ∧ u.regs.mode = .extract ∧
    u.pix = t.pix ∧ u.regs.imgW = s.regs.imgW ∧ u.regs.rdPos = 0 ∧ u.regs.hidCsize.toNat = (20 : BitVec 7).toNat ∧
    u.regs.rdPos.toNat * (20 : BitVec 7).toNat < 8 * u.regs.hidSize.toNat ∧
    Access.pixRead (BitVec.ofNat 64 (32 + (0 : BitVec 64).toNat)) ∉ u.ioErr :=
  ⟨hiding34, _, { extracting34 with pix := (after (.hide 20 0 0xA53C0) hiding34).pix }, memoriesOk_image34, rfl,
    exec_after _ _, by decide +kernel, inv_extracting34, rfl, rfl, rfl, rfl, rfl, by decide, by decide, by decide⟩
theorem test_hyp_HeaderAndPayloadDoNotOverlap : ∃ s t t' : State, s.memoriesOk = true ∧
    exec (.hide 1 0 1) s = .next t ∧ exec (.enchdr 0) s = .next t' ∧ t.pix ≠ s.pix ∧ t'.pix ≠ s.pix :=
  ⟨{ hiding34 with pix := grey 31 }, _, _, by decide +kernel, exec_after _ _, exec_after _ _, by decide +kernel,
    by decide +kernel⟩

/-- SessionModeMachine: each of its three moves is taken. -/
theorem test_hyp_SessionModeMachine : exec (.setuph 6) image34 = .next (after (.setuph 6) image34) ∧
    (after (.setuph 6) image34).regs.mode ≠ image34.regs.mode ∧
    exec .setupx carrier34 = .next (after .setupx carrier34) ∧
    (after .setupx carrier34).regs.mode ≠ carrier34.regs.mode ∧
    exec (.imgcfg 3 1 32) extracting34 = .next (after (.imgcfg 3 1 32) extracting34) ∧
    (after (.imgcfg 3 1 32) extracting34).regs.mode ≠ extracting34.regs.mode :=
  ⟨exec_after _ _, by decide +kernel, exec_after _ _, by decide +kernel, exec_after _ _, by decide⟩

theorem test_hyp_RdregReadsEveryRegister : 0x23 ∉ csrNumbers ∧ fresh.regs.err = 0 ∧ stopped.regs.err ≠ 0 := by decide

/-! ### The whole machine -/

theorem test_hyp_EveryStepKeepsTheRegisterInvariant : ∃ s t : State, s.regs.Inv ∧ step s = .next t ∧ t.regs ≠ s.regs :=
  ⟨fed extracting34 [.command 0x2E000000000000000000000000000000], after .pull extracting34, inv_extracting34,
    exec_after .pull extracting34, by decide +kernel⟩
theorem test_hyp_EveryStepKeepsTheMemoriesCanonical : ∃ s t : State, s.memoriesOk = true ∧ step s = .next t ∧ t.pix ≠ s.pix :=
  ⟨fed hiding34 [.command 0x2D000000000000000000000000000000], after .hidec hiding34, memoriesOk_image34,
    exec_after .hidec hiding34, by decide +kernel⟩
theorem test_hyp_CommandsStoreOnlyWhereTheyMay : ∃ (s t : State) (i : Instr), s.memoriesOk = true ∧ exec i s = .next t ∧
    t.dst ≠ s.dst :=
  ⟨hiding34, _, .writec, memoriesOk_image34, exec_after _ _, by decide⟩
theorem test_hyp_CommandsStoreOnlyWhereTheyMay_pix : ∃ (s t : State) (i : Instr), s.memoriesOk = true ∧ exec i s = .next t ∧
    ∃ (j : PixIndex) (ch : Nat), ch < 4 ∧ t.pixByte j ch ≠ s.pixByte j ch :=
  ⟨hiding34, _, .hidec, memoriesOk_image34, exec_after _ _, 32, 2, by decide, by decide +kernel⟩
theorem test_hyp_RegistersAreWrittenOnlyByTheirCommands : ∃ (s t : State) (i : Instr), exec i s = .next t ∧
    t.regs.res ≠ s.regs.res ∧ t.regs.chkData ≠ s.regs.chkData ∧ t.regs.chkValid ≠ s.regs.chkValid ∧
    t.regs.rdPos ≠ s.regs.rdPos :=
  ⟨extracting34, _, .pull, exec_after _ _, by decide +kernel, by decide +kernel, by decide +kernel, by decide +kernel⟩

end Sys2Proof.Tests
end

