-- ==== Sys2Proof/Proofs/Reset.lean ====
section
/-! Registers after reset (10_state.md rule R38). -/

namespace Sys2Proof.Machine

/-- All four fields of STATUS (10_state.md rule R27) are clear at reset. -/
@[simp] theorem Regs.reset_status : Regs.reset.status = 0 := by decide

/-- STATUS is the one register composed from others, so it goes through `Regs.reset_status`; every other read is a
stored 0, zero-extended. -/
@[simp] theorem Regs.reset_read (c : Csr) : Regs.reset.read c = 0 := by
  cases c with
  | status => simp [Regs.read]
  | err | res | chkData | chkLen | chkOrder | imgW | imgH | imgCh | srcLen | rdCsize | rdCursor | rdOrder | remData
  | remLen | dstCount | hidSize | hidCsize | rdPos => rfl

/-- The reset state holds the reset registers. -/
@[simp] theorem State.reset_regs : State.reset.regs = Regs.reset := rfl

/-- Settles O10: both resets hold `Regs.reset`, which reads 0 everywhere, and `resetRegisters` keeps the memories. -/
theorem everyRegisterReadsZeroAfterReset : Obligations.EveryRegisterReadsZeroAfterReset := by
  refine ⟨fun c => ?initial, fun s => ⟨fun c => ?fromAny, resetRegisters_src s, resetRegisters_dst s,
    resetRegisters_pix s⟩⟩
  case initial => rw [State.reset_regs, Regs.reset_read]
  case fromAny => rw [resetRegisters_regs, Regs.reset_read]

end Sys2Proof.Machine
end

section
/-! The opcode table against the decoder (30_encoding.md rules R95 and R96). -/

namespace Sys2Proof

/-! ## The opcode table's rows, by field -/

/-- The bits that a command's packet must have as its opcode gives them (30_encoding.md rule R96), by field: `op` and `rsv`
whole, and whatever the command does not use. -/
def Opcode.fixedFields (o : Opcode) : Fields where
  op   := BitVec.allOnes 8
  wsel := if o.uses.wsel then 0 else BitVec.allOnes 3
  inv  := if o.uses.inv then 0 else BitVec.allOnes 1
  n    := if o.uses.n then 0 else BitVec.allOnes 7
  p    := if o.uses.p then 0 else BitVec.allOnes 7
  rsv  := BitVec.allOnes 6
  hi   := if o.uses.hi then 0 else BitVec.allOnes 32
  lo   := ~~~o.uses.lo

/-- Bitwise and, field by field. -/
def Fields.and (f g : Fields) : Fields where
  op   := f.op &&& g.op
  wsel := f.wsel &&& g.wsel
  inv  := f.inv &&& g.inv
  n    := f.n &&& g.n
  p    := f.p &&& g.p
  rsv  := f.rsv &&& g.rsv
  hi   := f.hi &&& g.hi
  lo   := f.lo &&& g.lo

theorem Fields.toPacket_and (f g : Fields) : (f.and g).toPacket = f.toPacket &&& g.toPacket := by
  apply BitVec.eq_of_getLsbD_eq
  intro j _
  rw [BitVec.getLsbD_and, Fields.toPacket_getLsbD, Fields.toPacket_getLsbD, Fields.toPacket_getLsbD]
  split_ifs <;> exact BitVec.getLsbD_and

/-- The `mask` column of the opcode table is the must-be-fixed bits of the command's fields. -/
theorem tableMask_eq (o : Opcode) : Machine.tableMask o = o.fixedFields.toPacket := by
  cases o <;> decide

/-- The `match` column of the opcode table is the packet that holds the code and nothing else. -/
theorem tableMatch_eq (o : Opcode) : Machine.tableMatch o = o.bare.toPacket := by
  cases o <;> decide

/-- A field under its part of the mask: free where it is used, zero where it is not. -/
theorem and_fixed_eq_zero_iff {k : Nat} (x : BitVec k) (used : Bool) :
    x &&& (if used then 0 else BitVec.allOnes k) = 0 ↔ used = true ∨ x = 0 := by
  cases used <;> simp

/-- The fields agree with a row of the opcode table exactly when they pass tests (1) to (3) of 30_encoding.md rule R95. -/
theorem Fields.and_fixedFields_iff (f : Fields) (o : Opcode) :
    f.and o.fixedFields = o.bare ↔ f.op = o.code ∧ f.rsv = 0 ∧ f.unusedZero o.uses = true := by
  simp only [Fields.and, Opcode.fixedFields, Opcode.bare, Fields.mk.injEq, and_fixed_eq_zero_iff, BitVec.and_allOnes,
    Fields.unusedZero_iff]
  tauto

/-- A packet agrees with a row of the opcode table exactly when its fields pass tests (1) to (3) for that mnemonic. -/
theorem matchesRow_iff (w : Packet) (o : Opcode) :
    w &&& Machine.tableMask o = Machine.tableMatch o ↔
      (Fields.ofPacket w).op = o.code ∧ (Fields.ofPacket w).rsv = 0 ∧ (Fields.ofPacket w).unusedZero o.uses = true := by
  rw [← Fields.and_fixedFields_iff, tableMask_eq, tableMatch_eq]
  conv_lhs => rw [← Fields.toPacket_ofPacket w, ← Fields.toPacket_and]
  exact ⟨Fields.toPacket_inj, congrArg _⟩

/-! ## The operands -/

/-- The operands read for a mnemonic are those of a command with that mnemonic. -/
theorem operandsOf_opcode {o : Opcode} {f : Fields} {i : Instr} (h : operandsOf o f = .ok i) : i.opcode = o := by
  cases o <;> simp only [operandsOf] at h
  case mask | getbits | rdreg => split at h <;> cases h; rfl
  all_goals cases h; rfl

/-- Tests (4) and (5) of 30_encoding.md rule R95 are the only ones the operands themselves can fail. -/
theorem exists_operandsOf_iff (o : Opcode) (f : Fields) :
    (∃ i, operandsOf o f = .ok i) ↔
      (o = .mask ∨ o = .getbits → f.wsel.toNat ≤ 4) ∧ (o = .rdreg → f.p ∈ csrNumbers) := by
  have width : (Width.ofSelect f.wsel).isSome = true ↔ f.wsel.toNat ≤ 4 := by
    rw [Width.ofSelect_isSome, widthSelectOk, decide_eq_true_iff]
  have csr : (Csr.ofNumber f.p).isSome = true ↔ f.p ∈ csrNumbers := by
    rw [Csr.ofNumber_isSome, csrNumberOk, List.contains_iff_mem]
  cases o
  case mask | getbits => cases h : Width.ofSelect f.wsel <;> simpa [operandsOf, h] using width
  case rdreg => cases h : Csr.ofNumber f.p <;> simpa [operandsOf, h] using csr
  all_goals simp [operandsOf]

/-- Which packets decode to a command of a mnemonic: those of its row whose operands pass. -/
theorem decode_opcode_iff (w : Packet) (o : Opcode) :
    (∃ i, decode w = .ok i ∧ i.opcode = o) ↔
      w &&& Machine.tableMask o = Machine.tableMatch o ∧ ∃ i, operandsOf o (Fields.ofPacket w) = .ok i := by
  rw [matchesRow_iff]
  constructor
  · rintro ⟨i, hd, rfl⟩
    obtain ⟨hr, o, ho, hz, hi⟩ := decodeFields_ok hd
    obtain rfl := operandsOf_opcode hi
    exact ⟨⟨(Opcode.code_of_ofCode ho).symm, hr, hz⟩, i, hi⟩
  · rintro ⟨⟨ho, hr, hz⟩, i, hi⟩
    have hc : Opcode.ofCode (Fields.ofPacket w).op = some o := by rw [ho, Opcode.ofCode_code]
    exact ⟨i, (decodeFields_eq hr hc hz).trans hi, operandsOf_opcode hi⟩

/-- Settles O4: agreement with the row is tests (1) to (3) of rule R95, the other two clauses are tests (4) and (5). -/
theorem decodeAcceptsExactlyTheTableRows : Obligations.DecodeAcceptsExactlyTheTableRows := by
  intro w o
  rw [decode_opcode_iff, exists_operandsOf_iff]
  rfl

end Sys2Proof
end

section
/-! The response to each packet (30_encoding.md rule R100). -/

namespace Sys2Proof.Machine

/-- The effect of a packet other than a legal RDREG as its port sees it (30_encoding.md rule R100): one response is
appended, `fault` is FAULTED afterwards, and `data` is 0 on a fault, else the new RES where the command writes it, else 0. -/
def AnswersOnce (writes : Bool) (s t : State) : Prop :=
  t.rsps = s.rsps ++ [⟨t.regs.faulted, if t.regs.faulted then 0 else if writes then t.regs.res else 0⟩]

theorem answersOnce_ignored {s : State} (he : s.regs.err ≠ 0) (writes : Bool) : AnswersOnce writes s (ignored s) := by
  simp [AnswersOnce, ignored, faulted_eq_true he]

theorem answersOnce_faultedWith {s t : State} (ht : t.rsps = s.rsps) {e : BitVec 8} (he : e ≠ 0) (writes : Bool) :
    AnswersOnce writes s (faultedWith t e) := by
  have hf : ({ t.regs with err := e } : Regs).faulted = true := faulted_eq_true he
  simp [AnswersOnce, faultedWith, ht, hf]

theorem answersOnce_completed {s t : State} (ht : t.rsps = s.rsps) {r : Regs} (he : r.err = 0) {d : RegWord} {writes : Bool}
    (hd : d = if writes then r.res else 0) : AnswersOnce writes s (completed t r d) := by
  simp [AnswersOnce, completed, ht, faulted_eq_false he, hd]

theorem answersOnce_completedWith {s t : State} (ht : t.rsps = s.rsps) (he : t.regs.err = 0) (v : RegWord) :
    AnswersOnce true s (completedWith t v) :=
  answersOnce_completed ht (by exact he) rfl

/-! ## Accesses

They give no response of their own. -/

/-- The accesses have given no response and left ERR alone; if they failed, it was with a cause. -/
def Attempt.Silent (s : State) : Attempt → Prop
  | .ok t => t.rsps = s.rsps ∧ t.regs.err = s.regs.err
  | .fails causes t => causeBits causes ≠ 0 ∧ t.rsps = s.rsps ∧ t.regs.err = s.regs.err

theorem causeBits_one_ne_zero (c : Cause) : causeBits [c] ≠ 0 := by cases c <;> decide

theorem writeChunk_silent (data : BitVec 32) (n : Nat) (s : State) : (writeChunk data n s).Silent s := by
  rcases writeChunk_outcome data n s with ⟨_, _, _, _, -, h⟩ | ⟨_, h⟩
  · rw [h]; exact ⟨rfl, rfl⟩
  · rw [h]; exact ⟨causeBits_one_ne_zero _, rfl, rfl⟩

theorem flushRemainder_silent (s : State) : (flushRemainder s).Silent s := by
  rcases flushRemainder_outcome s with ⟨_, _, h⟩ | ⟨_, h⟩
  · rw [h]; exact ⟨rfl, rfl⟩
  · rw [h]; exact ⟨causeBits_one_ne_zero _, rfl, rfl⟩

theorem modifyPixel_silent (i : PixIndex) (f : Field24 → Field24) (s : State) : (modifyPixel i f s).Silent s := by
  rcases modifyPixel_outcome i f s with ⟨_, h⟩ | h
  · rw [h]; exact ⟨rfl, rfl⟩
  · rw [h]; exact ⟨causeBits_one_ne_zero _, rfl, rfl⟩

theorem hideData_silent (data : BitVec 32) (length order : Nat) (s : State) : (hideData data length order s).Silent s := by
  rcases hideData_outcome data length order s with ⟨_, h⟩ | ⟨_, -, h⟩
  · rw [h]; exact ⟨rfl, rfl⟩
  · rw [h]; exact ⟨causeBits_one_ne_zero _, rfl, rfl⟩

theorem encodeHeader_silent (v : BitVec 32) (s : State) : (encodeHeader v s).Silent s := by
  rcases encodeHeader_outcome v s with ⟨_, h | h⟩
  · rw [h]; exact ⟨rfl, rfl⟩
  · rw [h]; exact ⟨causeBits_one_ne_zero _, rfl, rfl⟩

/-- A command that ends in accesses answers once when its completion does. -/
theorem answersOnce_settle {s : State} (he : s.regs.err = 0) {a : Attempt} (ha : a.Silent s) {writes : Bool}
    {finish : State → State}
    (hf : ∀ t : State, t.rsps = s.rsps → t.regs.err = 0 → AnswersOnce writes s (finish t)) :
    AnswersOnce writes s (a.settle finish) := by
  cases a with
  | ok t =>
    obtain ⟨hr, ht⟩ := ha
    exact hf t hr (ht.trans he)
  | fails causes t =>
    obtain ⟨hc, hr, ht⟩ := ha
    rw [Attempt.settle_fails, raise_of_clear (ht.trans he) _ hc]
    exact answersOnce_faultedWith hr hc _

/-- The completion of a command that does not write RES, whatever other registers it wrote before. -/
theorem answersOnce_respond {s t : State} (ht : t.rsps = s.rsps) (he : t.regs.err = 0) :
    AnswersOnce false s (respond 0 t) := by
  rw [respond_of_clear he]
  exact answersOnce_completed ht he rfl

theorem answersOnce_answer {s t : State} (ht : t.rsps = s.rsps) (he : t.regs.err = 0) (v : RegWord) :
    AnswersOnce true s (answer v t) := by
  rw [answer_of_clear he]
  exact answersOnce_completedWith ht he v

/-! ## Commands -/

/-- A guard of a command: either it faults with the ERR value `e`, or what follows answers once. -/
theorem answersOnce_guard {s t : State} {c : Prop} [Decidable c] {e : BitVec 8} {writes : Bool}
    (ht : AnswersOnce writes s t) (he : c → e ≠ 0 := by intro _; decide) :
    AnswersOnce writes s (if c then faultedWith s e else t) := by
  split_ifs with hc
  · exact answersOnce_faultedWith rfl (he hc) writes
  · exact ht

/-- Every command but RDREG answers once in a block that is not FAULTED: its guards in turn, then a fault of its reads, or its
completion, or the accesses it ends in. -/
theorem exec_answersOnce_of_clear {s : State} (he : s.regs.err = 0) {i : Instr} (hi : ∀ p, i ≠ .rdreg p) :
    ∃ t, exec i s = .next t ∧ AnswersOnce (writesRes i) s t := by
  have ioFault : ∀ writes, AnswersOnce writes s (faultedWith s 0x08) := answersOnce_faultedWith rfl (by decide)
  have value : ∀ v, AnswersOnce true s (completedWith s v) := answersOnce_completedWith rfl he
  have completes : ∀ {r : Regs} {d : RegWord} {writes : Bool}, r.err = s.regs.err → d = (if writes then r.res else 0) →
      AnswersOnce writes s (completed s r d) := fun hr => answersOnce_completed rfl (hr.trans he)
  cases i with
  | mask wsel inv n =>
    refine ⟨_, exec_mask_eq he .., ?_⟩
    cases Width.ofSelect wsel with
    | none => exact answersOnce_faultedWith rfl (by decide) _
    | some w => exact answersOnce_guard (value _)
  | getbits wsel n p src =>
    refine ⟨_, exec_getbits_eq he .., ?_⟩
    cases Width.ofSelect wsel with
    | none => exact answersOnce_faultedWith rfl (by decide) _
    | some w => exact answersOnce_guard (answersOnce_guard (value _))
  | b2u24 b0 b1 b2 => exact ⟨_, exec_b2u24_eq he .., value _⟩
  | u24b x => exact ⟨_, exec_u24b_eq he .., value _⟩
  | ljust n data => exact ⟨_, exec_ljust_eq he .., answersOnce_guard (value _)⟩
  | rdinit n srclen =>
    exact ⟨_, exec_rdinit_eq he .., answersOnce_guard (answersOnce_guard (completes rfl rfl))⟩
  | rdchunk =>
    refine ⟨_, exec_rdchunk_eq he, answersOnce_guard ?_⟩
    split_ifs
    · exact completes rfl rfl
    · cases srcReadAll (spanAddresses s.regs.rdCursor.toNat (nextChunkLength s.regs)) s with
      | none => exact ioFault _
      | some bytes => exact completes rfl rfl
  | write n data =>
    exact ⟨_, exec_write_eq he .., answersOnce_guard <|
      answersOnce_settle he (writeChunk_silent ..) fun _ => answersOnce_respond⟩
  | writec =>
    exact ⟨_, exec_writec_eq he, answersOnce_guard <|
      answersOnce_settle he (writeChunk_silent ..) fun _ hr ht => answersOnce_respond (by exact hr) (by exact ht)⟩
  | wrclose =>
    exact ⟨_, exec_wrclose_eq he, answersOnce_settle he (flushRemainder_silent s) fun _ => answersOnce_respond⟩
  | imgcfg n height width =>
    exact ⟨_, exec_imgcfg_eq he .., answersOnce_guard (answersOnce_guard (completes rfl rfl))⟩
  | encbits n y x bits =>
    exact ⟨_, exec_encbits_eq he .., answersOnce_guard <| answersOnce_guard <| answersOnce_guard <| answersOnce_guard <|
      answersOnce_settle he (modifyPixel_silent ..) fun _ => answersOnce_respond⟩
  | decbits n y x =>
    refine ⟨_, exec_decbits_eq he .., answersOnce_guard (answersOnce_guard (answersOnce_guard ?_))⟩
    cases readField (pixelIndex x.toNat y.toNat s.regs.imgW.toNat) s with
    | none => exact ioFault _
    | some F => exact value _
  | getcoord order => exact ⟨_, exec_getcoord_eq he .., answersOnce_guard (answersOnce_guard (value _))⟩
  | chunksz size => exact ⟨_, exec_chunksz_eq he .., answersOnce_guard (answersOnce_guard (value _) id)⟩
  | enchdr size =>
    exact ⟨_, exec_enchdr_eq he .., answersOnce_guard <| answersOnce_guard <|
      answersOnce_settle he (encodeHeader_silent ..) fun _ => answersOnce_respond⟩
  | dechdr =>
    refine ⟨_, exec_dechdr_eq he, answersOnce_guard ?_⟩
    cases decodeHeader s with
    | none => exact ioFault _
    | some v => exact value _
  | setuph size =>
    refine ⟨_, exec_setuph_eq he .., answersOnce_guard (answersOnce_guard (answersOnce_guard ?_ id))⟩
    exact answersOnce_settle he (encodeHeader_silent ..) fun _ hr ht => answersOnce_answer (by exact hr) (by exact ht) _
  | setupx =>
    refine ⟨_, exec_setupx_eq he, answersOnce_guard (answersOnce_guard ?_)⟩
    cases decodeHeader s with
    | none => exact ioFault _
    | some v => exact answersOnce_guard (completes rfl rfl)
  | hide n order data =>
    exact ⟨_, exec_hide_eq he .., answersOnce_guard <| answersOnce_guard <|
      answersOnce_settle he (hideData_silent ..) fun _ => answersOnce_respond⟩
  | hidec =>
    exact ⟨_, exec_hidec_eq he, answersOnce_guard <| answersOnce_guard <| answersOnce_guard <|
      answersOnce_settle he (hideData_silent ..) fun _ hr ht => answersOnce_respond (by exact hr) (by exact ht)⟩
  | pull =>
    refine ⟨_, exec_pull_eq he, answersOnce_guard (answersOnce_guard ?_)⟩
    split_ifs
    · cases readField (BitVec.ofNat 64 (32 + s.regs.rdPos.toNat)) s with
      | none => exact ioFault _
      | some F => exact completes rfl rfl
    · exact completes rfl rfl
  | rdreg p => exact absurd rfl (hi p)

/-- Every command but RDREG answers once, FAULTED or not. -/
theorem exec_answersOnce (s : State) {i : Instr} (hi : ∀ p, i ≠ .rdreg p) :
    ∃ t, exec i s = .next t ∧ AnswersOnce (writesRes i) s t := by
  by_cases he : s.regs.err = 0
  · exact exec_answersOnce_of_clear he hi
  · exact ⟨_, exec_of_faulted he hi, answersOnce_ignored he _⟩

/-! ## Packets -/

/-- An illegal packet answers once, FAULTED or not (60_exceptions.md rules R219, R221). -/
theorem illegalPacket_answersOnce (s : State) : AnswersOnce false s (illegalPacket s) := by
  by_cases he : s.regs.err = 0
  · rw [illegalPacket, faulted_eq_false he, if_neg Bool.false_ne_true, raise_one he]
    exact answersOnce_faultedWith rfl (by decide) _
  · rw [illegalPacket, faulted_eq_true he, if_pos rfl]
    simp [AnswersOnce, faulted_eq_true he]

theorem execPacket_of_ok {w : Packet} {i : Instr} (h : decode w = .ok i) (s : State) : execPacket w s = exec i s := by
  simp only [execPacket, h]

theorem execPacket_of_error {w : Packet} {r : Reject} (h : decode w = .error r) (s : State) :
    execPacket w s = .next (illegalPacket s) := by
  simp only [execPacket, h]

/-- Every packet but a legal RDREG answers once. -/
theorem execPacket_answersOnce (s : State) {w : Packet} (hw : ∀ p, decode w ≠ .ok (.rdreg p)) :
    ∃ t, execPacket w s = .next t ∧ AnswersOnce ((decode w).toOption.any writesRes) s t := by
  cases hd : decode w with
  | error r => exact ⟨_, execPacket_of_error hd s, illegalPacket_answersOnce s⟩
  | ok i =>
    rw [execPacket_of_ok hd]
    exact exec_answersOnce s fun p hi => hw p (hi ▸ hd)

/-- A packet that decodes to RDREG names a register (30_encoding.md rule R95 (5)). -/
theorem csrNumber_of_decode {w : Packet} {p : BitVec 7} (h : decode w = .ok (.rdreg p)) : ∃ c, Csr.ofNumber p = some c := by
  obtain ⟨-, o, -, -, hi⟩ := decodeFields_ok h
  obtain rfl := operandsOf_opcode hi
  simp only [Instr.opcode, operandsOf] at hi
  split at hi
  · rename_i c hc
    cases hi
    exact ⟨c, hc⟩
  · cases hi

/-- A legal RDREG answers once, with the register's value (45_system.md rule R210). -/
theorem exec_rdreg_eq {p : BitVec 7} {c : Csr} (hc : Csr.ofNumber p = some c) (s : State) :
    exec (.rdreg p) s = .next (respond (s.regs.read c) s) := by
  simp only [exec, execRdreg, hc]

/-- Settles O8: a legal RDREG by its own equation, every other packet because it answers once. -/
theorem everyPacketGetsOneResponse : Obligations.EveryPacketGetsOneResponse := by
  intro s w
  have fault_iff : ∀ t : State, t.regs.faulted = true ↔ t.regs.err ≠ 0 := fun t => by simp [Regs.faulted]
  by_cases hw : ∃ p, decode w = .ok (.rdreg p)
  · obtain ⟨p, hp⟩ := hw
    obtain ⟨c, hc⟩ := csrNumber_of_decode hp
    refine ⟨_, _, (execPacket_of_ok hp s).trans (exec_rdreg_eq hc s), respond_rsps .., fault_iff s, ?_, ?_⟩
    · intro p' c' hp' hc'
      obtain rfl : p = p' := by simpa [hp] using hp'
      obtain rfl : c = c' := by simpa [hc] using hc'
      rfl
    · exact fun h => absurd hp (h p)
  · simp only [not_exists] at hw
    obtain ⟨t, ht, hr⟩ := execPacket_answersOnce s hw
    exact ⟨t, _, ht, hr, fault_iff t, fun p _ hp => absurd hp (hw p), fun _ => rfl⟩

end Sys2Proof.Machine
end

section
/-! The answers of MASK, GETBITS and LJUST bit by bit (40_bitpacking.md rules R120 to R123, R126, R127). -/

namespace Sys2Proof

/-- Every width fits RES. -/
theorem Width.bits_le_64 (w : Width) : w.bits ≤ 64 := by cases w <;> decide

end Sys2Proof

namespace Sys2Proof.Machine

/-- A register at least `k` bits wide holds the bits of a number below `2 ^ k`, such as an answer in RES. -/
theorem getLsbD_ofNat_of_lt {x k n : Nat} (hx : x < 2 ^ k) (hk : k ≤ n) (i : Nat) :
    (BitVec.ofNat n x).getLsbD i = x.testBit i := by
  have hn : x < 2 ^ n := hx.trans_le (Nat.pow_le_pow_right (by decide) hk)
  rw [← BitVec.testBit_toNat, BitVec.toNat_ofNat, Nat.mod_eq_of_lt hn]

theorem getBitsValue_lt (W source position length : Nat) : getBitsValue W source position length < 2 ^ length :=
  Nat.and_lt_two_pow _ (Nat.sub_lt (Nat.two_pow_pos length) (by decide))

theorem leftJustifyValue_lt (data length : Nat) : leftJustifyValue data length < 2 ^ 24 :=
  Nat.mod_lt _ (by decide)

/-- Settles O22: the mask is below `2 ^ W`, so RES holds its bits, and those are `maskValue_testBit`. -/
theorem maskSetsExactlyTheLowBits : Obligations.MaskSetsExactlyTheLowBits := by
  intro s wsel w inv n he hw hn
  refine ⟨BitVec.ofNat 64 (maskValue w.bits n.toNat inv), ?_, fun i => ?_⟩
  · simp only [exec_mask_eq he, hw, if_neg hn.not_gt]
  · rw [getLsbD_ofNat_of_lt (maskValue_lt hn inv) w.bits_le_64, maskValue_testBit hn]

/-- Settles O23: the field is below `2 ^ length`, so RES holds its bits, and those are `getBitsValue_testBit`. -/
theorem getbitsReadsTheFieldFromTheTop : Obligations.GetbitsReadsTheFieldFromTheTop := by
  intro s wsel w n p src he hw hsrc hpn
  have hn : n.toNat ≤ 64 := (Nat.le_of_add_left_le hpn).trans w.bits_le_64
  refine ⟨BitVec.ofNat 64 (getBitsValue w.bits src.toNat p.toNat n.toNat), ?_, fun i => ?_⟩
  · simp only [exec_getbits_eq he, hw, if_neg hsrc.not_ge, if_neg hpn.not_gt]
  · rw [getLsbD_ofNat_of_lt (getBitsValue_lt ..) hn, getBitsValue_testBit, BitVec.testBit_toNat]

/-- Settles O25: the value is below `2 ^ 24`, so RES holds its bits, and those are `leftJustifyValue_testBit`. -/
theorem ljustMovesTheLowBitsUp : Obligations.LjustMovesTheLowBitsUp := by
  intro s n data he hn
  refine ⟨BitVec.ofNat 64 (leftJustifyValue data.toNat n.toNat), ?_, fun i => ?_⟩
  · rw [exec_ljust_eq he, if_neg hn.not_gt]
  · rw [getLsbD_ofNat_of_lt (leftJustifyValue_lt ..) (by decide), leftJustifyValue_testBit, BitVec.testBit_toNat]

end Sys2Proof.Machine
end

section
/-! RDINIT (41_chunk_reader.md rule R141). -/

namespace Sys2Proof.Machine

/-- Settles O26: a chunk size from 1 to 32 and a length below 2^61 pass both guards of `exec_rdinit_eq`, and one outside
fails its own guard. -/
theorem rdinitStartsANewReader : Obligations.RdinitStartsANewReader := by
  intro s n srclen he
  rw [exec_rdinit_eq he]
  refine ⟨fun hmin hmax hlen => ?completes, fun hout => ?faults⟩
  case completes =>
    have hsize : ¬ (n.toNat < 1 ∨ 32 < n.toNat) := not_or.mpr ⟨hmin.not_gt, hmax.not_gt⟩
    rw [if_neg hsize, if_neg hlen.not_ge, BitVec.ofNat_toNat]
  case faults =>
    by_cases hsize : n.toNat < 1 ∨ 32 < n.toNat
    · rw [if_pos hsize]
    · have hlen : 2 ^ 61 ≤ srclen.toNat := (or_assoc.mpr hout).resolve_left hsize
      rw [if_neg hsize, if_pos hlen]

end Sys2Proof.Machine
end

section
/-! IMGCFG, GETCOORD and CHUNKSZ (43_pixel_codec.md rules R165, R169 to R173). -/

namespace Sys2Proof.Machine

/-! ## IMGCFG -/

/-- Settles O34: an image within R165's domain passes both guards of `exec_imgcfg_eq`, and one outside fails its shape guard or
its channel guard. -/
theorem imgcfgRecordsTheImage : Obligations.ImgcfgRecordsTheImage := by
  intro s n height width he
  rw [exec_imgcfg_eq he]
  refine ⟨fun hwidth hheight hn => ?completes, fun hout => ?faults⟩
  case completes =>
    have hshape : ¬ (width.toNat < 32 ∨ height.toNat < 1) := not_or.mpr ⟨hwidth.not_gt, hheight.not_gt⟩
    have hchannels : ¬ (n ≠ 3 ∧ n ≠ 4) := by rwa [not_and_or, not_not, not_not]
    rw [if_neg hshape, if_neg hchannels, BitVec.ofNat_toNat]
  case faults =>
    by_cases hshape : width.toNat < 32 ∨ height.toNat < 1
    · rw [if_pos hshape]
    · rw [if_neg hshape, if_pos ((or_assoc.mpr hout).resolve_left hshape)]

/-! ## GETCOORD -/

/-- R169: a pixel of the image has its coordinates inside the image. -/
theorem getCoordinates_inside {order W H : Nat} (h : 32 + order < W * H) :
    (getCoordinates order W).1 < W ∧ (getCoordinates order W).2 < H := by
  have hW : 0 < W := Nat.pos_of_mul_pos_right (Nat.zero_lt_of_lt h)
  exact ⟨Nat.mod_lt _ hW, not_le.mp fun hout => h.not_ge ((getCoordinates_outside hW).mp hout)⟩

/-- GETCOORD on a configured image, with the coordinates by their name. -/
theorem exec_getcoord_of_configured {s : State} (he : s.regs.err = 0) (hW : s.regs.imgW ≠ 0) (order : BitVec 64) :
    exec (.getcoord order) s = .next (
      if s.regs.imgH.toNat ≤ (getCoordinates order.toNat s.regs.imgW.toNat).2 then faultedWith s 0x40
      else completedWith s (BitVec.ofNat 32 (getCoordinates order.toNat s.regs.imgW.toNat).2 ++
        BitVec.ofNat 32 (getCoordinates order.toNat s.regs.imgW.toNat).1)) := by
  rw [exec_getcoord_eq he, if_neg hW]
  rfl

/-- Settles O39: `getCoordinates_outside` decides BOUNDS; coordinates inside the image fit the 32-bit halves of RES, and
`getCoordinates_index` is their row-major sum. -/
theorem getcoordAnswersRowMajorCoordinates : Obligations.GetcoordAnswersRowMajorCoordinates := by
  intro s order he
  refine ⟨fun hW => ?unconfigured, fun hW hout => ?outside, fun hW hin => ?inside⟩
  case unconfigured => rw [exec_getcoord_eq he, if_pos hW]
  case outside =>
    have hpos : 0 < s.regs.imgW.toNat := BitVec.toNat_pos_of_ne_zero hW
    rw [exec_getcoord_of_configured he hW, if_pos ((getCoordinates_outside hpos).mpr hout)]
  case inside =>
    obtain ⟨hx, hy⟩ := getCoordinates_inside hin
    refine ⟨_, by rw [exec_getcoord_of_configured he hW, if_neg hy.not_ge], ?_⟩
    rw [lowHalf_append, highHalf_append, BitVec.toNat_ofNat, BitVec.toNat_ofNat,
      Nat.mod_eq_of_lt (hx.trans s.regs.imgW.isLt), Nat.mod_eq_of_lt (hy.trans s.regs.imgH.isLt)]
    exact ⟨hx, hy, getCoordinates_index _ _⟩

/-! ## CHUNKSZ -/

/-- The responses of a fault and of a completion differ in the fault bit. -/
theorem faultedWith_ne_completedWith (s : State) (e : BitVec 8) (v : RegWord) : faultedWith s e ≠ completedWith s v := by
  intro h
  have hr : s.rsps ++ [⟨true, 0⟩] = s.rsps ++ [⟨false, v⟩] := congrArg State.rsps h
  simp at hr

theorem completedWith_inj {s : State} {v w : RegWord} : completedWith s v = completedWith s w ↔ v = w :=
  ⟨fun h => congrArg (·.regs.res) h, fun h => h ▸ rfl⟩

/-- A size passes R224's tests exactly when it fits 32 bits and the usable pixels hold it. -/
theorem sizeErr_eq_zero_iff (r : Regs) (size : Nat) :
    sizeErr r size = 0 ↔ size < 2 ^ 32 ∧ exceedsCapacity size r.usable = false := by
  simp only [sizeErr, exceedsCapacity_eq_false, BitVec.ofNat_eq_ofNat, BitVec.or_eq_zero_iff, ite_eq_right_iff,
    BitVec.reduceEq, imp_false, not_le, not_lt]

/-- A size that fits 32 bits but not the usable pixels is CAPACITY alone. -/
theorem sizeErr_of_capacity {r : Regs} {size : Nat} (hs : size < 2 ^ 32) (hc : 24 * r.usable < 8 * size) :
    sizeErr r size = 0x02 := by
  rw [sizeErr, if_neg hs.not_ge, if_pos hc]
  rfl

/-- CHUNKSZ completes exactly on a configured image with a size that passes R224's tests, and answers the density of R171. -/
theorem exec_chunksz_completes_iff {s : State} (he : s.regs.err = 0) (size : BitVec 64) (v : RegWord) :
    exec (.chunksz size) s = .next (completedWith s v) ↔
      s.regs.imgW ≠ 0 ∧ (size.toNat < 2 ^ 32 ∧ exceedsCapacity size.toNat s.regs.usable = false) ∧
        v = BitVec.ofNat 64 (chunkSizeFor size.toNat s.regs.usable) := by
  rw [exec_chunksz_eq he, Host.Outcome.next.injEq, ← sizeErr_eq_zero_iff]
  split_ifs with hW herr
  · exact iff_of_false (faultedWith_ne_completedWith _ _ _) fun ⟨hconfigured, _⟩ => hconfigured hW
  · exact iff_of_false (faultedWith_ne_completedWith _ _ _) fun ⟨_, hpass, _⟩ => herr hpass
  · rw [completedWith_inj, eq_comm (a := v)]
    exact ⟨fun hv => ⟨hW, not_not.mp herr, hv⟩, fun ⟨_, _, hv⟩ => hv⟩

/-- R171: a density is at most 24, so RES holds it. -/
theorem toNat_ofNat_chunkSizeFor {size usable : Nat} (h : exceedsCapacity size usable = false) :
    (BitVec.ofNat 64 (chunkSizeFor size usable)).toNat = chunkSizeFor size usable :=
  Nat.mod_eq_of_lt ((chunkSizeFor_le h).trans_lt (by decide))

/-- Settles O41: past the size test only CAPACITY remains (`sizeErr_of_capacity`), and what CHUNKSZ answers is the density by
`chunkSizeFor_isChunkSize`. -/
theorem chunkszAnswersTheDensity : Obligations.ChunkszAnswersTheDensity := by
  intro s size he hW hs usable
  refine ⟨fun hover => ?capacity, fun hfits => ?completes⟩
  case capacity =>
    have herr : sizeErr s.regs size.toNat = 0x02 := sizeErr_of_capacity hs hover
    rw [exec_chunksz_eq he, if_neg hW, herr, if_pos (by decide)]
  case completes =>
    have hcap : exceedsCapacity size.toNat s.regs.usable = false := exceedsCapacity_eq_false.mpr hfits
    refine ⟨_, (exec_chunksz_completes_iff he size _).mpr ⟨hW, ⟨hs, hcap⟩, rfl⟩, ?_⟩
    rw [toNat_ofNat_chunkSizeFor hcap]
    exact chunkSizeFor_isChunkSize hcap

/-- Settles O42: what CHUNKSZ answers is the density, so `ceilDiv_chunkSizeFor_le` bounds the number of chunks by the usable
pixels; an order below that number lies inside the image, and so do its coordinates. -/
theorem chunksAtThatDensityFitTheImage : Obligations.ChunksAtThatDensityFitTheImage := by
  intro s size v _ he hpos hexec
  obtain ⟨-, ⟨-, hcap⟩, rfl⟩ := (exec_chunksz_completes_iff he size v).mp hexec
  rw [toNat_ofNat_chunkSizeFor hcap]
  have hdensity : 0 < chunkSizeFor size.toNat s.regs.usable := ((chunkSizeFor_isChunkSize hcap).2 hpos).1
  have hchunks : ceilDiv (8 * size.toNat) (chunkSizeFor size.toNat s.regs.usable) ≤
      s.regs.imgW.toNat * s.regs.imgH.toNat - 32 := ceilDiv_chunkSizeFor_le hcap hpos
  refine ⟨hchunks, fun k hk => ?_⟩
  have hlt : k < s.regs.imgW.toNat * s.regs.imgH.toNat - 32 := ((lt_ceilDiv hdensity).mpr hk).trans_le hchunks
  exact ⟨by omega, getCoordinates_inside (by omega)⟩

end Sys2Proof.Machine
end

section
/-! ENCHDR and DECHDR (44_header_session.md rules R185 to R188). -/

namespace Sys2Proof.Machine

theorem State.pix_wf_of_memoriesOk {s : State} (h : s.memoriesOk = true) : s.pix.wf = true := by
  simp only [State.memoriesOk, Bool.and_eq_true] at h
  obtain ⟨⟨-, hpix⟩, -⟩ := h
  exact hpix

/-- A completion after accesses that changed PIX alone is the completion of the state before them, but for PIX. -/
theorem samePix.completed {s t : State} (h : samePix s t) (d : RegWord) :
    completed t t.regs d = { completed s s.regs d with pix := t.pix } := by
  rw [h]
  rfl

/-! ## ENCHDR -/

/-- ENCHDR past both its guards: the header is encoded, and a response follows if every access was made. -/
theorem exec_enchdr_of_configured {s : State} {size : BitVec 64} (he : s.regs.err = 0) (hW : s.regs.imgW ≠ 0)
    (hs : size.toNat < 2 ^ 32) :
    exec (.enchdr size) s = .next ((encodeHeader (BitVec.ofNat 32 size.toNat) s).settle (respond 0)) := by
  rw [exec_enchdr_eq he, if_neg hW, if_neg hs.not_ge, BitVec.ofNat_toNat]

/-- Settles O43: both guards pass, `encodeHeader_clean` gives what encoding a clean header makes of PIX, and the response
touches no memory. -/
theorem enchdrWritesTheHeader : Obligations.EnchdrWritesTheHeader := by
  intro s size hm he hW hs hclean
  obtain ⟨t, hencode, hsame, -, -, hspells, hkept⟩ :=
    encodeHeader_clean (BitVec.ofNat 32 size.toNat) (State.pix_wf_of_memoriesOk hm) hclean
  have ht : t.regs.err = 0 := by rw [hsame.regs, he]
  refine ⟨completed t t.regs 0, ?_, hsame.completed 0, hspells, hkept⟩
  rw [exec_enchdr_of_configured he hW hs, hencode, Attempt.settle_ok, respond_of_clear ht]

/-! ## DECHDR -/

/-- Settles O45: on a configured image DECHDR is what decoding the header comes to, a value by `decodeHeader_eq` and an IO
fault by `decodeHeader_fails`. -/
theorem dechdrReadsTheHeader : Obligations.DechdrReadsTheHeader := by
  intro s size he
  rw [exec_dechdr_eq he]
  refine ⟨fun hW => ?unconfigured, fun hW hunreadable => ?unreadable, fun hW hreadable hreads => ?reads⟩
  case unconfigured => rw [if_pos hW]
  case unreadable => rw [if_neg hW, decodeHeader_fails hunreadable]
  case reads => rw [if_neg hW, decodeHeader_eq hreadable hreads]

end Sys2Proof.Machine
end

section
/-! The FAULTED block (60_exceptions.md rule R219). -/

namespace Sys2Proof.Machine

/-- Bit 0 of STATUS is FAULTED (10_state.md rule R27). -/
theorem read_status_getLsbD_zero (r : Regs) : (r.read .status).getLsbD 0 = r.faulted := by
  have hbit : r.status.getLsbD 0 = r.faulted := by
    rw [Regs.status, BitVec.getLsbD_append]
    simp
  simpa [Regs.read] using hbit

theorem illegalPacket_of_faulted {s : State} (he : s.regs.err ≠ 0) : illegalPacket s = ignored s := by
  simp [illegalPacket, respond, ignored, faulted_eq_true he]

/-- A FAULTED block ignores every packet but a legal RDREG, whether it decodes or not. -/
theorem execPacket_of_faulted {s : State} (he : s.regs.err ≠ 0) {w : Packet} (hw : ∀ p, decode w ≠ .ok (.rdreg p)) :
    execPacket w s = .next (ignored s) := by
  cases hd : decode w with
  | error r => rw [execPacket_of_error hd, illegalPacket_of_faulted he]
  | ok i => rw [execPacket_of_ok hd, exec_of_faulted he fun p hi => hw p (hi ▸ hd)]

/-- Settles O13: STATUS.FAULTED is `read_status_getLsbD_zero`, a legal RDREG runs by its own equation, and every other packet
is ignored by `execPacket_of_faulted`. -/
theorem faultedBlockIgnoresAllButRdreg : Obligations.FaultedBlockIgnoresAllButRdreg := by
  intro s w he
  refine ⟨?faulted, execPacket_of_faulted he, fun p hp => ?rdreg⟩
  case faulted => rw [read_status_getLsbD_zero, faulted_eq_true he]
  case rdreg =>
    obtain ⟨c, hc⟩ := csrNumber_of_decode hp
    refine ⟨c, hc, ?_⟩
    rw [execPacket_of_ok hp, exec_rdreg_eq hc, respond, faulted_eq_true he]

end Sys2Proof.Machine
end

section
/-! The checks of a command in the order of 60_exceptions.md rule R220, and the causes it can raise: rules R217, R222, R225
and R226 are read off one theorem about every command, `exec_checked`. -/

namespace Sys2Proof.Machine

/-- What ERR can hold once the PROTOCOL, OPERAND and BOUNDS checks have passed: no fault, the size faults or IO. -/
def lateErrs : List (BitVec 8) := [0x00, 0x02, 0x04, 0x06, 0x08]

/-- `t` is what command `i` makes of `s` when its PROTOCOL check fails if `p`, its OPERAND check if `o` and its BOUNDS check
if `b`: the first failing check raises its cause precisely, and in every case the causes are of the command's row (R217). -/
structure Checked (s : State) (i : Instr) (p o b : Prop) (t : State) : Prop where
  listed   : t.regs.err &&& ~~~(mayRaise i) = 0
  protocol : p → t = faultedWith s 0x10
  operand  : ¬ p → o → t = faultedWith s 0x20
  bounds   : ¬ p → ¬ o → b → t = faultedWith s 0x40
  passed   : ¬ p → ¬ o → ¬ b → t.regs.err ∈ lateErrs

namespace Checked

variable {s t : State} {i : Instr} {p o b : Prop}

/-! ## What the first failing check says about ERR -/

theorem err_of_operand_passed (h : Checked s i p o b t) (hp : ¬ p) (ho : ¬ o) : t.regs.err ∈ 0x40 :: lateErrs := by
  by_cases hb : b
  · rw [h.bounds hp ho hb]
    exact List.mem_cons_self
  · exact List.mem_cons_of_mem _ (h.passed hp ho hb)

theorem err_of_protocol_passed (h : Checked s i p o b t) (hp : ¬ p) : t.regs.err ∈ 0x20 :: 0x40 :: lateErrs := by
  by_cases ho : o
  · rw [h.operand hp ho]
    exact List.mem_cons_self
  · exact List.mem_cons_of_mem _ (h.err_of_operand_passed hp ho)

theorem err_mem (h : Checked s i p o b t) : t.regs.err ∈ 0x10 :: 0x20 :: 0x40 :: lateErrs := by
  by_cases hp : p
  · rw [h.protocol hp]
    exact List.mem_cons_self
  · exact List.mem_cons_of_mem _ (h.err_of_protocol_passed hp)

/-- A state whose ERR is among `errs` is no fault with an ERR value outside them. -/
theorem ne_faultedWith {errs : List (BitVec 8)} (h : t.regs.err ∈ errs) {e : BitVec 8} (he : e ∉ errs) :
    t ≠ faultedWith s e := by
  rintro rfl
  exact he h

theorem protocol_iff (h : Checked s i p o b t) : p ↔ t = faultedWith s 0x10 := by
  refine ⟨h.protocol, not_imp_not.mp fun hp => ?_⟩
  exact ne_faultedWith (h.err_of_protocol_passed hp) (by decide)

theorem operand_iff (h : Checked s i p o b t) (hp : ¬ p) : o ↔ t = faultedWith s 0x20 := by
  refine ⟨h.operand hp, not_imp_not.mp fun ho => ?_⟩
  exact ne_faultedWith (h.err_of_operand_passed hp ho) (by decide)

theorem bounds_iff (h : Checked s i p o b t) (hp : ¬ p) (ho : ¬ o) : b ↔ t = faultedWith s 0x40 := by
  refine ⟨h.bounds hp ho, not_imp_not.mp fun hb => ?_⟩
  exact ne_faultedWith (h.passed hp ho hb) (by decide)

/-! ## Building a command's checks

From the last to the first: each guard puts one more check of a command's equation in front. Its cause has to be in the
command's row, which `simp` reads off `mayRaise` once the command is known. -/

/-- Nothing is left to check. -/
abbrev AllPassed (s : State) (i : Instr) (t : State) : Prop := Checked s i False False False t

/-- A fault or completion that the three checks have no part in. -/
theorem late (hl : t.regs.err &&& ~~~(mayRaise i) = 0) (hm : t.regs.err ∈ lateErrs) : AllPassed s i t :=
  ⟨hl, False.elim, fun _ => False.elim, fun _ _ => False.elim, fun _ _ _ => hm⟩

theorem clear (ht : t.regs.err = 0) : AllPassed s i t :=
  late (by rw [ht]; exact BitVec.zero_and) (by rw [ht]; decide)

theorem ioFault (hl : 0x08 &&& ~~~(mayRaise i) = 0 := by simp [mayRaise]) :
    AllPassed s i (faultedWith s 0x08) :=
  late hl (by simp [lateErrs])

/-- A size test, which comes after the three checks. -/
theorem guardLate {c : Prop} [Decidable c] {e : BitVec 8} (h : AllPassed s i t)
    (hl : e &&& ~~~(mayRaise i) = 0) (hm : e ∈ lateErrs) : AllPassed s i (if c then faultedWith s e else t) := by
  split_ifs
  · exact late hl hm
  · exact h

theorem guardBounds (h : AllPassed s i t) [Decidable b] (hl : 0x40 &&& ~~~(mayRaise i) = 0 := by simp [mayRaise]) :
    Checked s i False False b (if b then faultedWith s 0x40 else t) := by
  split_ifs with hb
  · exact ⟨hl, False.elim, fun _ => False.elim, fun _ _ _ => rfl, fun _ _ hn => absurd hb hn⟩
  · exact ⟨h.listed, False.elim, fun _ => False.elim, fun _ _ hb' => absurd hb' hb, fun hp ho _ => h.passed hp ho id⟩

theorem guardOperand {c : Prop} [Decidable c] (h : Checked s i False o b t)
    (hl : 0x20 &&& ~~~(mayRaise i) = 0 := by simp [mayRaise]) :
    Checked s i False (c ∨ o) b (if c then faultedWith s 0x20 else t) := by
  split_ifs with hc
  · exact ⟨hl, False.elim, fun _ _ => rfl, fun _ ho => absurd (.inl hc) ho, fun _ ho => absurd (.inl hc) ho⟩
  · simpa only [hc, false_or] using h

theorem guardProtocol {c : Prop} [Decidable c] (h : Checked s i p o b t)
    (hl : 0x10 &&& ~~~(mayRaise i) = 0 := by simp [mayRaise]) :
    Checked s i (c ∨ p) o b (if c then faultedWith s 0x10 else t) := by
  split_ifs with hc
  · exact ⟨hl, fun _ => rfl, fun hp => absurd (.inl hc) hp, fun hp => absurd (.inl hc) hp, fun hp => absurd (.inl hc) hp⟩
  · simpa only [hc, false_or] using h

/-- The last check is one of PROTOCOL. -/
theorem guardOnlyProtocol {c : Prop} [Decidable c] (h : AllPassed s i t)
    (hl : 0x10 &&& ~~~(mayRaise i) = 0 := by simp [mayRaise]) :
    Checked s i c False False (if c then faultedWith s 0x10 else t) := by
  simpa only [or_false] using guardProtocol (c := c) h hl

end Checked

/-! ## The accesses after the checks -/

/-- Accesses that fail do so with IO. -/
def Attempt.FailsWithIo : Attempt → Prop
  | .ok _ => True
  | .fails causes _ => causes = [.io]

theorem writeChunk_failsWithIo (data : BitVec 32) (n : Nat) (s : State) : (writeChunk data n s).FailsWithIo := by
  rcases writeChunk_outcome data n s with ⟨_, _, _, _, -, h⟩ | ⟨_, h⟩
  · rw [h]; trivial
  · rw [h]; rfl

theorem flushRemainder_failsWithIo (s : State) : (flushRemainder s).FailsWithIo := by
  rcases flushRemainder_outcome s with ⟨_, _, h⟩ | ⟨_, h⟩
  · rw [h]; trivial
  · rw [h]; rfl

theorem modifyPixel_failsWithIo (i : PixIndex) (f : Field24 → Field24) (s : State) : (modifyPixel i f s).FailsWithIo := by
  rcases modifyPixel_outcome i f s with ⟨_, h⟩ | h
  · rw [h]; trivial
  · rw [h]; rfl

theorem encodeHeader_failsWithIo (v : BitVec 32) (s : State) : (encodeHeader v s).FailsWithIo := by
  rcases encodeHeader_outcome v s with ⟨_, h | h⟩
  · rw [h]; trivial
  · rw [h]; rfl

/-- A command that ends in accesses leaves ERR clear, or at IO. -/
theorem settle_err {s : State} (he : s.regs.err = 0) {a : Attempt} (hs : a.Silent s) (hio : a.FailsWithIo)
    {finish : State → State} (hf : ∀ t : State, (finish t).regs.err = t.regs.err) :
    (a.settle finish).regs.err = 0 ∨ (a.settle finish).regs.err = 0x08 := by
  cases a with
  | ok t =>
    obtain ⟨-, ht⟩ := hs
    exact .inl ((hf t).trans (ht.trans he))
  | fails causes t =>
    obtain ⟨-, -, ht⟩ := hs
    obtain rfl : causes = [.io] := hio
    rw [Attempt.settle_fails, raise_one (ht.trans he)]
    exact .inr rfl

/-- After the last check come the accesses. -/
theorem Checked.settle {s : State} {i : Instr} (he : s.regs.err = 0) {a : Attempt} (hs : a.Silent s) (hio : a.FailsWithIo)
    {finish : State → State} (hf : ∀ t : State, (finish t).regs.err = t.regs.err := by exact fun _ => rfl)
    (hl : 0x08 &&& ~~~(mayRaise i) = 0 := by simp [mayRaise]) :
    Checked.AllPassed s i (a.settle finish) := by
  rcases settle_err he hs hio hf with h | h
  · exact .clear h
  · exact .late (by rw [h]; exact hl) (by rw [h]; decide)

/-- `hide_data` past the PROTOCOL checks of HIDE and HIDEC, with its own checks in front (44_header_session.md rule R193). -/
theorem hideData_settle {s : State} (he : s.regs.err = 0) (data : BitVec 32) (length order : Nat) (finish : State → State) :
    (hideData data length order s).settle finish =
      if 24 < length then faultedWith s 0x20
      else if 2 ^ length ≤ data.toNat then faultedWith s 0x20
      else if s.regs.imgH.toNat ≤ (32 + order) / s.regs.imgW.toNat then faultedWith s 0x40
      else (modifyPixel (BitVec.ofNat 64 (32 + order)) (fun F => insertLow F data length) s).settle finish := by
  simp only [hideData, pixelIndex_getCoordinates, apply_ite (Attempt.settle · finish), Attempt.settle_fails, raise_one he]
  rfl

/-! ## Every command's checks -/

/-- The OPERAND check as the model makes it: R225's table, and HIDEC's test of the latched data, which the invariant makes
vacuous (10_state.md rule R39 (2)). -/
def operandFails (r : Regs) (i : Instr) : Prop :=
  operandOutside r i = true ∨ (i = .hidec ∧ 2 ^ r.chkLen.toNat ≤ r.chkData.toNat)

theorem operandFails_iff_of_inv {r : Regs} (h : r.Inv) (i : Instr) : operandFails r i ↔ operandOutside r i = true :=
  or_iff_left fun ⟨_, hd⟩ => hd.not_gt h.chunkData

/-- The three checks of a command, by the tables of R222, R225 and R226. -/
abbrev CheckedByTables (s : State) (i : Instr) (t : State) : Prop :=
  Checked s i (protocolMisuse s.regs i = true) (operandFails s.regs i) (outsideImage s.regs i = true) t

/-- Checks read off a command's equation are those of its rows of the tables. -/
theorem Checked.byTables {s t : State} {i : Instr} {p o b : Prop} (h : Checked s i p o b t)
    (hp : p ↔ protocolMisuse s.regs i = true := by simp [protocolMisuse, or_assoc])
    (ho : o ↔ operandFails s.regs i := by simp [operandFails, operandOutside, or_assoc])
    (hb : b ↔ outsideImage s.regs i = true := by simp [outsideImage]) : CheckedByTables s i t := by
  unfold CheckedByTables
  rw [← hp, ← ho, ← hb]
  exact h

theorem sizeErr_mem_lateErrs (r : Regs) (size : Nat) : sizeErr r size ∈ lateErrs := by
  unfold sizeErr
  split_ifs <;> decide

/-- CAPACITY and SIZE_OVERFLOW are in the rows of CHUNKSZ and SETUPH. -/
theorem sizeErr_listed {m : BitVec 8} (hm : 0x06 &&& ~~~m = 0) (r : Regs) (size : Nat) : sizeErr r size &&& ~~~m = 0 := by
  have hs : sizeErr r size = sizeErr r size &&& 0x06 := by
    unfold sizeErr
    split_ifs <;> decide
  rw [hs, BitVec.and_assoc, hm]
  exact BitVec.and_zero

/-- What every command does in a block that is not FAULTED, as far as faults go: its equation read as the checks of R220 in
order, then a completion, a size fault or its accesses. -/
theorem exec_checked {s : State} (he : s.regs.err = 0) {i : Instr} (hwf : i.wellFormed = true) :
    ∃ t, exec i s = .next t ∧ CheckedByTables s i t := by
  have value : ∀ {i : Instr} v, Checked.AllPassed s i (completedWith s v) := fun _ => .clear he
  have completes : ∀ {i : Instr} {r : Regs} {d : RegWord}, r.err = s.regs.err →
      Checked.AllPassed s i (completed s r d) := fun hr => .clear (hr.trans he)
  cases i with
  | mask wsel inv n =>
    obtain ⟨w, hw⟩ := Option.isSome_iff_exists.mp ((Width.ofSelect_isSome wsel).trans hwf)
    refine ⟨_, exec_mask_eq he .., ?_⟩
    simp only [hw]
    exact .byTables (.guardOperand (value _)) (ho := by simp [operandFails, operandOutside, hw])
  | getbits wsel n p src =>
    obtain ⟨w, hw⟩ := Option.isSome_iff_exists.mp ((Width.ofSelect_isSome wsel).trans hwf)
    refine ⟨_, exec_getbits_eq he .., ?_⟩
    simp only [hw]
    exact .byTables (.guardOperand <| .guardOperand (value _)) (ho := by simp [operandFails, operandOutside, hw])
  | b2u24 b0 b1 b2 => exact ⟨_, exec_b2u24_eq he .., .byTables (value _)⟩
  | u24b x => exact ⟨_, exec_u24b_eq he .., .byTables (value _)⟩
  | ljust n data => exact ⟨_, exec_ljust_eq he .., .byTables <| .guardOperand (value _)⟩
  | rdinit n srclen =>
    exact ⟨_, exec_rdinit_eq he .., .byTables <| .guardOperand <| .guardOperand (completes rfl)⟩
  | rdchunk =>
    refine ⟨_, exec_rdchunk_eq he, .byTables <| .guardOnlyProtocol ?_⟩
    split_ifs
    · exact completes rfl
    · cases srcReadAll (spanAddresses s.regs.rdCursor.toNat (nextChunkLength s.regs)) s with
      | none => exact .ioFault
      | some bytes => exact completes rfl
  | write n data =>
    exact ⟨_, exec_write_eq he .., .byTables <| .guardOperand <|
      .settle he (writeChunk_silent ..) (writeChunk_failsWithIo ..)⟩
  | writec =>
    exact ⟨_, exec_writec_eq he, .byTables <| .guardProtocol <|
      .settle he (writeChunk_silent ..) (writeChunk_failsWithIo ..)⟩
  | wrclose =>
    exact ⟨_, exec_wrclose_eq he, .byTables <| .settle he (flushRemainder_silent s) (flushRemainder_failsWithIo s)⟩
  | imgcfg n height width =>
    exact ⟨_, exec_imgcfg_eq he .., .byTables (.guardOperand <| .guardOperand (completes rfl))
      (ho := by simp [operandFails, operandOutside, or_assoc, BitVec.toNat_eq])⟩
  | encbits n y x bits =>
    exact ⟨_, exec_encbits_eq he .., .byTables <| .guardProtocol <| .guardOperand <| .guardOperand <| .guardBounds <|
      .settle he (modifyPixel_silent ..) (modifyPixel_failsWithIo ..)⟩
  | decbits n y x =>
    refine ⟨_, exec_decbits_eq he .., .byTables <| .guardProtocol <| .guardOperand <| .guardBounds ?_⟩
    cases readField (pixelIndex x.toNat y.toNat s.regs.imgW.toNat) s with
    | none => exact .ioFault
    | some F => exact value _
  | getcoord order => exact ⟨_, exec_getcoord_eq he .., .byTables <| .guardProtocol <| .guardBounds (value _)⟩
  | chunksz size =>
    exact ⟨_, exec_chunksz_eq he .., .byTables <| .guardProtocol <|
      .guardLate (value _) (sizeErr_listed (by simp [mayRaise]) ..) (sizeErr_mem_lateErrs ..)⟩
  | enchdr size =>
    exact ⟨_, exec_enchdr_eq he .., .byTables <| .guardProtocol <|
      .guardLate (.settle he (encodeHeader_silent ..) (encodeHeader_failsWithIo ..)) (by simp [mayRaise]) (by decide)⟩
  | dechdr =>
    refine ⟨_, exec_dechdr_eq he, .byTables <| .guardOnlyProtocol ?_⟩
    cases decodeHeader s with
    | none => exact .ioFault
    | some v => exact value _
  | setuph size =>
    exact ⟨_, exec_setuph_eq he .., .byTables <| .guardProtocol <| .guardProtocol <|
      .guardLate (.settle he (encodeHeader_silent ..) (encodeHeader_failsWithIo ..))
        (sizeErr_listed (by simp [mayRaise]) ..) (sizeErr_mem_lateErrs ..)⟩
  | setupx =>
    refine ⟨_, exec_setupx_eq he, .byTables <| .guardProtocol <|
      .guardOnlyProtocol ?_⟩
    cases decodeHeader s with
    | none => exact .ioFault
    | some v => exact .guardLate (completes rfl) (by simp [mayRaise]) (by decide)
  | hide n order data =>
    refine ⟨_, exec_hide_eq he .., ?_⟩
    rw [hideData_settle he]
    exact .byTables <| .guardProtocol <| .guardProtocol <| .guardOperand <| .guardOperand <| .guardBounds <|
      .settle he (modifyPixel_silent ..) (modifyPixel_failsWithIo ..)
  | hidec =>
    refine ⟨_, exec_hidec_eq he, ?_⟩
    rw [hideData_settle he]
    exact .byTables <| .guardProtocol <| .guardProtocol <| .guardProtocol <| .guardOperand <| .guardOperand <|
      .guardBounds <| .settle he (modifyPixel_silent ..) (modifyPixel_failsWithIo ..)
  | pull =>
    refine ⟨_, exec_pull_eq he, .byTables <| .guardProtocol <|
      .guardOnlyProtocol ?_⟩
    split_ifs
    · cases readField (BitVec.ofNat 64 (32 + s.regs.rdPos.toNat)) s with
      | none => exact .ioFault
      | some F => exact completes rfl
    · exact completes rfl
  | rdreg p =>
    obtain ⟨c, hc⟩ := Option.isSome_iff_exists.mp ((Csr.ofNumber_isSome p).trans hwf)
    exact ⟨_, exec_rdreg_eq hc s, .byTables (.clear he)⟩

/-! ## The tables -/

/-- Settles O15: `exec_checked` says the causes are of the command's row, and which values ERR then holds. -/
theorem commandsRaiseOnlyTheirCauses : Obligations.CommandsRaiseOnlyTheirCauses := by
  intro s t i hwf he ht
  obtain ⟨t', ht', hc⟩ := exec_checked he hwf
  obtain rfl : t = t' := Host.Outcome.next.inj (ht.symm.trans ht')
  have hvalues : 0x10 :: 0x20 :: 0x40 :: lateErrs ⊆ [0x00, 0x02, 0x04, 0x06, 0x08, 0x10, 0x20, 0x40] := by decide
  exact ⟨hc.listed, hvalues hc.err_mem⟩

/-- Settles O16: PROTOCOL is the first check of `exec_checked`. -/
theorem protocolFaultsExactlyOnMisuse : Obligations.ProtocolFaultsExactlyOnMisuse := by
  intro s i he hwf
  obtain ⟨t, ht, hc⟩ := exec_checked he hwf
  rw [ht, Host.Outcome.next.injEq]
  exact hc.protocol_iff

/-- Settles O17: OPERAND is the second check of `exec_checked`, and the invariant makes it R225's table. -/
theorem operandFaultsExactlyOutsideTheDomain : Obligations.OperandFaultsExactlyOutsideTheDomain := by
  intro s i hinv he hwf hp
  obtain ⟨t, ht, hc⟩ := exec_checked he hwf
  rw [ht, Host.Outcome.next.injEq, ← operandFails_iff_of_inv hinv]
  exact hc.operand_iff (by simp [hp])

/-- Settles O18: BOUNDS is the third check of `exec_checked`. -/
theorem boundsFaultsExactlyOutsideTheImage : Obligations.BoundsFaultsExactlyOutsideTheImage := by
  intro s i hinv he hwf hp ho
  obtain ⟨t, ht, hc⟩ := exec_checked he hwf
  rw [ht, Host.Outcome.next.injEq]
  exact hc.bounds_iff (by simp [hp]) (by simp [operandFails_iff_of_inv hinv, ho])

end Sys2Proof.Machine
end

section
/-! The size faults of CHUNKSZ, SETUPH, ENCHDR and SETUPX (60_exceptions.md rule R224). -/

namespace Sys2Proof.Machine

/-- No fault and an IO fault alike leave SIZE_OVERFLOW and CAPACITY clear. -/
theorem and_sizeBits_eq_zero {e : BitVec 8} (h : e = 0 ∨ e = 0x08) : e &&& 0x06 = 0 := by
  rcases h with rfl | rfl <;> decide

/-- CHUNKSZ and SETUPH past the PROTOCOL checks: both size tests first, then nothing that raises another size fault. -/
theorem exec_sized {s : State} (he : s.regs.err = 0) {size : BitVec 64} {i : Instr}
    (hi : i = .chunksz size ∨ i = .setuph size) (hp : protocolMisuse s.regs i = false) :
    ∃ t, exec i s = .next
        (if sizeErr s.regs size.toNat ≠ 0 then faultedWith s (sizeErr s.regs size.toNat) else t) ∧
      (t.regs.err = 0 ∨ t.regs.err = 0x08) := by
  rcases hi with rfl | rfl
  · have hW : s.regs.imgW ≠ 0 := by simpa [protocolMisuse] using hp
    exact ⟨_, (exec_chunksz_eq he size).trans (congrArg _ (if_neg hW)), .inl he⟩
  · obtain ⟨hW, hmode⟩ : s.regs.imgW ≠ 0 ∧ s.regs.mode = .none := by simpa [protocolMisuse] using hp
    exact ⟨_, (exec_setuph_eq he size).trans (congrArg _ ((if_neg hW).trans (if_neg (not_not.mpr hmode)))),
      settle_err he (encodeHeader_silent ..) (encodeHeader_failsWithIo ..) fun _ => rfl⟩

/-- Settles O19: `exec_sized` for CHUNKSZ and SETUPH; ENCHDR ends in the header's accesses, SETUPX with the header's value by
`decodeHeader_eq`, each after its one test. -/
theorem sizeAndCapacityFaults : Obligations.SizeAndCapacityFaults := by
  intro s size v he usable e
  have hsize : sizeErr s.regs size.toNat = e := rfl
  refine ⟨fun i hi hp => ?sized, fun hp => ?enchdr, fun hp hreadable hreads => ?setupx⟩
  case sized =>
    obtain ⟨t, hexec, herr⟩ := exec_sized he hi hp
    rw [hsize] at hexec
    rw [hexec]
    refine ⟨fun hne => by rw [if_pos hne], fun h0 t' ht' => ?_⟩
    rw [if_neg (not_not.mpr h0)] at ht'
    cases ht'
    exact and_sizeBits_eq_zero herr
  case enchdr =>
    have hW : s.regs.imgW ≠ 0 := by simpa [protocolMisuse] using hp
    refine ⟨fun hover => by rw [exec_enchdr_eq he, if_neg hW, if_pos hover], fun hfits t ht => ?_⟩
    rw [exec_enchdr_of_configured he hW hfits] at ht
    cases ht
    exact and_sizeBits_eq_zero
      (settle_err he (encodeHeader_silent ..) (encodeHeader_failsWithIo ..) fun _ => rfl)
  case setupx =>
    obtain ⟨hW, hmode⟩ : s.regs.imgW ≠ 0 ∧ s.regs.mode = .none := by simpa [protocolMisuse] using hp
    have hexec := exec_setupx_eq he
    simp only [if_neg hW, if_neg (not_not.mpr hmode), decodeHeader_eq hreadable hreads] at hexec
    refine ⟨fun hover => by rw [hexec, if_pos (by exact hover)], fun hfits t ht => ?_⟩
    rw [hexec, if_neg (by exact hfits.not_gt)] at ht
    cases ht
    exact and_sizeBits_eq_zero (.inl he)

end Sys2Proof.Machine
end

section
/-! The encoding round trip (30_encoding.md rules R90 to R96). -/

namespace Sys2Proof

/-- The width select of a well-formed command is in the table of R93. -/
theorem Width.ofSelect_of_ok {wsel : BitVec 3} (h : widthSelectOk wsel = true) : ∃ w, Width.ofSelect wsel = some w :=
  Option.isSome_iff_exists.mp ((Width.ofSelect_isSome wsel).trans h)

/-- The CSR number of a well-formed RDREG is in the map of R26. -/
theorem Csr.ofNumber_of_ok {p : BitVec 7} (h : csrNumberOk p = true) : ∃ c, Csr.ofNumber p = some c :=
  Option.isSome_iff_exists.mp ((Csr.ofNumber_isSome p).trans h)

/-- Every other width select is reserved. -/
theorem Width.ofSelect_of_not_ok {wsel : BitVec 3} (h : widthSelectOk wsel = false) : Width.ofSelect wsel = none := by
  simpa [h] using Width.ofSelect_isSome wsel

/-- Every other number is unimplemented. -/
theorem Csr.ofNumber_of_not_ok {p : BitVec 7} (h : csrNumberOk p = false) : Csr.ofNumber p = none := by
  simpa [h] using Csr.ofNumber_isSome p

/-- R92 undoes R91: a well-formed command's operands are read back from its own fields. -/
theorem operandsOf_encodeFields {i : Instr} (h : i.wellFormed = true) : operandsOf i.opcode (encodeFields i) = .ok i := by
  cases i with
  | mask wsel inv n =>
    obtain ⟨w, hw⟩ := Width.ofSelect_of_ok h
    simp only [operandsOf, Instr.opcode, encodeFields, hw, beq_one_ofBool]
  | getbits wsel n p src =>
    obtain ⟨w, hw⟩ := Width.ofSelect_of_ok h
    simp only [operandsOf, Instr.opcode, encodeFields, hw]
  | rdreg p =>
    obtain ⟨c, hc⟩ := Csr.ofNumber_of_ok h
    simp only [operandsOf, Instr.opcode, encodeFields, hc]
  | b2u24 b0 b1 b2 =>
    obtain ⟨h0, h1, h2⟩ := threeBytes_extract b0 b1 b2
    simp only [operandsOf, Instr.opcode, encodeFields, h0, h1, h2]
  | hide n order data =>
    simp only [operandsOf, Instr.opcode, encodeFields, lowHalf_append, highHalf_append, append_halves]
  | u24b | ljust | write | imgcfg | encbits | decbits =>
    simp only [operandsOf, Instr.opcode, encodeFields, lowHalf_append, highHalf_append]
  | rdinit | rdchunk | writec | wrclose | getcoord | chunksz | enchdr | dechdr | setuph | setupx | hidec | pull => rfl

/-- Settles O2: decoding an encoding comes to reading the operands back from the command's own fields. -/
theorem decodeInvertsEncode : Obligations.DecodeInvertsEncode := fun i h =>
  (decode_encode_eq i).trans (operandsOf_encodeFields h)

/-- The operand checks of the decoder are those of `wellFormed` (30_encoding.md rule R95 (4) and (5)). -/
theorem wellFormed_of_operandsOf {o : Opcode} {f : Fields} {i : Instr} (h : operandsOf o f = .ok i) :
    i.wellFormed = true := by
  cases o <;> simp only [operandsOf] at h
  case mask | getbits =>
    split at h
    · cases h
      simp only [Instr.wellFormed, ← Width.ofSelect_isSome, *, Option.isSome_some]
    · cases h
  case rdreg =>
    split at h
    · cases h
      simp only [Instr.wellFormed, ← Csr.ofNumber_isSome, *, Option.isSome_some]
    · cases h
  all_goals cases h; rfl

/-- R96 for a command that uses nothing of `lo`. -/
theorem noneOnly_iff (v : BitVec 64) : v &&& ~~~(0 : BitVec 64) = 0 ↔ 0 = v := by
  rw [show ~~~(0 : BitVec 64) = BitVec.allOnes 64 by decide, BitVec.and_allOnes, eq_comm]

/-- R96: fields whose unused bits are zero are those the command's encoding has. The cases differ in what of `lo` the command
uses: nothing, its low half, its high half, three bytes or all of it. -/
theorem encodeFields_of_operandsOf {o : Opcode} {f : Fields} {i : Instr} (hc : f.op = o.code) (hr : f.rsv = 0)
    (hz : f.unusedZero o.uses = true) (h : operandsOf o f = .ok i) : encodeFields i = f := by
  obtain ⟨op, wsel, inv, n, p, rsv, hi, lo⟩ := f
  obtain ⟨rfl, rfl⟩ : op = o.code ∧ rsv = 0 := ⟨hc, hr⟩
  rw [Fields.unusedZero_iff] at hz
  cases o <;> simp only [operandsOf] at h
  case mask | getbits | rdreg =>
    split at h
    · cases h
      simp only [Opcode.uses, Bool.false_eq_true, false_or, true_or, true_and, noneOnly_iff] at hz
      simp only [encodeFields, Opcode.bare, Instr.opcode, hz, ofBool_beq_one]
    · cases h
  all_goals
    cases h
    simp only [Opcode.uses, Bool.false_eq_true, false_or, true_or, true_and, noneOnly_iff, lowOnly_iff, highOnly_iff,
      threeBytesOnly_iff] at hz
    simp only [encodeFields, Opcode.bare, Instr.opcode, hz, append_halves, lowHalf_append, highHalf_append]

/-- Settles O3: a packet is its fields, and the fields the decoder accepts are those of the command's encoding. -/
theorem encodeInvertsDecode : Obligations.EncodeInvertsDecode := by
  intro w i hd
  obtain ⟨hr, o, ho, hz, hi⟩ := decodeFields_ok hd
  refine ⟨wellFormed_of_operandsOf hi, ?_⟩
  rw [encode, encodeFields_of_operandsOf (Opcode.code_of_ofCode ho).symm hr hz hi, Fields.toPacket_ofPacket]

/-- Settles O1: the decoder computes, so each packet is decoded by evaluating it. -/
theorem specPacketsDecodeToTheirCommands : Obligations.SpecPacketsDecodeToTheirCommands := by
  unfold Obligations.SpecPacketsDecodeToTheirCommands
  decide

end Sys2Proof
end

section
/-! Sequences of pixel stores and of emits: what they leave in PIX and DST, and what a further failing access changes in that
(20_memory.md rules R62, R65, R71; 70_reset_and_hazards.md rule R242). -/

namespace Sys2Proof.Machine

/-- The state an attempt ends in, its fault aside. -/
def Attempt.state : Attempt → State
  | .ok s => s
  | .fails _ s => s

@[simp] theorem Attempt.state_ok (s : State) : (Attempt.ok s).state = s := rfl
@[simp] theorem Attempt.state_fails (cs : List Cause) (s : State) : (Attempt.fails cs s).state = s := rfl

/-- The state in which one more access answers "error". -/
def State.failing (s : State) (a : Access) : State := { s with ioErr := a :: s.ioErr }

@[simp] theorem State.failing_pix (s : State) (a : Access) : (s.failing a).pix = s.pix := rfl
@[simp] theorem State.failing_dst (s : State) (a : Access) : (s.failing a).dst = s.dst := rfl

theorem State.failing_failsAt (s : State) (a b : Access) : (s.failing a).failsAt b = (b == a || s.failsAt b) :=
  List.contains_cons

/-- The same end, in another state. -/
def Attempt.map (g : State → State) : Attempt → Attempt
  | .ok s => .ok (g s)
  | .fails cs s => .fails cs (g s)

@[simp] theorem Attempt.map_ok (g : State → State) (s : State) : (Attempt.ok s).map g = .ok (g s) := rfl
@[simp] theorem Attempt.map_fails (g : State → State) (cs : List Cause) (s : State) :
    (Attempt.fails cs s).map g = .fails cs (g s) := rfl

/-! ## Pixel stores -/

/-- A read-modify-write of a pixel: which pixel, and what becomes of its field. -/
abbrev PixelStore := PixIndex × (Field24 → Field24)

/-- Several read-modify-writes in order. -/
def storeAll : List PixelStore → State → Attempt
  | [], s => .ok s
  | (i, f) :: rest, s => (modifyPixel i f s).andThen (storeAll rest)

/-- The stores of `encode_header` (44_header_session.md rule R185). -/
def headerStores (v : BitVec 32) : List PixelStore :=
  (List.range Config.headerPixels).map fun i => (headerPixel i, fun F => insertLow F (headerBit v i) 1)

theorem encodeHeader_eq_storeAll (v : BitVec 32) (s : State) : encodeHeader v s = storeAll (headerStores v) s := by
  have hAt : ∀ (is : List Nat) (s : State), encodeHeaderAt v is s =
      storeAll (is.map fun i => (headerPixel i, fun F => insertLow F (headerBit v i) 1)) s := by
    intro is
    induction is with
    | nil => exact fun _ => rfl
    | cons i is ih => exact fun s => congrArg (Attempt.andThen _) (funext ih)
  exact hAt _ s

theorem modifyPixel_eq_storeAll (i : PixIndex) (f : Field24 → Field24) (s : State) :
    modifyPixel i f s = storeAll [(i, f)] s := by
  rcases modifyPixel_outcome i f s with ⟨c, h⟩ | h <;> simp [storeAll, h]

/-- Everything `storeAll` can do, what it makes of PIX aside. -/
theorem storeAll_outcome (stores : List PixelStore) (s : State) :
    ∃ p, storeAll stores s = .ok { s with pix := p } ∨ storeAll stores s = .fails [.io] { s with pix := p } := by
  induction stores generalizing s with
  | nil => exact ⟨s.pix, .inl rfl⟩
  | cons m rest ih =>
    obtain ⟨i, f⟩ := m
    rw [storeAll]
    rcases modifyPixel_outcome i f s with ⟨c, h⟩ | h
    · rw [h]; exact ih _
    · rw [h]; exact ⟨s.pix, .inr rfl⟩

/-- Whatever the stores come to, PIX stays canonical and only bytes of their pixels change, alpha never. -/
theorem storeAll_pix (stores : List PixelStore) {s : State} (hm : s.pix.wf = true) :
    (storeAll stores s).state.pix.wf = true ∧
    (s.pix.within Config.pixBytes = true → (storeAll stores s).state.pix.within Config.pixBytes = true) ∧
    otherBytesKept s (storeAll stores s).state (fun j => ∃ m ∈ stores, m.1 = j) := by
  induction stores generalizing s with
  | nil => exact ⟨hm, id, fun _ _ _ _ => rfl⟩
  | cons m rest ih =>
    obtain ⟨i, f⟩ := m
    rw [storeAll]
    by_cases hc : pixelClean s i
    · obtain ⟨t, ht, -, hwf, hwithin, -, hkept⟩ := modifyPixel_clean f hm hc
      obtain ⟨hwf', hwithin', hkept'⟩ := ih hwf
      rw [ht, Attempt.andThen_ok]
      refine ⟨hwf', hwithin' ∘ hwithin, (hkept.mono ?_).trans (hkept'.mono ?_)⟩
      · rintro j rfl
        exact ⟨_, List.mem_cons_self, rfl⟩
      · rintro j ⟨m, hm, rfl⟩
        exact ⟨m, List.mem_cons_of_mem _ hm, rfl⟩
    · rw [modifyPixel_fails f hc]
      exact ⟨hm, id, fun _ _ _ _ => rfl⟩

/-- A pixel with no store keeps its bytes. -/
theorem storeAll_pixByte {stores : List PixelStore} {s : State} (hm : s.pix.wf = true) {j : PixIndex} {ch : Nat}
    (hch : ch < 4) (hj : ∀ m ∈ stores, m.1 ≠ j) : (storeAll stores s).state.pixByte j ch = s.pixByte j ch :=
  (storeAll_pix stores hm).2.2 j ch hch (.inl fun ⟨m, hm, hmj⟩ => hj m hm hmj)

theorem storeAll_append (xs ys : List PixelStore) (s : State) :
    storeAll (xs ++ ys) s = (storeAll xs s).andThen (storeAll ys) := by
  induction xs generalizing s with
  | nil => rfl
  | cons m xs ih =>
    obtain ⟨i, f⟩ := m
    simp only [List.cons_append, storeAll]
    cases modifyPixel i f s with
    | ok t => exact ih t
    | fails cs t => rfl

/-- Stores that follow change only bytes of their own pixels. -/
theorem storeAll_append_pixByte (xs ys : List PixelStore) {s : State} (hm : s.pix.wf = true) {j : PixIndex} {ch : Nat}
    (hch : ch < 4) (hj : ∀ m ∈ ys, m.1 ≠ j) :
    (storeAll (xs ++ ys) s).state.pixByte j ch = (storeAll xs s).state.pixByte j ch := by
  obtain ⟨hwf, -, -⟩ := storeAll_pix xs hm
  rw [storeAll_append]
  cases h : storeAll xs s with
  | ok t =>
    rw [h] at hwf
    exact storeAll_pixByte hwf hch hj
  | fails cs t => rfl

/-- A failing access to something else makes no difference to a pixel store. -/
theorem modifyPixel_failing {a : Access} {i : PixIndex} (hr : a ≠ .pixRead i) (hw : a ≠ .pixWrite i) (f : Field24 → Field24)
    (s : State) : modifyPixel i f (s.failing a) = (modifyPixel i f s).map (State.failing · a) := by
  have hr' : (s.failing a).failsAt (.pixRead i) = s.failsAt (.pixRead i) := by
    simp [State.failing_failsAt, hr.symm]
  have hw' : (s.failing a).failsAt (.pixWrite i) = s.failsAt (.pixWrite i) := by
    simp [State.failing_failsAt, hw.symm]
  simp only [modifyPixel, pixRead, pixWrite, hr', hw']
  cases s.failsAt (.pixRead i) <;> cases s.failsAt (.pixWrite i) <;> rfl

/-- One more failing access ends the stores at the first pixel it belongs to. -/
theorem storeAll_failing {a : Access} {stop : PixIndex → Bool}
    (hstop : ∀ i, stop i = true ↔ a = .pixRead i ∨ a = .pixWrite i) (stores : List PixelStore) (s : State) :
    (storeAll stores (s.failing a)).state.pix = (storeAll (stores.takeWhile fun m => !stop m.1) s).state.pix := by
  induction stores generalizing s with
  | nil => rfl
  | cons m rest ih =>
    obtain ⟨i, f⟩ := m
    cases hs : stop i with
    | true =>
      have hbad : ¬ pixelClean (s.failing a) i := by
        rcases (hstop i).mp hs with rfl | rfl
        · exact fun h => h.1 List.mem_cons_self
        · exact fun h => h.2 List.mem_cons_self
      simp [storeAll, modifyPixel_fails f hbad, hs]
    | false =>
      obtain ⟨hr, hw⟩ : a ≠ .pixRead i ∧ a ≠ .pixWrite i :=
        not_or.mp fun h => Bool.false_ne_true (hs.symm.trans ((hstop i).mpr h))
      simp only [List.takeWhile_cons, hs, Bool.not_false, if_true, storeAll, modifyPixel_failing hr hw]
      cases modifyPixel i f s with
      | ok t => exact ih t
      | fails cs t => rfl

/-! ## Emits -/

/-- Everything `emitAll` can do, how many bytes it emits aside. -/
theorem emitAll_outcome (out : List Byte) (s : State) :
    ∃ d, s.dst <+: d ∧ (emitAll out s = .ok { s with dst := d } ∨ emitAll out s = .fails [.io] { s with dst := d }) := by
  rcases emitAll_cases out s with ⟨-, h⟩ | ⟨j, -, h⟩
  · exact ⟨_, List.prefix_append .., .inl h⟩
  · exact ⟨_, List.prefix_append .., .inr h⟩

/-- Emits only add to DST. -/
theorem emitAll_prefix (out : List Byte) (s : State) : s.dst <+: (emitAll out s).state.dst := by
  obtain ⟨d, hd, h | h⟩ := emitAll_outcome out s <;> rwa [h]

/-- A failing access to something else makes no difference to an emit. -/
theorem dstEmit_failing {a : Access} {s : State} (ha : a ≠ .dstEmit s.dst.length) (b : Byte) :
    dstEmit b (s.failing a) = (dstEmit b s).map (State.failing · a) := by
  have h : (s.failing a).failsAt (.dstEmit s.dst.length) = s.failsAt (.dstEmit s.dst.length) := by
    simp [State.failing_failsAt, ha.symm]
  simp only [dstEmit, State.failing_dst, h]
  cases s.failsAt (.dstEmit s.dst.length) <;> rfl

theorem dstEmit_failing_self (b : Byte) (s : State) :
    dstEmit b (s.failing (.dstEmit s.dst.length)) = .fails [.io] (s.failing (.dstEmit s.dst.length)) := by
  simp [dstEmit, State.failing_failsAt]

theorem dstEmit_outcome (b : Byte) (s : State) :
    dstEmit b s = .fails [.io] s ∨ dstEmit b s = .ok { s with dst := s.dst ++ [b] } := by
  unfold dstEmit
  split_ifs
  · exact .inl rfl
  · exact .inr rfl

/-- A failing emit cuts DST at its ordinal. -/
theorem emitAll_failing {k : Nat} (out : List Byte) {s : State} (hk : s.dst.length ≤ k) :
    (emitAll out (s.failing (.dstEmit k))).state.dst = (emitAll out s).state.dst.take k := by
  induction out generalizing s with
  | nil => exact (List.take_of_length_le hk).symm
  | cons b bs ih =>
    rcases hk.eq_or_lt with rfl | hlt
    · rw [emitAll, dstEmit_failing_self]
      exact List.prefix_iff_eq_take.mp (emitAll_prefix (b :: bs) s)
    · have hne : Access.dstEmit k ≠ .dstEmit s.dst.length := fun h => hlt.ne' (Access.dstEmit.inj h)
      rw [emitAll, emitAll, dstEmit_failing hne]
      rcases dstEmit_outcome b s with h | h <;> rw [h]
      · exact (List.take_of_length_le hk).symm
      · exact ih (by simpa using hlt)

/-- An access that is none of the emits to come makes no difference to them. -/
theorem emitAll_failing_other {a : Access} (out : List Byte) {s : State} (ha : ∀ k, a = .dstEmit k → k < s.dst.length) :
    (emitAll out (s.failing a)).state.dst = (emitAll out s).state.dst := by
  induction out generalizing s with
  | nil => rfl
  | cons b bs ih =>
    rw [emitAll, emitAll, dstEmit_failing fun h => (ha _ h).false]
    rcases dstEmit_outcome b s with h | h <;> rw [h]
    · rfl
    · exact ih fun k hk => (ha k hk).trans_le (by simp)

end Sys2Proof.Machine
end

section
/-! What a command can do, said once: how it ends (10_state.md rules R20, R26; 60_exceptions.md rule R218), and which emits
and pixel stores it makes (20_memory.md rules R62, R65). -/

namespace Sys2Proof.Machine

/-! ## Registers -/

/-- The commands that write RES and no other register. -/
def answersValue : Instr → Bool
  | .mask _ _ _ | .getbits _ _ _ _ | .b2u24 _ _ _ | .u24b _ | .ljust _ _ | .decbits _ _ _ | .getcoord _ | .chunksz _
  | .dechdr => true
  | _ => false

/-- The commands that write no register. -/
def keepsRegs : Instr → Bool
  | .encbits _ _ _ _ | .enchdr _ | .hide _ _ _ | .rdreg _ => true
  | _ => false

/-- The registers `r'` that command `i` may leave when it completes in the registers `r`, with what its checks have then
established. -/
inductive Completes (r : Regs) : Instr → Regs → Prop where
  | value {i : Instr} (hi : answersValue i = true) (v : RegWord) : Completes r i { r with res := v }
  | kept {i : Instr} (hi : keepsRegs i = true) : Completes r i r
  | rdinit {n : BitVec 7} {srclen : BitVec 64} (hn : 1 ≤ n.toNat ∧ n.toNat ≤ 32) (hlen : srclen.toNat < 2 ^ 61) :
      Completes r (.rdinit n srclen)
        { r with
          srcLen := srclen, rdCsize := n.setWidth 6, rdCursor := 0, rdOrder := 0, rdActive := true, chkValid := false }
  | rdchunkEnd : Completes r .rdchunk { r with chkValid := false, res := 0 }
  | rdchunk (hactive : r.rdActive = true) (hleft : r.rdCursor.toNat < 8 * r.srcLen.toNat) (bytes : List Byte) (skip : Nat) :
      Completes r .rdchunk (chunkTaken r (BitVec.ofNat 32 (gatherBits bytes skip (nextChunkLength r))))
  | write {n : BitVec 7} {data : BitVec 32} (count : BitVec 64) :
      Completes r (.write n data)
        { r with
          dstCount := count
          remData := (accumulate r.remData r.remLen data n.toNat).remData
          remLen := (accumulate r.remData r.remLen data n.toNat).remLen }
  | writec (count : BitVec 64) :
      Completes r .writec
        { r with
          dstCount := count
          remData := (accumulate r.remData r.remLen r.chkData r.chkLen.toNat).remData
          remLen := (accumulate r.remData r.remLen r.chkData r.chkLen.toNat).remLen
          chkValid := false }
  | wrclose (count : BitVec 64) : Completes r .wrclose { r with dstCount := count, remData := 0, remLen := 0 }
  | imgcfg {n : BitVec 7} {height width : BitVec 32} (hw : 32 ≤ width.toNat) (hh : 1 ≤ height.toNat) (hn : n = 3 ∨ n = 4) :
      Completes r (.imgcfg n height width)
        { r with
          imgW := width, imgH := height, imgCh := n.setWidth 3, mode := .none, hidSize := 0, hidCsize := 0, rdPos := 0 }
  | setuph {size : BitVec 64} (hW : r.imgW ≠ 0) (hmode : r.mode = .none) (v : RegWord) :
      Completes r (.setuph size) { r with mode := .hide, res := v }
  | setupx (hW : r.imgW ≠ 0) (hmode : r.mode = .none) {v : Nat} (hv : v < 2 ^ 32)
      (hcap : exceedsCapacity v r.usable = false) (res : RegWord) :
      Completes r .setupx
        { r with
          hidSize := BitVec.ofNat 32 v, hidCsize := BitVec.ofNat 5 (chunkSizeFor v r.usable), rdPos := 0, mode := .extract,
          res := res }
  | hidec : Completes r .hidec { r with chkValid := false }
  | pullEnd : Completes r .pull { r with chkValid := false, res := 0 }
  | pull (hmode : r.mode = .extract) (hleft : r.rdPos.toNat * r.hidCsize.toNat < 8 * r.hidSize.toNat) (F : Field24) :
      Completes r .pull (chunkPulled r F)

/-- The values of ERR after a fault (60_exceptions.md rules R216, R220). -/
def faultErrs : List (BitVec 8) := [0x02, 0x04, 0x06, 0x08, 0x10, 0x20, 0x40, 0x80]

/-- How command `i` ends, what it leaves in DST and PIX aside: it completes, or faults precisely, or is an IO fault after
some of its accesses. -/
inductive Ends (s : State) (i : Instr) (t : State) : Prop where
  | completes {r : Regs} {d : RegWord} (hr : Completes s.regs i r)
      (ht : t = { completed s r d with dst := t.dst, pix := t.pix })
  | faults {e : BitVec 8} (he : e ∈ faultErrs) (ht : t = faultedWith s e)
  | ioFault (ht : t = { faultedWith s 0x08 with dst := t.dst, pix := t.pix })

/-! ## Memories -/

/-- The bytes a command emits, if no emit answers "error" (42_chunk_writer.md rules R152, R153, R155). -/
def emittedBytes (r : Regs) : Instr → List Byte
  | .write n data => if 32 < n.toNat then [] else (accumulate r.remData r.remLen data n.toNat).out
  | .writec => if r.chkValid = false then [] else (accumulate r.remData r.remLen r.chkData r.chkLen.toNat).out
  | .wrclose => if r.remLen = 0 then [] else [r.remData]
  | _ => []

/-- The one store of `hide_data`, once its checks have passed (44_header_session.md rule R193). -/
def hidingStores (r : Regs) (data : BitVec 32) (length order : Nat) : List PixelStore :=
  if 24 < length then []
  else if 2 ^ length ≤ data.toNat then []
  else if r.imgH.toNat ≤ (32 + order) / r.imgW.toNat then []
  else [(BitVec.ofNat 64 (32 + order), fun F => insertLow F data length)]

/-- The pixel stores a command makes, if no access answers "error". -/
def pixelStores (r : Regs) : Instr → List PixelStore
  | .encbits n y x bits =>
    if r.imgW = 0 then []
    else if 24 < n.toNat then []
    else if 2 ^ n.toNat ≤ bits.toNat then []
    else if r.imgW.toNat ≤ x.toNat ∨ r.imgH.toNat ≤ y.toNat then []
    else [(pixelIndex x.toNat y.toNat r.imgW.toNat, fun F => insertLow F bits n.toNat)]
  | .enchdr size => if r.imgW = 0 then [] else if 2 ^ 32 ≤ size.toNat then [] else headerStores (size.setWidth 32)
  | .setuph size =>
    if r.imgW = 0 then []
    else if r.mode ≠ .none then []
    else if sizeErr r size.toNat ≠ 0 then []
    else headerStores (size.setWidth 32)
  | .hide n order data =>
    if r.imgW = 0 then [] else if r.mode ≠ .hide then [] else hidingStores r data n.toNat order.toNat
  | .hidec =>
    if r.imgW = 0 then []
    else if r.mode ≠ .hide then []
    else if r.chkValid = false then []
    else hidingStores r r.chkData r.chkLen.toNat r.chkOrder.toNat
  | _ => []

/-- `t` is what command `i` may make of `s`, with the emits `out` and the pixel stores `stores`. -/
structure Effect (s : State) (i : Instr) (out : List Byte) (stores : List PixelStore) (t : State) : Prop where
  ends : Ends s i t
  dst : t.dst = (emitAll out s).state.dst
  pix : t.pix = (storeAll stores s).state.pix

namespace Effect

variable {s t : State} {i : Instr} {out : List Byte} {stores : List PixelStore}

theorem fault {e : BitVec 8} (he : e ∈ faultErrs) : Effect s i [] [] (faultedWith s e) := ⟨.faults he rfl, rfl, rfl⟩

theorem complete {r : Regs} (hr : Completes s.regs i r) (d : RegWord) : Effect s i [] [] (completed s r d) :=
  ⟨.completes hr rfl, rfl, rfl⟩

/-- A guard of a command that stores nothing. -/
theorem guard {c : Prop} [Decidable c] {e : BitVec 8} (h : ¬ c → Effect s i [] [] t)
    (he : c → e ∈ faultErrs := by intro _; decide) : Effect s i [] [] (if c then faultedWith s e else t) := by
  split_ifs with hc
  · exact fault (he hc)
  · exact h hc

/-- A guard of a command that emits. -/
theorem guardEmits {c : Prop} [Decidable c] {e : BitVec 8} (h : ¬ c → Effect s i out [] t)
    (he : c → e ∈ faultErrs := by intro _; decide) :
    Effect s i (if c then [] else out) [] (if c then faultedWith s e else t) := by
  split_ifs with hc
  · exact fault (he hc)
  · exact h hc

/-- A guard of a command that stores pixels. -/
theorem guardStores {c : Prop} [Decidable c] {e : BitVec 8} (h : ¬ c → Effect s i [] stores t)
    (he : c → e ∈ faultErrs := by intro _; decide) :
    Effect s i [] (if c then [] else stores) (if c then faultedWith s e else t) := by
  split_ifs with hc
  · exact fault (he hc)
  · exact h hc

/-- A command that ends in emits. -/
theorem emitsBytes (he : s.regs.err = 0) {update finish : State → State}
    (hf : ∀ d, ∃ r v, Completes s.regs i r ∧ finish (update { s with dst := d }) = { completed s r v with dst := d }) :
    Effect s i out [] (((emitAll out s).andThen fun t => .ok (update t)).settle finish) := by
  obtain ⟨d, -, h | h⟩ := emitAll_outcome out s <;> rw [h]
  · obtain ⟨r, v, hr, hd⟩ := hf d
    rw [Attempt.andThen_ok, Attempt.settle_ok, hd]
    exact ⟨.completes hr rfl, by rw [h]; rfl, rfl⟩
  · rw [Attempt.andThen_fails, Attempt.settle_fails, raise_one (by exact he)]
    exact ⟨.ioFault rfl, by rw [h]; rfl, rfl⟩

/-- A command that ends in pixel stores. -/
theorem storesPixels (he : s.regs.err = 0) {finish : State → State}
    (hf : ∀ p, ∃ r v, Completes s.regs i r ∧ finish { s with pix := p } = { completed s r v with pix := p }) :
    Effect s i [] stores ((storeAll stores s).settle finish) := by
  obtain ⟨p, h | h⟩ := storeAll_outcome stores s <;> rw [h]
  · obtain ⟨r, v, hr, hp⟩ := hf p
    rw [Attempt.settle_ok, hp]
    exact ⟨.completes hr rfl, rfl, by rw [h]; rfl⟩
  · rw [Attempt.settle_fails, raise_one (by exact he)]
    exact ⟨.ioFault rfl, rfl, by rw [h]; rfl⟩

end Effect

theorem sizeErr_mem_faultErrs {r : Regs} {size : Nat} (h : sizeErr r size ≠ 0) : sizeErr r size ∈ faultErrs := by
  have late : ∀ e ∈ lateErrs, e ≠ 0 → e ∈ faultErrs := by decide
  exact late _ (sizeErr_mem_lateErrs ..) h

theorem illegalPacket_of_clear {s : State} (he : s.regs.err = 0) : illegalPacket s = faultedWith s 0x80 := by
  rw [illegalPacket, faulted_eq_false he, if_neg Bool.false_ne_true, raise_one he]
  rfl

/-- RDREG of an unimplemented number is an illegal packet (45_system.md rule R210). -/
theorem exec_rdreg_unimplemented {s : State} (he : s.regs.err = 0) {p : BitVec 7} (hp : Csr.ofNumber p = none) :
    exec (.rdreg p) s = .next (faultedWith s 0x80) := by
  simp only [exec, execRdreg, hp, illegalPacket_of_clear he]

/-- Every command in a block that is not FAULTED. -/
theorem exec_effect {s : State} (he : s.regs.err = 0) (i : Instr) :
    ∃ t, exec i s = .next t ∧ Effect s i (emittedBytes s.regs i) (pixelStores s.regs i) t := by
  have value : ∀ {i : Instr} (v : RegWord), answersValue i = true → Effect s i [] [] (completedWith s v) :=
    fun v hi => .complete (.value hi v) v
  have ioFault : ∀ {i : Instr}, Effect s i [] [] (faultedWith s 0x08) := .fault (by decide)
  have responds : ∀ (t : State), t.regs.err = 0 → respond 0 t = completed t t.regs 0 := fun t ht => respond_of_clear ht 0
  cases i with
  | mask wsel inv n =>
    refine ⟨_, exec_mask_eq he .., ?_⟩
    cases Width.ofSelect wsel with
    | none => exact .fault (by decide)
    | some w => exact .guard fun _ => value _ rfl
  | getbits wsel n p src =>
    refine ⟨_, exec_getbits_eq he .., ?_⟩
    cases Width.ofSelect wsel with
    | none => exact .fault (by decide)
    | some w => exact .guard fun _ => .guard fun _ => value _ rfl
  | b2u24 b0 b1 b2 => exact ⟨_, exec_b2u24_eq he .., value _ rfl⟩
  | u24b x => exact ⟨_, exec_u24b_eq he .., value _ rfl⟩
  | ljust n data => exact ⟨_, exec_ljust_eq he .., .guard fun _ => value _ rfl⟩
  | rdinit n srclen =>
    exact ⟨_, exec_rdinit_eq he .., .guard fun hn => .guard fun hlen =>
      .complete (.rdinit (by omega) (by omega)) _⟩
  | rdchunk =>
    refine ⟨_, exec_rdchunk_eq he, .guard fun hactive => ?_⟩
    split_ifs with hleft
    · exact .complete .rdchunkEnd _
    · cases srcReadAll (spanAddresses s.regs.rdCursor.toNat (nextChunkLength s.regs)) s with
      | none => exact ioFault
      | some bytes => exact .complete (.rdchunk (by simpa using hactive) (by omega) _ _) _
  | write n data =>
    exact ⟨_, exec_write_eq he .., .guardEmits fun _ => .emitsBytes he fun d => ⟨_, _, .write _, responds _ he⟩⟩
  | writec =>
    exact ⟨_, exec_writec_eq he, .guardEmits fun _ => .emitsBytes he fun d => ⟨_, _, .writec _, responds _ he⟩⟩
  | wrclose =>
    exact ⟨_, exec_wrclose_eq he, .emitsBytes he fun d => ⟨_, _, .wrclose _, responds _ he⟩⟩
  | imgcfg n height width =>
    exact ⟨_, exec_imgcfg_eq he .., .guard fun hshape => .guard fun hn =>
      .complete (.imgcfg (by omega) (by omega) (by tauto)) _⟩
  | encbits n y x bits =>
    refine ⟨_, exec_encbits_eq he .., .guardStores fun _ => .guardStores fun _ => .guardStores fun _ =>
      .guardStores fun _ => ?_⟩
    rw [modifyPixel_eq_storeAll]
    exact .storesPixels he fun p => ⟨_, _, .kept rfl, responds _ he⟩
  | decbits n y x =>
    refine ⟨_, exec_decbits_eq he .., .guard fun _ => .guard fun _ => .guard fun _ => ?_⟩
    cases readField (pixelIndex x.toNat y.toNat s.regs.imgW.toNat) s with
    | none => exact ioFault
    | some F => exact value _ rfl
  | getcoord order => exact ⟨_, exec_getcoord_eq he .., .guard fun _ => .guard fun _ => value _ rfl⟩
  | chunksz size => exact ⟨_, exec_chunksz_eq he .., .guard fun _ => .guard (fun _ => value _ rfl) sizeErr_mem_faultErrs⟩
  | enchdr size =>
    refine ⟨_, exec_enchdr_eq he .., .guardStores fun _ => .guardStores fun _ => ?_⟩
    rw [encodeHeader_eq_storeAll]
    exact .storesPixels he fun p => ⟨_, _, .kept rfl, responds _ he⟩
  | dechdr =>
    refine ⟨_, exec_dechdr_eq he, .guard fun _ => ?_⟩
    cases decodeHeader s with
    | none => exact ioFault
    | some v => exact value _ rfl
  | setuph size =>
    refine ⟨_, exec_setuph_eq he .., .guardStores fun hW => .guardStores fun hmode =>
      .guardStores (fun _ => ?_) sizeErr_mem_faultErrs⟩
    rw [encodeHeader_eq_storeAll]
    exact .storesPixels he fun p => ⟨_, _, .setuph hW (not_not.mp hmode) _, answer_of_clear (by exact he) _⟩
  | setupx =>
    refine ⟨_, exec_setupx_eq he, .guard fun hW => .guard fun hmode => ?_⟩
    cases h : decodeHeader s with
    | none => exact ioFault
    | some v =>
      exact .guard fun hcap => .complete
        (.setupx hW (not_not.mp hmode) (decodeHeader_lt h) (exceedsCapacity_eq_false.mpr (not_lt.mp hcap)) _) _
  | hide n order data =>
    refine ⟨_, exec_hide_eq he .., .guardStores fun _ => .guardStores fun _ => ?_⟩
    rw [hideData_settle he]
    refine .guardStores fun _ => .guardStores fun _ => .guardStores fun _ => ?_
    rw [modifyPixel_eq_storeAll]
    exact .storesPixels he fun p => ⟨_, _, .kept rfl, responds _ he⟩
  | hidec =>
    refine ⟨_, exec_hidec_eq he, .guardStores fun _ => .guardStores fun _ => .guardStores fun _ => ?_⟩
    rw [hideData_settle he]
    refine .guardStores fun _ => .guardStores fun _ => .guardStores fun _ => ?_
    rw [modifyPixel_eq_storeAll]
    exact .storesPixels he fun p => ⟨_, _, .hidec, responds _ he⟩
  | pull =>
    refine ⟨_, exec_pull_eq he, .guard fun _ => .guard fun hmode => ?_⟩
    split_ifs with hleft
    · cases readField (BitVec.ofNat 64 (32 + s.regs.rdPos.toNat)) s with
      | none => exact ioFault
      | some F => exact .complete (.pull (not_not.mp hmode) (by omega) F) _
    · exact .complete .pullEnd _
  | rdreg p =>
    cases hc : Csr.ofNumber p with
    | none => exact ⟨_, exec_rdreg_unimplemented he hc, .fault (by decide)⟩
    | some c =>
      refine ⟨_, exec_rdreg_eq hc s, ?_⟩
      rw [respond_of_clear he]
      exact .complete (.kept rfl) _

end Sys2Proof.Machine
end

section
/-! What a command writes and what it leaves alone (10_state.md section 1, 20_memory.md sections 1 to 4, 60_exceptions.md
rules R218 to R221, 44_header_session.md rule R189): all read off `exec_effect`. -/

namespace Sys2Proof.Machine

/-! ## Inversion -/

/-- In a block that is not FAULTED a command has its effect. -/
theorem effect_of_exec {s t : State} {i : Instr} (he : s.regs.err = 0) (h : exec i s = .next t) :
    Effect s i (emittedBytes s.regs i) (pixelStores s.regs i) t := by
  obtain ⟨t', ht', heff⟩ := exec_effect he i
  cases h.symm.trans ht'
  exact heff

/-- A FAULTED block only answers. -/
theorem exec_faulted_rsps {s t : State} {i : Instr} (he : s.regs.err ≠ 0) (h : exec i s = .next t) :
    t = { s with rsps := t.rsps } := by
  by_cases hi : ∃ p, i = .rdreg p
  · obtain ⟨p, rfl⟩ := hi
    simp only [exec, execRdreg, illegalPacket_of_faulted he] at h
    split at h <;> (cases h; rfl)
  · rw [exec_of_faulted he fun p hp => hi ⟨p, hp⟩] at h
    cases h
    rfl

theorem Completes.err {r r' : Regs} {i : Instr} (h : Completes r i r') : r'.err = r.err := by
  cases h <;> rfl

/-- Everything a command can do to the registers, FAULTED or not. -/
theorem exec_regs {s t : State} {i : Instr} (h : exec i s = .next t) :
    t.regs = s.regs ∨ (∃ e ∈ faultErrs, t.regs = { s.regs with err := e }) ∨ Completes s.regs i t.regs := by
  by_cases he : s.regs.err = 0
  · cases (effect_of_exec he h).ends with
    | completes hr ht => rw [ht]; exact .inr (.inr hr)
    | faults hmem ht => rw [ht]; exact .inr (.inl ⟨_, hmem, rfl⟩)
    | ioFault ht => rw [ht]; exact .inr (.inl ⟨_, by decide, rfl⟩)
  · rw [exec_faulted_rsps he h]
    exact .inl rfl

/-- No command touches SRC, IOERR or the inputs. -/
theorem exec_frame {s t : State} {i : Instr} (h : exec i s = .next t) :
    t = { s with regs := t.regs, dst := t.dst, pix := t.pix, rsps := t.rsps } := by
  by_cases he : s.regs.err = 0
  · cases (effect_of_exec he h).ends with
    | completes hr ht => rw [ht]; rfl
    | faults hmem ht => rw [ht]; rfl
    | ioFault ht => rw [ht]; rfl
  · rw [exec_faulted_rsps he h]

/-- The emits a command makes in the registers `r`, FAULTED or not. -/
def emitsOf (r : Regs) (i : Instr) : List Byte := if r.err = 0 then emittedBytes r i else []

/-- The pixel stores a command makes in the registers `r`, FAULTED or not. -/
def storesOf (r : Regs) (i : Instr) : List PixelStore := if r.err = 0 then pixelStores r i else []

theorem exec_dst {s t : State} {i : Instr} (h : exec i s = .next t) :
    t.dst = (emitAll (emitsOf s.regs i) s).state.dst := by
  by_cases he : s.regs.err = 0
  · rw [emitsOf, if_pos he, (effect_of_exec he h).dst]
  · rw [emitsOf, if_neg he, exec_faulted_rsps he h]
    rfl

theorem exec_pix {s t : State} {i : Instr} (h : exec i s = .next t) :
    t.pix = (storeAll (storesOf s.regs i) s).state.pix := by
  by_cases he : s.regs.err = 0
  · rw [storesOf, if_pos he, (effect_of_exec he h).pix]
  · rw [storesOf, if_neg he, exec_faulted_rsps he h]
    rfl

/-! ## Faults -/

/-- Settles O14: an end with ERR set is a precise fault or an IO fault. -/
theorem faultsWriteOnlyErr : Obligations.FaultsWriteOnlyErr := by
  intro s t i he h hne
  cases (effect_of_exec he h).ends with
  | completes hr ht => rw [ht] at hne; exact absurd (hr.err.trans he) hne
  | faults hmem ht => subst ht; exact ⟨rfl, rfl, fun _ => rfl⟩
  | ioFault ht => rw [ht]; exact ⟨rfl, rfl, fun hio => absurd rfl hio⟩

/-- An ill-formed term is ILLEGAL (30_encoding.md rule R95 (4) and (5)). -/
theorem exec_of_illFormed {s : State} (he : s.regs.err = 0) {i : Instr} (h : i.wellFormed = false) :
    exec i s = .next (faultedWith s 0x80) := by
  cases i with
  | mask wsel inv n => simp only [exec_mask_eq he, Width.ofSelect_of_not_ok h]
  | getbits wsel n p src => simp only [exec_getbits_eq he, Width.ofSelect_of_not_ok h]
  | rdreg p => exact exec_rdreg_unimplemented he (Csr.ofNumber_of_not_ok h)
  | _ => cases h

/-- Settles O20: a well-formed term raises no cause but those `exec_checked` lists, and ILLEGAL is not one of them. -/
theorem reservedOperandsRaiseIllegal : Obligations.ReservedOperandsRaiseIllegal := by
  intro s i he
  refine ⟨exec_of_illFormed he, fun h => ?_⟩
  by_contra hwf
  obtain ⟨t, ht, hc⟩ := exec_checked he (Bool.not_eq_false _ ▸ hwf)
  cases h.symm.trans ht
  exact absurd hc.err_mem (by simp [lateErrs])

/-! ## Registers -/

/-- Settles O54: only three commands complete with another MODE. -/
theorem sessionModeMachine : Obligations.SessionModeMachine := by
  intro s t i h hne
  rcases exec_regs h with ht | ⟨e, -, ht⟩ | hc
  · exact absurd (congrArg Regs.mode ht) hne
  · exact absurd (congrArg Regs.mode ht) hne
  · generalize t.regs = r' at hc hne
    cases hc with
    | imgcfg => exact .inr (.inr ⟨rfl, _, _, _, rfl⟩)
    | setuph hW hmode v => exact .inl ⟨hmode, rfl, _, rfl⟩
    | setupx hW hmode hv hcap res => exact .inr (.inl ⟨hmode, rfl, rfl⟩)
    | _ => exact absurd rfl hne

theorem writesRes_of_answersValue {i : Instr} (h : answersValue i = true) : writesRes i = true := by
  cases i with
  | mask | getbits | b2u24 | u24b | ljust | decbits | getcoord | chunksz | dechdr => rfl
  | _ => cases h

/-- Settles O60: each way to complete changes the registers of its row only. -/
theorem registersAreWrittenOnlyByTheirCommands : Obligations.RegistersAreWrittenOnlyByTheirCommands := by
  intro s t i h
  rcases exec_regs h with ht | ⟨e, -, ht⟩ | hc
  · simp [ht]
  · simp [ht]
  · generalize t.regs = r' at hc
    cases hc with
    | value hi v => simp [writesRes_of_answersValue hi]
    | kept hi => simp
    | _ => simp [writesRes, chunkTaken, chunkPulled]

end Sys2Proof.Machine
end

section
/-! Where commands store (20_memory.md sections 1, 2 and 4; 44_header_session.md rule R193): read off the stores of
`exec_pix` and the emits of `exec_dst`. -/

namespace Sys2Proof.Machine

theorem State.memoriesOk_iff (s : State) :
    s.memoriesOk = true ↔
      s.src.wf = true ∧ s.src.within Config.srcBytes = true ∧ s.pix.wf = true ∧ s.pix.within Config.pixBytes = true := by
  simp [State.memoriesOk, and_assoc]

/-! ## The pixels of a command -/

theorem mem_headerStores {v : BitVec 32} {m : PixelStore} (h : m ∈ headerStores v) : m.1.toNat < 32 := by
  obtain ⟨i, hi, rfl⟩ := List.mem_map.mp h
  have hi : i < 32 := List.mem_range.mp hi
  rwa [headerPixel_toNat hi]

/-- The header's pixels come in order (44_header_session.md rule R186). -/
theorem headerStores_pairwise (v : BitVec 32) : (headerStores v).Pairwise fun m m' => m.1.toNat < m'.1.toNat := by
  refine List.pairwise_map.mpr (List.pairwise_lt_range.imp_of_mem fun {i j} hi hj hlt => ?_)
  have hi : i < 32 := List.mem_range.mp hi
  have hj : j < 32 := List.mem_range.mp hj
  rwa [headerPixel_toNat hi, headerPixel_toNat hj]

/-- The commands that store one pixel. -/
def storesOnePixel : Instr → Bool
  | .encbits _ _ _ _ | .hide _ _ _ | .hidec => true
  | _ => false

/-- The two commands that hide a chunk. -/
def hidesChunk : Instr → Bool
  | .hide _ _ _ | .hidec => true
  | _ => false

/-- What the pixel stores of a command can be: none, one (which in HIDE and HIDEC is past the header), or the header. -/
inductive StoreShape (i : Instr) : List PixelStore → Prop where
  | none : StoreShape i []
  | one (m : PixelStore) (hi : storesOnePixel i = true) (hm : hidesChunk i = true → 32 ≤ m.1.toNat) : StoreShape i [m]
  | header (size : BitVec 64) (hi : i = .enchdr size ∨ i = .setuph size) : StoreShape i (headerStores (size.setWidth 32))

/-- A command stores nothing when a guard fails. -/
theorem StoreShape.guard {i : Instr} {stores : List PixelStore} {c : Prop} [Decidable c] (h : ¬ c → StoreShape i stores) :
    StoreShape i (if c then [] else stores) := by
  split_ifs with hc
  · exact .none
  · exact h hc

/-- HIDE and HIDEC store one pixel of the image, past the header. -/
theorem StoreShape.hiding {i : Instr} (hi : storesOnePixel i = true) {r : Regs} (hW : r.imgW ≠ 0) (data : BitVec 32)
    (length order : Nat) : StoreShape i (hidingStores r data length order) := by
  refine .guard fun _ => .guard fun _ => .guard fun hy => .one _ hi fun _ => ?_
  have hpos : 0 < r.imgW.toNat := BitVec.toNat_pos_of_ne_zero hW
  have hin : 32 + order < r.imgH.toNat * r.imgW.toNat := (Nat.div_lt_iff_lt_mul hpos).mp (not_le.mp hy)
  have hmax : r.imgH.toNat * r.imgW.toNat < 2 ^ 32 * 2 ^ 32 := Nat.mul_lt_mul'' r.imgH.isLt r.imgW.isLt
  rw [BitVec.toNat_ofNat, Nat.mod_eq_of_lt (by omega)]
  omega

theorem pixelStores_shape (r : Regs) (i : Instr) : StoreShape i (pixelStores r i) := by
  cases i with
  | encbits n y x bits => exact .guard fun _ => .guard fun _ => .guard fun _ => .guard fun _ => .one _ rfl fun h => nomatch h
  | enchdr size => exact .guard fun _ => .guard fun _ => .header size (.inl rfl)
  | setuph size => exact .guard fun _ => .guard fun _ => .guard fun _ => .header size (.inr rfl)
  | hide n order data => exact .guard fun hW => .guard fun _ => .hiding rfl hW ..
  | hidec => exact .guard fun hW => .guard fun _ => .guard fun _ => .hiding rfl hW ..
  | _ => exact .none

theorem storesOf_shape (r : Regs) (i : Instr) : StoreShape i (storesOf r i) := by
  unfold storesOf
  split_ifs
  · exact pixelStores_shape r i
  · exact .none

/-! ## The memories -/

/-- A command changes bytes of PIX only in the pixels of its stores, and never alpha. -/
theorem exec_pixByte {s t : State} {i : Instr} (hm : s.memoriesOk = true) (h : exec i s = .next t) {j : PixIndex} {ch : Nat}
    (hch : ch < 4) (hj : (∀ m ∈ storesOf s.regs i, m.1 ≠ j) ∨ ch = 3) : t.pixByte j ch = s.pixByte j ch := by
  obtain ⟨-, -, hkept⟩ := storeAll_pix (storesOf s.regs i) (State.pix_wf_of_memoriesOk hm)
  rw [State.pixByte, exec_pix h]
  exact hkept j ch hch (hj.imp_left fun hne ⟨m, hm, hmj⟩ => hne m hm hmj)

theorem exec_memoriesOk {s t : State} {i : Instr} (hm : s.memoriesOk = true) (h : exec i s = .next t) :
    t.memoriesOk = true := by
  rw [State.memoriesOk_iff] at *
  obtain ⟨hsrc, hsrc', hpix, hpix'⟩ := hm
  obtain ⟨hwf, hwithin, -⟩ := storeAll_pix (storesOf s.regs i) hpix
  have ht : t.src = s.src := by rw [exec_frame h]
  rw [ht, exec_pix h]
  exact ⟨hsrc, hsrc', hwf, hwithin hpix'⟩

/-- Settles O53: the one store of HIDE and HIDEC is past the header, the stores of ENCHDR and SETUPH are the header. -/
theorem headerAndPayloadDoNotOverlap : Obligations.HeaderAndPayloadDoNotOverlap := by
  intro s t i hm h
  have hkept := fun {j ch} hch hj => exec_pixByte hm h (j := j) (ch := ch) hch (.inl hj)
  have hstores := storesOf_shape s.regs i
  generalize storesOf s.regs i = stores at *
  refine ⟨fun hi j ch hch hj => hkept hch ?hides, fun hi j ch hch hj => hkept hch ?header⟩
  case hides =>
    rintro m hmem rfl
    cases hstores with
    | none => cases hmem
    | one m' _ hout =>
      obtain rfl := List.mem_singleton.mp hmem
      exact hj.not_ge (hout (by rcases hi with rfl | ⟨_, _, _, rfl⟩ <;> rfl))
    | header size hi' => rcases hi with rfl | ⟨_, _, _, rfl⟩ <;> simp at hi'
  case header =>
    rintro m hmem rfl
    cases hstores with
    | none => cases hmem
    | one m' hone _ => obtain ⟨size, rfl | rfl⟩ := hi <;> cases hone
    | header size _ => exact hj.not_gt (mem_headerStores hmem)

/-- The commands with emits. -/
theorem emitsOf_of_not_writer {i : Instr} (r : Regs) (hw : ∀ n data, i ≠ .write n data) (hc : i ≠ .writec)
    (hl : i ≠ .wrclose) : emitsOf r i = [] := by
  unfold emitsOf
  split_ifs
  · cases i with
    | write n data => exact absurd rfl (hw n data)
    | writec => exact absurd rfl hc
    | wrclose => exact absurd rfl hl
    | _ => rfl
  · rfl

/-- Settles O59: SRC, IOERR and the inputs by `exec_frame`, DST by its emits, PIX by its stores. -/
theorem commandsStoreOnlyWhereTheyMay : Obligations.CommandsStoreOnlyWhereTheyMay := by
  intro s t i hm h
  refine ⟨fun a => ?src, fun j => exec_pixByte hm h (by decide) (.inr rfl), ?grows, fun hne => ?writers, ?stores,
    by rw [exec_frame h], by rw [exec_frame h]⟩
  case src =>
    rw [exec_frame h]
    rfl
  case grows =>
    rw [exec_dst h]
    exact emitAll_prefix _ _
  case writers =>
    by_contra hi
    simp only [not_or, not_exists] at hi
    obtain ⟨hc, hl, hw⟩ := hi
    rw [exec_dst h, emitsOf_of_not_writer _ hw hc hl] at hne
    exact hne rfl
  case stores =>
    rintro ⟨j, ch, hch, hne⟩
    have hkept := exec_pixByte hm h (j := j) hch
    have hstores := storesOf_shape s.regs i
    generalize storesOf s.regs i = stores at *
    cases hstores with
    | none => exact absurd (hkept (.inl fun m hmem => nomatch hmem)) hne
    | one m hone _ =>
      cases i with
      | hidec => exact .inl rfl
      | encbits n y x bits => exact .inr (.inl ⟨n, y, x, bits, rfl⟩)
      | hide n order data => exact .inr (.inr (.inl ⟨n, order, data, rfl⟩))
      | _ => cases hone
    | header size hi => exact .inr (.inr (.inr ⟨size, hi⟩))

end Sys2Proof.Machine
end

section
/-! The invariant of the registers (10_state.md rules R24, R39; 60_exceptions.md rule R223): every way a command can end
keeps it. -/

namespace Sys2Proof.Machine

/-- A value below `2 ^ k` in a register at least that wide. -/
theorem toNat_ofNat_of_lt {x k n : Nat} (hx : x < 2 ^ k) (hk : k ≤ n) : (BitVec.ofNat n x).toNat = x :=
  Nat.mod_eq_of_lt (hx.trans_le (Nat.pow_le_pow_right (by decide) hk))

/-- R166: an extracted field fits its length. -/
theorem extractLow_toNat_lt (F : Field24) {L : Nat} (hL : L ≤ 24) : (extractLow F L).toNat < 2 ^ L := by
  have hmask : maskValue 24 L false < 2 ^ L := Nat.sub_lt (Nat.two_pow_pos L) (by decide)
  rw [extractLow, BitVec.toNat_and, toNat_ofNat_of_lt hmask hL]
  exact Nat.and_le_right.trans_lt hmask

/-- R142: the length of the next chunk, while bits are left. -/
theorem nextChunkLength_bounds {r : Regs} (h : r.Inv) (hactive : r.rdActive = true)
    (hleft : r.rdCursor.toNat < 8 * r.srcLen.toNat) :
    1 ≤ nextChunkLength r ∧ nextChunkLength r ≤ 32 ∧ r.rdCursor.toNat + nextChunkLength r ≤ 8 * r.srcLen.toNat := by
  obtain ⟨hmin, hmax⟩ := h.chunkSize hactive
  unfold nextChunkLength
  omega

/-- R24, R172: while payload is left, PULL has not taken the last of its chunks, which all fit the image. -/
theorem rdPos_lt_ceilDiv {r : Regs} (h : r.Inv) (hmode : r.mode = .extract)
    (hleft : r.rdPos.toNat * r.hidCsize.toNat < 8 * r.hidSize.toNat) :
    r.hidCsize ≠ 0 ∧ r.rdPos.toNat < ceilDiv (8 * r.hidSize.toNat) r.hidCsize.toNat := by
  have hc : r.hidCsize ≠ 0 := fun hc => by
    rw [(h.emptyPayload hmode).mp hc] at hleft
    simp at hleft
  exact ⟨hc, (lt_ceilDiv (BitVec.toNat_pos_of_ne_zero hc)).mpr hleft⟩

/-- R39 (7): what SETUPX records of a size that passed the capacity test. -/
theorem chunkSizeFor_toNat {size usable : Nat} (h : exceedsCapacity size usable = false) :
    (BitVec.ofNat 5 (chunkSizeFor size usable)).toNat = chunkSizeFor size usable :=
  toNat_ofNat_of_lt (k := 5) ((chunkSizeFor_le h).trans_lt (by decide)) le_rfl

/-- R39: every completion keeps the invariant. -/
theorem Completes.inv {r r' : Regs} {i : Instr} (h : r.Inv) (hc : Completes r i r') : r'.Inv := by
  cases hc with
  | value hi v => exact { h with }
  | kept hi => exact h
  | @rdinit n srclen hn hlen =>
    have hsize : (n.setWidth 6).toNat = n.toNat := by
      rw [BitVec.toNat_setWidth]
      omega
    exact { h with
      cursor := Nat.zero_le _
      srcLen := hlen
      order := Nat.le_refl 0
      chunkSize := fun _ => by rw [hsize]; exact hn }
  | rdchunkEnd => exact { h with }
  | rdchunk hactive hleft bytes skip =>
    obtain ⟨hmin, hmax, hend⟩ := nextChunkLength_bounds h hactive hleft
    have hsrc := h.srcLen
    have horder := h.order
    have hlen : (BitVec.ofNat 6 (nextChunkLength r)).toNat = nextChunkLength r := by
      rw [BitVec.toNat_ofNat]; omega
    have hcursor : (BitVec.ofNat 64 (r.rdCursor.toNat + nextChunkLength r)).toNat =
        r.rdCursor.toNat + nextChunkLength r := by
      rw [BitVec.toNat_ofNat]; omega
    exact { h with
      chunkLen := by simp only [chunkTaken, hlen]; exact hmax
      chunkData := by
        simp only [chunkTaken, hlen, toNat_ofNat_of_lt (gatherBits_lt bytes skip _) hmax]
        exact gatherBits_lt ..
      cursor := by simp only [chunkTaken, hcursor]; exact hend
      order := by
        simp only [chunkTaken, hcursor, BitVec.toNat_add]
        exact (Nat.mod_le _ _).trans (Nat.add_le_add horder hmin) }
  | write count => exact { h with remainder := accumulate_remData_mod .. }
  | writec count => exact { h with remainder := accumulate_remData_mod .. }
  | wrclose count => exact { h with remainder := Nat.zero_mod _ }
  | imgcfg hw hh hn =>
    exact { h with
      image := .inr ⟨hw, hh, hn.imp (by rintro rfl; rfl) (by rintro rfl; rfl)⟩
      session := fun hmode => absurd rfl hmode
      density := Nat.zero_le _
      emptyPayload := fun hmode => nomatch hmode
      payloadFits := fun hmode => nomatch hmode
      position := fun hmode => nomatch hmode }
  | setuph hW hmode v =>
    exact { h with
      session := fun _ => hW
      emptyPayload := fun hmode => nomatch hmode
      payloadFits := fun hmode => nomatch hmode
      position := fun hmode => nomatch hmode }
  | @setupx hW hmode v hv hcap res =>
    have hsize : (BitVec.ofNat 32 v).toNat = v := toNat_ofNat_of_lt hv le_rfl
    have hv0 : BitVec.ofNat 32 v = 0 ↔ v = 0 := by
      rw [← BitVec.toNat_inj, hsize]
      rfl
    have hc0 : BitVec.ofNat 5 (chunkSizeFor v r.usable) = 0 ↔ v = 0 := by
      rw [← BitVec.toNat_inj, chunkSizeFor_toNat hcap]
      exact chunkSizeFor_eq_zero hcap
    exact { h with
      session := fun _ => hW
      density := by simp only [chunkSizeFor_toNat hcap]; exact chunkSizeFor_le hcap
      emptyPayload := fun _ => hc0.trans hv0.symm
      payloadFits := fun _ hc => by
        simp only [chunkSizeFor_toNat hcap, hsize]
        exact ceilDiv_chunkSizeFor_le hcap (Nat.pos_of_ne_zero (mt hc0.mpr hc))
      position := fun _ _ => Nat.zero_le _ }
  | hidec => exact { h with }
  | pullEnd => exact { h with }
  | pull hmode hleft F =>
    obtain ⟨-, hpos⟩ := rdPos_lt_ceilDiv h hmode hleft
    have hlen : (r.hidCsize.setWidth 6).toNat = r.hidCsize.toNat := by
      rw [BitVec.toNat_setWidth]
      omega
    have hdata : ((extractLow F r.hidCsize.toNat).setWidth 32).toNat = (extractLow F r.hidCsize.toNat).toNat := by
      rw [BitVec.toNat_setWidth]
      omega
    exact { h with
      chunkLen := by simp only [chunkPulled, hlen]; exact h.density.trans (by decide)
      chunkData := by simp only [chunkPulled, hlen, hdata]; exact extractLow_toNat_lt F h.density
      position := fun _ _ => by
        simp only [chunkPulled, BitVec.toNat_add]
        exact (Nat.mod_le _ _).trans hpos }

/-- R223: a fault keeps it too. -/
theorem Regs.Inv.setErr {r : Regs} (h : r.Inv) {e : BitVec 8} (he : e ∈ faultErrs) : ({ r with err := e } : Regs).Inv :=
  { h with noFormatFault := (by decide : ∀ e ∈ faultErrs, e.getLsbD 0 = false) e he }

theorem Regs.reset_inv : Regs.reset.Inv where
  remainder := by decide
  chunkLen := by decide
  chunkData := by decide
  cursor := by decide
  srcLen := by decide
  order := by decide
  chunkSize := by decide
  image := by decide
  session := by decide
  density := by decide
  emptyPayload := by decide
  payloadFits := by decide
  position := by decide
  noFormatFault := by decide

/-- Every command keeps the invariant of the registers. -/
theorem exec_inv {s t : State} {i : Instr} (hinv : s.regs.Inv) (h : exec i s = .next t) : t.regs.Inv := by
  rcases exec_regs h with ht | ⟨e, he, ht⟩ | hc
  · rwa [ht]
  · rw [ht]; exact hinv.setErr he
  · exact hc.inv hinv

/-- Settles O57: the reset registers satisfy the invariant, and the memories list nothing. -/
theorem invariantsHoldAtReset : Obligations.InvariantsHoldAtReset := ⟨Regs.reset_inv, rfl⟩

end Sys2Proof.Machine
end

section
/-! Packets and steps (00_scope.md rule R10; 60_exceptions.md rules R221, R230, R237; 70_reset_and_hazards.md rules R240 to
R242). -/

namespace Sys2Proof.Machine

/-! ## Packets -/

/-- Every packet is executed as one command: an illegal one does what RDREG of an unimplemented number does (60_exceptions.md
rule R221). -/
theorem execPacket_eq_exec (w : Packet) :
    ∃ i, (∀ s, execPacket w s = exec i s) ∧ (decode w = .ok i ∨ (∃ r, decode w = .error r) ∧ i = .rdreg 0x7F) := by
  cases hd : decode w with
  | ok i => exact ⟨i, execPacket_of_ok hd, .inl rfl⟩
  | error r => exact ⟨.rdreg 0x7F, execPacket_of_error hd, .inr ⟨⟨r, rfl⟩, rfl⟩⟩

/-- Settles O6: an illegal packet raises ILLEGAL in a block that is not FAULTED and is ignored in one that is. -/
theorem undecodablePacketRaisesIllegal : Obligations.UndecodablePacketRaisesIllegal := by
  intro s w r hd
  rw [execPacket_of_error hd]
  exact ⟨fun he => by rw [illegalPacket_of_clear he], fun he => by rw [illegalPacket_of_faulted he]⟩

/-! ## The step -/

theorem step_of_input {s : State} {e : Input} {rest : List Input} (h : s.inputs = e :: rest) :
    step s = takeInput e { s with inputs := rest } := by
  simp only [step, stepInput, h]

theorem step_idle {s : State} (h : s.inputs = []) : step s = .next s := by
  simp only [step, stepInput, h]

/-- Settles O5: `step_of_input` on a packet. -/
theorem stepRunsTheDecodedCommand : Obligations.StepRunsTheDecodedCommand := fun _ _ _ h =>
  ⟨step_of_input h, fun _ hd => (step_of_input h).trans (execPacket_of_ok hd _)⟩

/-- A command cut short is the command with one more failing access, its registers reset and its response withheld. -/
theorem cutShort_of_exec {w : Packet} {a : Access} {s t : State} (h : execPacket w (s.failing a) = .next t) :
    cutShort w a s = .next { resetRegisters t with ioErr := s.ioErr, rsps := s.rsps } := by
  unfold State.failing at h
  simp only [cutShort, h]

theorem execPacket_answers_next (w : Packet) (s : State) : ∃ t, execPacket w s = .next t := by
  obtain ⟨i, hi, -⟩ := execPacket_eq_exec w
  obtain ⟨t, ht⟩ := exec_answers_next i s
  exact ⟨t, (hi s).trans ht⟩

/-- Everything a step from `s` can do, one case for each oldest input. -/
inductive StepsTo (s t : State) : Prop where
  | idle (hin : s.inputs = []) (ht : t = s)
  | command {w : Packet} {rest : List Input} (hin : s.inputs = .command w :: rest)
      (hw : execPacket w { s with inputs := rest } = .next t)
  | reset {rest : List Input} (hin : s.inputs = .reset :: rest) (ht : t = { s with regs := Regs.reset, inputs := rest })
  | cutShort {w : Packet} {a : Access} {rest : List Input} {u : State} (hin : s.inputs = .cutShort w a :: rest)
      (hw : execPacket w (State.failing { s with inputs := rest } a) = .next u)
      (ht : t = { u with regs := Regs.reset, ioErr := s.ioErr, rsps := s.rsps })
  | hostSrc {a : SrcAddr} {b : Byte} {rest : List Input} (hin : s.inputs = .hostSrc a b :: rest)
      (ht : t = { s with src := s.src.write a.toNat b, inputs := rest })
  | hostPix {i : PixIndex} {ch : Fin 4} {b : Byte} {rest : List Input} (hin : s.inputs = .hostPix i ch b :: rest)
      (ht : t = { s with pix := s.pix.write (pixKey i ch.val) b, inputs := rest })
  | hostDst {bytes : List Byte} {rest : List Input} (hin : s.inputs = .hostDst bytes :: rest)
      (ht : t = { s with dst := bytes, inputs := rest })

/-- Every step is one of these cases. -/
theorem exists_stepsTo (s : State) : ∃ t, step s = .next t ∧ StepsTo s t := by
  cases hin : s.inputs with
  | nil => exact ⟨s, step_idle hin, .idle hin rfl⟩
  | cons e rest =>
    rw [step_of_input hin]
    cases e with
    | command w =>
      obtain ⟨t, ht⟩ := execPacket_answers_next w { s with inputs := rest }
      exact ⟨t, ht, .command hin ht⟩
    | reset => exact ⟨_, rfl, .reset hin rfl⟩
    | cutShort w a =>
      obtain ⟨u, hu⟩ := execPacket_answers_next w (State.failing { s with inputs := rest } a)
      exact ⟨_, cutShort_of_exec hu, .cutShort hin hu rfl⟩
    | hostSrc a b => exact ⟨_, rfl, .hostSrc hin rfl⟩
    | hostPix i ch b => exact ⟨_, rfl, .hostPix hin rfl⟩
    | hostDst bytes => exact ⟨_, rfl, .hostDst hin rfl⟩

theorem stepsTo_of_step {s t : State} (h : step s = .next t) : StepsTo s t := by
  obtain ⟨t', ht', hs⟩ := exists_stepsTo s
  cases h.symm.trans ht'
  exact hs

/-- Settles O7: every input is answered with a next state. -/
theorem everyStepIsSafe : Obligations.EveryStepIsSafe := fun s =>
  (exists_stepsTo s).imp fun _ h => h.1

/-- Settles O11: the reset input is `resetRegisters`, and every register then reads 0. -/
theorem resetClearsRegistersAndTouchesNoMemory : Obligations.ResetClearsRegistersAndTouchesNoMemory := fun _ _ h =>
  ⟨_, step_of_input h, Regs.reset_read, rfl⟩

/-- Settles O9: an idle step answers the state itself; a host access is a memory write, by `Memory.read_write`. -/
theorem idleBlockAndHostAccesses : Obligations.IdleBlockAndHostAccesses := by
  intro s rest hm
  obtain ⟨hsrc, -, hpix, -⟩ := (State.memoriesOk_iff s).mp hm
  refine ⟨step_idle, fun a b h => ⟨_, step_of_input h, rfl, fun a' => ?src⟩,
    fun i ch b h => ⟨_, step_of_input h, rfl, fun i' ch' hch => ?pix⟩, fun _ h => step_of_input h⟩
  case src =>
    simp only [State.srcByte, Memory.read_write hsrc, BitVec.toNat_inj]
  case pix =>
    have hkey : pixKey i' ch' = pixKey i ch.val ↔ i' = i ∧ ch' = ch.val :=
      ⟨pixKey_inj hch ch.isLt, fun ⟨hi, hc⟩ => by rw [hi, hc]⟩
    simp only [State.pixByte, Memory.read_write hpix, hkey]

/-- Settles O21: a FAULTED block's packets and the host's accesses leave the registers alone, so only the two reset inputs
are left. -/
theorem onlyResetLeavesFaulted : Obligations.OnlyResetLeavesFaulted := by
  intro s t he h
  cases stepsTo_of_step h with
  | command hin hw =>
    obtain ⟨i, hi, -⟩ := execPacket_eq_exec _
    rw [exec_faulted_rsps (by exact he) ((hi _).symm.trans hw)]
    exact .inl rfl
  | reset hin ht => exact .inr ⟨⟨_, .inl hin⟩, ht ▸ rfl⟩
  | cutShort hin hw ht => exact .inr ⟨⟨_, .inr ⟨_, _, hin⟩⟩, ht ▸ rfl⟩
  | idle hin ht | hostSrc hin ht | hostPix hin ht | hostDst hin ht => exact .inl (ht ▸ rfl)

/-! ## The invariants along steps -/

/-- Settles O56: a packet is a command (`exec_inv`), both resets leave the reset registers, and the host writes none. -/
theorem everyStepKeepsTheRegisterInvariant : Obligations.EveryStepKeepsTheRegisterInvariant := by
  intro s t hinv h
  cases stepsTo_of_step h with
  | command hin hw =>
    obtain ⟨i, hi, -⟩ := execPacket_eq_exec _
    exact exec_inv (by exact hinv) ((hi _).symm.trans hw)
  | reset hin ht | cutShort hin hw ht => rw [ht]; exact Regs.reset_inv
  | idle hin ht | hostSrc hin ht | hostPix hin ht | hostDst hin ht => rw [ht]; exact hinv

theorem execPacket_memoriesOk {w : Packet} {s t : State} (hm : s.memoriesOk = true) (h : execPacket w s = .next t) :
    t.memoriesOk = true := by
  obtain ⟨i, hi, -⟩ := execPacket_eq_exec w
  exact exec_memoriesOk hm ((hi s).symm.trans h)

/-- Settles O58: packets store as commands do (`exec_memoriesOk`), and a host access is one write inside the address
space. -/
theorem everyStepKeepsTheMemoriesCanonical : Obligations.EveryStepKeepsTheMemoriesCanonical := by
  intro s t hm h
  obtain ⟨hsrc, hsrc', hpix, hpix'⟩ := (State.memoriesOk_iff s).mp hm
  cases stepsTo_of_step h with
  | command hin hw => exact execPacket_memoriesOk (by exact hm) hw
  | cutShort hin hw ht =>
    have hu := execPacket_memoriesOk (by exact hm) hw
    rw [ht]
    exact hu
  | hostSrc hin ht =>
    rw [ht, State.memoriesOk_iff]
    exact ⟨Memory.wf_write hsrc _ _, Memory.within_write hsrc' (BitVec.isLt _) _, hpix, hpix'⟩
  | hostPix hin ht =>
    rw [ht, State.memoriesOk_iff]
    exact ⟨hsrc, hsrc', Memory.wf_write hpix _ _, Memory.within_write hpix' (pixKey_lt _ (Fin.isLt _)) _⟩
  | idle hin ht | reset hin ht | hostDst hin ht => rw [ht]; exact hm

end Sys2Proof.Machine
end

section
/-! A command cut short by reset (70_reset_and_hazards.md rule R242): the stores and emits before the access it is cut at. -/

namespace Sys2Proof.Machine

/-! ## The stores before and from a pixel -/

/-- The stores before the first one to pixel `q`. -/
def storesBefore (q : PixIndex) (stores : List PixelStore) : List PixelStore := stores.takeWhile fun m => !decide (m.1 = q)

/-- The stores from the first one to pixel `q` on. -/
def storesFrom (q : PixIndex) (stores : List PixelStore) : List PixelStore := stores.dropWhile fun m => !decide (m.1 = q)

theorem storesBefore_append_storesFrom (q : PixIndex) (stores : List PixelStore) :
    storesBefore q stores ++ storesFrom q stores = stores := List.takeWhile_append_dropWhile

theorem ne_of_mem_storesBefore {q : PixIndex} {stores : List PixelStore} {m : PixelStore} (h : m ∈ storesBefore q stores) :
    m.1 ≠ q := by
  simpa using List.mem_takeWhile_imp h

/-- Stores in the order of their pixels: from `q` on there is no pixel before `q`. -/
theorem le_of_mem_storesFrom {q : PixIndex} {stores : List PixelStore} {m : PixelStore}
    (hs : stores.Pairwise fun m m' => m.1.toNat < m'.1.toNat) (h : m ∈ storesFrom q stores) : q.toNat ≤ m.1.toNat := by
  induction stores with
  | nil => cases h
  | cons x xs ih =>
    obtain ⟨hx, hxs⟩ := List.pairwise_cons.mp hs
    rw [storesFrom, List.dropWhile_cons] at h
    split at h
    · exact ih hxs h
    · rename_i hq
      obtain rfl : x.1 = q := by simpa using hq
      rcases List.mem_cons.mp h with rfl | hm
      · exact le_rfl
      · exact (hx m hm).le

/-- The header's pixels follow each other without a gap, so no pixel after `q` comes before `q`. -/
theorem le_of_mem_storesBefore_header {q : PixIndex} {v : BitVec 32} {m : PixelStore}
    (h : m ∈ storesBefore q (headerStores v)) : m.1.toNat ≤ q.toNat := by
  have hsplit := storesBefore_append_storesFrom q (headerStores v)
  have hm : m ∈ headerStores v := hsplit ▸ List.mem_append_left _ h
  by_cases hq : q.toNat < 32
  · obtain ⟨x, hx, rfl⟩ : ∃ x ∈ headerStores v, x.1 = q :=
      ⟨_, List.mem_map.mpr ⟨q.toNat, List.mem_range.mpr hq, rfl⟩, BitVec.ofNat_toNat ..⟩
    have hfrom : x ∈ storesFrom x.1 (headerStores v) :=
      (List.mem_append.mp (hsplit.symm ▸ hx)).resolve_left fun hb => ne_of_mem_storesBefore hb rfl
    have hsorted := headerStores_pairwise v
    rw [← hsplit] at hsorted
    exact ((List.pairwise_append.mp hsorted).2.2 m h x hfrom).le
  · exact (mem_headerStores hm).le.trans (not_lt.mp hq)

/-- A command's stores come in the order of their pixels. -/
theorem StoreShape.pairwise {i : Instr} {stores : List PixelStore} (h : StoreShape i stores) :
    stores.Pairwise fun m m' => m.1.toNat < m'.1.toNat := by
  cases h with
  | none => exact .nil
  | one m _ _ => exact List.pairwise_singleton _ _
  | header size _ => exact headerStores_pairwise _

/-- Where a command does not write the header, it stores to `q` alone from `q` on. -/
theorem StoreShape.eq_of_mem_storesFrom {i : Instr} {stores : List PixelStore} (h : StoreShape i stores)
    (hi : ¬ ∃ size, i = .enchdr size ∨ i = .setuph size) {q : PixIndex} {m : PixelStore} (hm : m ∈ storesFrom q stores) :
    m.1 = q := by
  cases h with
  | none => cases hm
  | one x _ _ =>
    rw [storesFrom, List.dropWhile_cons] at hm
    split at hm
    · cases hm
    · rename_i hq
      obtain rfl := List.mem_singleton.mp hm
      simpa using hq
  | header size hi' => exact absurd ⟨size, hi'⟩ hi

/-- Where it does write the header, it stores to no pixel after `q` before `q`. -/
theorem StoreShape.le_of_mem_storesBefore {i : Instr} {stores : List PixelStore} (h : StoreShape i stores)
    (hi : ∃ size, i = .enchdr size ∨ i = .setuph size) {q : PixIndex} {m : PixelStore} (hm : m ∈ storesBefore q stores) :
    m.1.toNat ≤ q.toNat := by
  cases h with
  | none => cases hm
  | one x hone _ => obtain ⟨size, rfl | rfl⟩ := hi <;> cases hone
  | header size _ => exact le_of_mem_storesBefore_header hm

/-- A pixel with no store from `q` on is, after the stores before `q`, as after all of them. -/
theorem storesBefore_pixByte_whole {q j : PixIndex} {stores : List PixelStore} {s : State} (hm : s.pix.wf = true) {ch : Nat}
    (hch : ch < 4) (hj : ∀ m ∈ storesFrom q stores, m.1 ≠ j) :
    (storeAll (storesBefore q stores) s).state.pixByte j ch = (storeAll stores s).state.pixByte j ch := by
  conv_rhs => rw [← storesBefore_append_storesFrom q stores]
  exact (storeAll_append_pixByte _ _ hm hch hj).symm

/-- A failing access to pixel `q` leaves the stores before `q`. -/
theorem storeAll_failing_pixel {a : Access} {q : PixIndex} (ha : a = .pixRead q ∨ a = .pixWrite q)
    (stores : List PixelStore) (s : State) :
    (storeAll stores (s.failing a)).state.pix = (storeAll (storesBefore q stores) s).state.pix := by
  refine storeAll_failing (stop := fun i => decide (i = q)) (fun i => ?_) stores s
  rcases ha with rfl | rfl <;> simp [eq_comm]

/-- A failing access to no pixel makes no difference to PIX. -/
theorem storeAll_failing_other {a : Access} (ha : ∀ q, a ≠ .pixRead q ∧ a ≠ .pixWrite q) (stores : List PixelStore)
    (s : State) : (storeAll stores (s.failing a)).state.pix = (storeAll stores s).state.pix := by
  rw [storeAll_failing (stop := fun _ => false) (fun i => by simp [ha i]) stores s]
  congr 3
  exact List.takeWhile_eq_self_iff.mpr fun _ _ => rfl

/-! ## The cut command -/

/-- Settles O12: the cut command is the command with one more failing access, so its emits end at that access
(`emitAll_failing`) and its stores before that pixel (`storeAll_failing`); the whole command makes the same ones and more. -/
theorem cutShortCommandLeavesItsEarlierWrites : Obligations.CutShortCommandLeavesItsEarlierWrites := by
  intro s u w a rest writesHeader hin hm hu
  obtain ⟨i, hi, hd⟩ := execPacket_eq_exec w
  have header_iff : writesHeader ↔ ∃ size, i = .enchdr size ∨ i = .setuph size := by
    rcases hd with hd | ⟨⟨r, hr⟩, rfl⟩
    · simp [writesHeader, hd]
    · simp [writesHeader, hr]
  rw [hi] at hu
  obtain ⟨v, hv⟩ := exec_answers_next i (State.failing { s with inputs := rest } a)
  refine ⟨_, (step_of_input hin).trans (cutShort_of_exec ((hi _).trans hv)), ?frame, ?emits, ?noEmit, ?noPixel, ?pixel⟩
  case frame =>
    rw [exec_frame hv]
    rfl
  case emits =>
    rintro k rfl hk
    change v.dst = u.dst.take k
    rw [exec_dst hv, exec_dst hu]
    exact emitAll_failing _ hk
  case noEmit =>
    intro hk
    change v.dst = u.dst
    rw [exec_dst hv, exec_dst hu]
    exact emitAll_failing_other _ hk
  case noPixel =>
    intro ha
    change v.pix = u.pix
    rw [exec_pix hv, exec_pix hu]
    exact storeAll_failing_other ha _ _
  case pixel =>
    intro q j ch ha hch
    have hstores := storesOf_shape s.regs i
    have hpix : s.pix.wf = true := State.pix_wf_of_memoriesOk hm
    have hcut : v.pix = (storeAll (storesBefore q (storesOf s.regs i)) { s with inputs := rest }).state.pix := by
      rw [exec_pix hv]
      exact storeAll_failing_pixel ha _ _
    have hwhole : u.pix = (storeAll (storesOf s.regs i) { s with inputs := rest }).state.pix := exec_pix hu
    have asWhole : (∀ m ∈ storesFrom q (storesOf s.regs i), m.1 ≠ j) → v.pixByte j ch = u.pixByte j ch := by
      intro hj
      rw [State.pixByte, State.pixByte, hcut, hwhole]
      exact storesBefore_pixByte_whole (by exact hpix) hch hj
    have asBefore : (∀ m ∈ storesBefore q (storesOf s.regs i), m.1 ≠ j) → v.pixByte j ch = s.pixByte j ch := by
      intro hj
      rw [State.pixByte, hcut]
      exact storeAll_pixByte (by exact hpix) hch hj
    refine ⟨fun hlt => asWhole ?_, fun heq => asBefore ?_, fun hgt => ⟨fun hh => asBefore ?_, fun hh => asWhole ?_⟩⟩
    · rintro m hm rfl
      exact hlt.not_ge (le_of_mem_storesFrom hstores.pairwise hm)
    · rintro m hm rfl
      exact ne_of_mem_storesBefore hm heq
    · rintro m hm rfl
      exact hgt.not_ge (hstores.le_of_mem_storesBefore (header_iff.mp hh) hm)
    · rintro m hm rfl
      exact hgt.ne (congrArg BitVec.toNat (hstores.eq_of_mem_storesFrom (mt header_iff.mpr hh) hm)).symm

end Sys2Proof.Machine
end

section
/-! B2U24, U24B and RDREG (40_bitpacking.md rules R124, R125; 45_system.md rule R210). -/

namespace Sys2Proof.Machine

/-- Settles O24: both answers are 24-bit fields, and RES holds their numbers. -/
theorem byteConversions : Obligations.ByteConversions := by
  intro s he
  refine ⟨fun b0 b1 b2 => ?_, fun x => ?_⟩
  · rw [exec_b2u24_eq he, ← bytesToU24_toNat, BitVec.ofNat_toNat]
  · rw [exec_u24b_eq he, ← BitVec.toNat_setWidth, BitVec.ofNat_toNat]

/-- R27: STATUS as a number, field by field. -/
theorem status_toNat (r : Regs) :
    r.status.toNat = r.faulted.toNat + 2 * r.mode.bits.toNat + 8 * r.rdActive.toNat + 16 * r.chkValid.toNat := by
  have composed : ∀ (valid active faulted : Bool) (mode : BitVec 2),
      (BitVec.ofBool valid ++ BitVec.ofBool active ++ mode ++ BitVec.ofBool faulted).toNat =
        faulted.toNat + 2 * mode.toNat + 8 * active.toNat + 16 * valid.toNat := by decide
  exact composed ..

/-- Settles O55: each of the 19 numbers names its register, whose read is the register zero-extended; any other number names
none. -/
theorem rdregReadsEveryRegister : Obligations.RdregReadsEveryRegister := by
  intro s r status
  have hstatus : r.status.toNat = status := by
    rw [status_toNat]
    congr 3
    · by_cases he : r.err = 0
      · rw [if_pos he, faulted_eq_false he]; rfl
      · rw [if_neg he, faulted_eq_true he]; rfl
    · cases r.mode <;> rfl
  have answers : ∀ {p : BitVec 7} (c : Csr) {n : Nat}, Csr.ofNumber p = some c → r.read c = BitVec.ofNat 64 n →
      exec (.rdreg p) s = .next { s with rsps := s.rsps ++ [⟨decide (r.err ≠ 0), BitVec.ofNat 64 n⟩] } := by
    intro p c n hp hread
    have hf : r.faulted = decide (r.err ≠ 0) := by rw [Bool.eq_iff_iff]; simp [Regs.faulted]
    rw [exec_rdreg_eq hp, respond, ← hread, ← hf]
  have narrow : ∀ {k : Nat} (x : BitVec k), x.setWidth 64 = BitVec.ofNat 64 x.toNat := fun x => (BitVec.ofNat_toNat ..).symm
  have full : ∀ x : BitVec 64, x = BitVec.ofNat 64 x.toNat := fun x => by simp
  refine ⟨?_, fun p hp => ?_⟩
  · simp only [List.forall_mem_cons]
    refine ⟨answers .status rfl ?_, answers .err rfl (narrow _), answers .res rfl (full _), answers .chkData rfl (narrow _),
      answers .chkLen rfl (narrow _), answers .chkOrder rfl (full _), answers .imgW rfl (narrow _),
      answers .imgH rfl (narrow _), answers .imgCh rfl (narrow _), answers .srcLen rfl (full _),
      answers .rdCsize rfl (narrow _), answers .rdCursor rfl (full _), answers .rdOrder rfl (full _),
      answers .remData rfl (narrow _), answers .remLen rfl (narrow _), answers .dstCount rfl (full _),
      answers .hidSize rfl (narrow _), answers .hidCsize rfl (narrow _), answers .rdPos rfl (full _), fun _ h => nomatch h⟩
    rw [← hstatus]
    exact narrow _
  · have hnone : Csr.ofNumber p = none := Csr.ofNumber_of_not_ok (by simpa [csrNumberOk] using hp)
    refine ⟨fun he => exec_rdreg_unimplemented he hnone, fun he => ?_⟩
    simp only [exec, execRdreg, hnone, illegalPacket_of_faulted he]

end Sys2Proof.Machine
end

section
/-! RDCHUNK (41_chunk_reader.md rule R142). -/

namespace Sys2Proof.Machine

/-- The reads of RDCHUNK are those of the span of its chunk. -/
theorem chunkReadable_iff {s : State} (hinv : s.regs.Inv) (hactive : s.regs.rdActive = true)
    (hleft : s.regs.rdCursor.toNat < 8 * s.regs.srcLen.toNat) :
    chunkReadable s ↔
      ∀ a ∈ spanAddresses s.regs.rdCursor.toNat (nextChunkLength s.regs), Access.srcRead a ∉ s.ioErr := by
  obtain ⟨hmin, -, hend⟩ := nextChunkLength_bounds hinv hactive hleft
  have hlen := hinv.srcLen
  have hfits : s.regs.rdCursor.toNat + nextChunkLength s.regs ≤ 2 ^ 64 := by omega
  simp only [chunkReadable, mem_spanAddresses hmin hfits, and_imp]

/-- The chunk RDCHUNK yields from readable bytes. -/
theorem exec_rdchunk_readable {s : State} (hinv : s.regs.Inv) (he : s.regs.err = 0) (hactive : s.regs.rdActive = true)
    (hleft : s.regs.rdCursor.toNat < 8 * s.regs.srcLen.toNat) (hread : chunkReadable s) :
    ∃ d : BitVec 32, exec .rdchunk s = .next (completed s (chunkTaken s.regs d) 1) ∧
      d.toNat < 2 ^ nextChunkLength s.regs ∧
      chunkBits d (nextChunkLength s.regs) = srcBits s s.regs.rdCursor.toNat (nextChunkLength s.regs) := by
  obtain ⟨-, hmax, -⟩ := nextChunkLength_bounds hinv hactive hleft
  have hlt := gatherBits_lt
    ((spanAddresses s.regs.rdCursor.toNat (nextChunkLength s.regs)).map s.srcByte) (s.regs.rdCursor.toNat % 8)
    (nextChunkLength s.regs)
  have hclean := srcReadAll_clean ((chunkReadable_iff hinv hactive hleft).mp hread)
  refine ⟨_, by
    rw [exec_rdchunk_eq he, if_neg (by simp [hactive]), if_neg (by omega), hclean], ?_, ?_⟩
  · rwa [toNat_ofNat_of_lt hlt hmax]
  · rw [chunkBits_eq, toNat_ofNat_of_lt hlt hmax, natBits_gatherBits]
    exact List.map_congr_left fun i hi => streamBit_span s (List.mem_range.mp hi)

/-- Settles O27: `exec_rdchunk_readable`, with the bounds of the chunk's length. -/
theorem rdchunkYieldsTheNextStreamBits : Obligations.RdchunkYieldsTheNextStreamBits := by
  intro s hinv he hactive hleft hread length
  obtain ⟨hmin, hmax, -⟩ := nextChunkLength_bounds hinv hactive hleft
  obtain ⟨d, hexec, hd, hbits⟩ := exec_rdchunk_readable hinv he hactive hleft hread
  exact ⟨d, hexec, hmin, hmax, hd, hbits⟩

/-- Settles O28: with no bits left the second branch of `exec_rdchunk_eq`; with bits left a failing read is one of the
span. -/
theorem rdchunkExhaustedOrFailing : Obligations.RdchunkExhaustedOrFailing := by
  intro s hinv he hactive
  refine ⟨fun hend => ?_, fun hleft hread => ?_⟩
  · rw [exec_rdchunk_eq he, if_neg (by simp [hactive]), if_pos (by omega)]
  · rw [chunkReadable_iff hinv hactive hleft] at hread
    push Not at hread
    rw [exec_rdchunk_eq he, if_neg (by simp [hactive]), if_neg (by omega), srcReadAll_fails hread]

end Sys2Proof.Machine
end

section
/-! WRITE, WRITEC and WRCLOSE (42_chunk_writer.md rules R151 to R156), and the copy from SRC to DST (rule R144). -/

namespace Sys2Proof.Machine

theorem emitsClean.mono {s : State} {m n : Nat} (h : emitsClean s n) (hmn : m ≤ n) : emitsClean s m :=
  fun j hj => h j (hj.trans_le hmn)

/-! ## Writing -/

/-- R151: what the accumulator adds to the bits written. -/
theorem writtenBits_accumulate {s t : State} {data : BitVec 32} {n : Nat}
    (hdst : t.dst = s.dst ++ (accumulate s.regs.remData s.regs.remLen data n).out)
    (hdata : t.regs.remData = (accumulate s.regs.remData s.regs.remLen data n).remData)
    (hlen : t.regs.remLen = (accumulate s.regs.remData s.regs.remLen data n).remLen) :
    writtenBits t = writtenBits s ++ chunkBits data n := by
  rw [writtenBits, hdst, List.flatMap_append, List.append_assoc, remainderBits_eq, hdata, hlen, accumulate_bits,
    ← List.append_assoc]
  rfl

/-- Settles O29: `writeChunk_clean` says what each makes of DST and the Remainder, and `writtenBits_accumulate` what bits
those are. -/
theorem writersAppendTheChunksBits : Obligations.WritersAppendTheChunksBits := by
  intro s he
  have length : ∀ (data : BitVec 32) (n : Nat),
      (s.dst ++ (accumulate s.regs.remData s.regs.remLen data n).out).length =
        s.dst.length + (s.regs.remLen.toNat + n) / 8 :=
    fun data n => by rw [List.length_append, accumulate_out_length]
  refine ⟨fun n data hn hclean => ?write, fun hvalid hclean => ?writec⟩
  case write =>
    refine ⟨_, by rw [exec_write_eq he, if_neg hn.not_gt, writeChunk_clean hclean, Attempt.settle_ok,
      respond_of_clear (by exact he)], rfl, length .., writtenBits_accumulate rfl rfl rfl, accumulate_remData_mod ..⟩
  case writec =>
    refine ⟨_, by rw [exec_writec_eq he, if_neg (by simp [hvalid]), writeChunk_clean hclean, Attempt.settle_ok,
      respond_of_clear (by exact he)], rfl, length .., writtenBits_accumulate rfl rfl rfl, accumulate_remData_mod ..⟩

/-- The first emits of a chunk are the first bits of the stream with the chunk added. -/
theorem flatMap_byteBits_take (s : State) (data : BitVec 32) (n j : Nat) :
    (s.dst ++ (accumulate s.regs.remData s.regs.remLen data n).out.take j).flatMap byteBits <+:
      writtenBits s ++ chunkBits data n := by
  rw [writtenBits, List.append_assoc, ← accumulate_bits, List.flatMap_append]
  refine (List.prefix_append_right_inj _).mpr (List.IsPrefix.trans ?_ (List.prefix_append ..))
  exact (List.take_prefix ..).flatMap _

/-- The flush when its emit, if it makes one, succeeds. -/
theorem flushRemainder_clean {s : State} {out : List Byte} (hout : out = if s.regs.remLen = 0 then [] else [s.regs.remData])
    (h : emitsClean s out.length) :
    flushRemainder s = .ok { s with
      dst := s.dst ++ out
      regs := { s.regs with dstCount := s.regs.dstCount + BitVec.ofNat 64 out.length, remData := 0, remLen := 0 } } := by
  simp only [flushRemainder, ← hout, emitAll_clean h, Attempt.andThen_ok]

/-- Settles O30: `writeChunk_fails` for the two writers, and the one emit of WRCLOSE. -/
theorem failingEmitKeepsTheBytesBefore : Obligations.FailingEmitKeepsTheBytesBefore := by
  intro s j he hclean hfail
  have length : ∀ (data : BitVec 32) (n : Nat), j < (s.regs.remLen.toNat + n) / 8 →
      (s.dst ++ (accumulate s.regs.remData s.regs.remLen data n).out.take j).length = s.dst.length + j := fun data n hj => by
    rw [List.length_append, List.length_take_of_le (by rw [accumulate_out_length]; exact hj.le)]
  refine ⟨fun n data hn hj => ?write, fun hvalid hj => ?writec, ?wrclose⟩
  case write =>
    refine ⟨_, by rw [exec_write_eq he, if_neg hn.not_gt, writeChunk_fails hj hclean hfail, Attempt.settle_fails,
      raise_one (by exact he)], rfl, length _ _ hj, flatMap_byteBits_take ..⟩
  case writec =>
    refine ⟨_, by rw [exec_writec_eq he, if_neg (by simp [hvalid]), writeChunk_fails hj hclean hfail, Attempt.settle_fails,
      raise_one (by exact he)], rfl, length _ _ hj, flatMap_byteBits_take ..⟩
  case wrclose =>
    rintro rfl hrem
    have hemit : emitAll [s.regs.remData] s = .fails [.io] s := by
      simpa using emitAll_fails (out := [s.regs.remData]) (by simp) hclean hfail
    simp only [exec_wrclose_eq he, flushRemainder, if_neg hrem, hemit, Attempt.andThen_fails, Attempt.settle_fails,
      raise_one he]
    rfl

/-- Settles O31: `flushRemainder_clean` with no byte to emit, and with the one byte of the Remainder. -/
theorem wrcloseFlushesTheRemainder : Obligations.WrcloseFlushesTheRemainder := by
  intro s he
  rw [exec_wrclose_eq he]
  refine ⟨fun hrem => ?_, fun hrem hclean => ?_⟩
  · rw [flushRemainder_clean (if_pos hrem).symm (fun j hj => nomatch hj), Attempt.settle_ok, respond_of_clear (by exact he)]
    simp [completed]
  · rw [flushRemainder_clean (if_neg hrem).symm hclean, Attempt.settle_ok, respond_of_clear (by exact he)]
    rfl

/-! ## Copying -/

theorem srcBits_length (s : State) (k n : Nat) : (srcBits s k n).length = n := by simp [srcBits]

theorem srcBits_append (s : State) (k m n : Nat) : srcBits s k (m + n) = srcBits s k m ++ srcBits s (k + m) n := by
  simp only [srcBits, List.range_add, List.map_append, List.map_map]
  congr 1
  exact List.map_congr_left fun i _ => congrArg (srcBit s) (Nat.add_assoc ..).symm

theorem srcBits_of_src {s t : State} (h : t.src = s.src) (k n : Nat) : srcBits t k n = srcBits s k n := by
  simp only [srcBits, srcBit, State.srcByte, h]

/-- Settles O32: RDCHUNK yields the payload's next bits and WRITEC appends them. -/
theorem readThenWriteCopiesTheStream : Obligations.ReadThenWriteCopiesTheStream := by
  intro s before hinv he hactive hleft hread hclean hwritten
  obtain ⟨hmin, hmax, hend⟩ := nextChunkLength_bounds hinv hactive hleft
  obtain ⟨d, ht, -, hbits⟩ := exec_rdchunk_readable hinv he hactive hleft hread
  generalize htdef : completed s (chunkTaken s.regs d) 1 = t at ht
  have hlen : t.regs.chkLen.toNat = nextChunkLength s.regs := by
    rw [← htdef]
    exact toNat_ofNat_of_lt (k := 6) (by omega) le_rfl
  have hrem := s.regs.remLen.isLt
  have hclean' : emitsClean t ((t.regs.remLen.toNat + t.regs.chkLen.toNat) / 8) := by
    rw [hlen, ← htdef]
    exact emitsClean.mono hclean (by change (s.regs.remLen.toNat + _) / 8 ≤ 4; omega)
  obtain ⟨u, hu, hframe, -, hwritten', -⟩ :=
    (writersAppendTheChunksBits t (by rw [← htdef]; exact he)).2 (by rw [← htdef]; rfl) hclean'
  have hsrc : u.src = s.src := by rw [hframe, ← htdef]; rfl
  have hcursor : u.regs.rdCursor.toNat = s.regs.rdCursor.toNat + nextChunkLength s.regs := by
    have hsl := hinv.srcLen
    rw [hframe, ← htdef]
    exact toNat_ofNat_of_lt (k := 64) (by omega) le_rfl
  have hdata : t.regs.chkData = d := by rw [← htdef]; rfl
  have hsame : writtenBits t = writtenBits s := by rw [← htdef]; rfl
  refine ⟨t, u, ht, hu, exec_inv (exec_inv hinv ht) hu, by rw [hframe, ← htdef]; exact he,
    by rw [hframe, ← htdef]; exact hactive, hsrc, by rw [hframe, ← htdef]; rfl, by omega, ?_⟩
  rw [hwritten', hsame, hwritten, hlen, hdata, hbits, hcursor, srcBits_of_src hsrc, srcBits_append, Nat.zero_add,
    List.append_assoc]

theorem writtenBits_length (s : State) : (writtenBits s).length = 8 * s.dst.length + s.regs.remLen.toNat := by
  rw [writtenBits, List.length_append, remainderBits_length]
  simp [List.length_flatMap, Nat.mul_comm]

/-- Settles O33: the payload is whole bytes, so the Remainder is empty, and WRCLOSE emits nothing. -/
theorem closeAfterTheLastChunkLeavesTheSource : Obligations.CloseAfterTheLastChunkLeavesTheSource := by
  intro s he hwritten
  have hlen := congrArg List.length hwritten
  rw [writtenBits_length, srcBits_length] at hlen
  have hlt := s.regs.remLen.isLt
  have hrem : s.regs.remLen = 0 := BitVec.eq_of_toNat_eq (by change _ = 0; omega)
  refine ⟨_, (wrcloseFlushesTheRemainder s he).1 hrem, rfl, by rw [completed_dst]; omega, ?_⟩
  rw [srcBits_of_src (completed_src ..), ← hwritten, writtenBits, completed_dst]
  simp [remainderBits, hrem]

end Sys2Proof.Machine
end

section
/-! ENCBITS, DECBITS and GETCOORD, and the pixel that HIDE and HIDEC share with them (43_pixel_codec.md rules R166 to R170,
44_header_session.md rule R193). -/

namespace Sys2Proof.Machine

/-! ## Storing a chunk in a pixel -/

/-- R166: the low bits of a pixel replaced, when its accesses succeed. -/
theorem insertPixel_clean {s : State} (hm : s.memoriesOk = true) {i : PixIndex} (hclean : pixelClean s i) {bits : BitVec 32}
    {length : Nat} (hL : length ≤ 24) (hb : bits.toNat < 2 ^ length) :
    ∃ t, modifyPixel i (fun F => insertLow F bits length) s = .ok t ∧ samePix s t ∧ fieldReplaced s t i bits length ∧
      otherBytesKept s t (fun j => j = i) := by
  obtain ⟨t, ht, hsame, -, -, hfield, hkept⟩ :=
    modifyPixel_clean (fun F => insertLow F bits length) (State.pix_wf_of_memoriesOk hm) hclean
  refine ⟨t, ht, hsame, fun j hj => ?_, hkept⟩
  rw [hfield, insertLow_getLsbD hL hb hj]

/-- R166: what is extracted from a pixel whose low bits are `bits` is `bits`. -/
theorem eq_of_lowBits {k n : Nat} {v : BitVec k} {bits : BitVec 32} {F G : Field24} (hk : 24 ≤ k) (hn : n ≤ 24)
    (hb : bits.toNat < 2 ^ n) (hF : ∀ j, j < 24 → F.getLsbD j = if j < n then bits.getLsbD j else G.getLsbD j)
    (hv : ∀ j, v.getLsbD j = (decide (j < n) && F.getLsbD j)) : v = BitVec.ofNat k bits.toNat := by
  apply BitVec.eq_of_getLsbD_eq
  intro j _
  rw [hv, getLsbD_ofNat_of_lt hb (hn.trans hk)]
  by_cases hj : j < n
  · rw [hF j (hj.trans_le hn), if_pos hj, decide_eq_true hj, Bool.true_and, BitVec.testBit_toNat]
  · have hzero : bits.toNat.testBit j = false :=
      Nat.testBit_lt_two_pow (hb.trans_le (Nat.pow_le_pow_right (by decide) (not_lt.mp hj)))
    rw [hzero, decide_eq_false hj, Bool.false_and]

/-! ## ENCBITS and DECBITS -/

theorem imgW_ne_zero_of_lt {r : Regs} {x : Nat} (hx : x < r.imgW.toNat) : r.imgW ≠ 0 := fun h => by
  rw [h] at hx
  exact Nat.not_lt_zero _ hx

/-- ENCBITS past its checks. -/
theorem exec_encbits_inside {s : State} (he : s.regs.err = 0) {n : BitVec 7} {y x bits : BitVec 32} (hn : n.toNat ≤ 24)
    (hb : bits.toNat < 2 ^ n.toNat) (hx : x.toNat < s.regs.imgW.toNat) (hy : y.toNat < s.regs.imgH.toNat) :
    exec (.encbits n y x bits) s = .next
      ((modifyPixel (pixelIndex x.toNat y.toNat s.regs.imgW.toNat) (fun F => insertLow F bits n.toNat) s).settle
        (respond 0)) := by
  rw [exec_encbits_eq he, if_neg (imgW_ne_zero_of_lt hx), if_neg hn.not_gt, if_neg hb.not_ge,
    if_neg (not_or.mpr ⟨hx.not_ge, hy.not_ge⟩)]

/-- Settles O35: past its checks ENCBITS is one pixel store, by `insertPixel_clean`. -/
theorem encbitsReplacesTheLowBits : Obligations.EncbitsReplacesTheLowBits := by
  intro s n y x bits i hm he hn hb hx hy hclean
  obtain ⟨t, ht, hsame, hfield, hkept⟩ := insertPixel_clean hm hclean hn hb
  have hte : t.regs.err = 0 := by rw [hsame.regs, he]
  refine ⟨completed t t.regs 0, ?_, hsame.completed 0, pixelIndex_toNat s.regs.imgW.isLt s.regs.imgH.isLt hx hy, hfield,
    hkept⟩
  rw [exec_encbits_inside he hn hb hx hy, ht, Attempt.settle_ok, respond_of_clear hte]

theorem setWidth_extractLow_getLsbD {F : Field24} {L : Nat} (hL : L ≤ 24) {k : Nat} (hk : 24 ≤ k) (j : Nat) :
    ((extractLow F L).setWidth k).getLsbD j = (decide (j < L) && F.getLsbD j) := by
  rw [BitVec.getLsbD_setWidth, extractLow_getLsbD hL]
  by_cases hj : j < L
  · rw [decide_eq_true (by omega : j < k), Bool.true_and]
  · simp [hj]

/-- Settles O36: past its checks DECBITS is one read, and `extract` keeps the low bits. -/
theorem decbitsReadsTheLowBits : Obligations.DecbitsReadsTheLowBits := by
  intro s n y x i he hn hx hy hread
  refine ⟨_, ?_, setWidth_extractLow_getLsbD hn (by decide)⟩
  rw [exec_decbits_eq he, if_neg (imgW_ne_zero_of_lt hx), if_neg hn.not_gt, if_neg (not_or.mpr ⟨hx.not_ge, hy.not_ge⟩),
    readField_clean hread]

/-- An ENCBITS that completed has passed every check and made both accesses. -/
theorem encbits_passed {s t : State} {n : BitVec 7} {y x bits : BitVec 32} (he : s.regs.err = 0)
    (h : exec (.encbits n y x bits) s = .next t) (ht : t.regs.err = 0) :
    n.toNat ≤ 24 ∧ bits.toNat < 2 ^ n.toNat ∧ x.toNat < s.regs.imgW.toNat ∧ y.toNat < s.regs.imgH.toNat ∧
      pixelClean s (pixelIndex x.toNat y.toNat s.regs.imgW.toNat) := by
  rw [exec_encbits_eq he] at h
  split_ifs at h with hW hn hb hxy
  case neg =>
    obtain ⟨hx, hy⟩ := not_or.mp hxy
    refine ⟨not_lt.mp hn, not_le.mp hb, not_le.mp hx, not_le.mp hy, ?_⟩
    by_contra hclean
    rw [modifyPixel_fails _ hclean, Attempt.settle_fails, raise_one he] at h
    cases h
    exact absurd ht (by decide : (0x08 : BitVec 8) ≠ 0)
  all_goals
    cases h
    exact absurd ht (by simp)

/-- Settles O37: the field's low bits after ENCBITS are the bits, and DECBITS extracts them. -/
theorem decbitsReadsWhatEncbitsWrote : Obligations.DecbitsReadsWhatEncbitsWrote := by
  intro s t n y x bits hm he h ht
  obtain ⟨hn, hb, hx, hy, hclean⟩ := encbits_passed he h ht
  obtain ⟨t', ht', hframe, -, hfield, -⟩ := encbitsReplacesTheLowBits s n y x bits hm he hn hb hx hy hclean
  cases h.symm.trans ht'
  have hregs : t.regs = s.regs := by rw [hframe]; rfl
  have hio : t.ioErr = s.ioErr := by rw [hframe]; rfl
  rw [← hregs] at hx hy hfield hclean
  obtain ⟨v, hv, hbits⟩ := decbitsReadsTheLowBits t n y x ht hn hx hy (by rw [hio]; exact hclean.1)
  rw [hv, eq_of_lowBits (by decide) hn hb hfield hbits]

/-! ## HIDE and HIDEC -/

/-- `hide_data` past its checks (R193). -/
theorem hideData_inside {s : State} {data : BitVec 32} {length order : Nat} (hL : length ≤ 24)
    (hd : data.toNat < 2 ^ length) (hin : 32 + order < s.regs.imgW.toNat * s.regs.imgH.toNat) :
    hideData data length order s =
      modifyPixel (pixelIndex (getCoordinates order s.regs.imgW.toNat).1 (getCoordinates order s.regs.imgW.toNat).2
        s.regs.imgW.toNat) (fun F => insertLow F data length) s := by
  obtain ⟨-, hy⟩ := getCoordinates_inside hin
  simp only [hideData, Config.pixelBits, if_neg hL.not_gt, if_neg hd.not_ge, if_neg hy.not_ge]

theorem exec_hide_of_session {s : State} (he : s.regs.err = 0) (hW : s.regs.imgW ≠ 0) (hmode : s.regs.mode = .hide)
    (n : BitVec 7) (order : BitVec 64) (data : BitVec 32) :
    exec (.hide n order data) s = .next ((hideData data n.toNat order.toNat s).settle (respond 0)) := by
  rw [exec_hide_eq he, if_neg hW, if_neg (not_not.mpr hmode)]

theorem exec_hidec_of_session {s : State} (he : s.regs.err = 0) (hW : s.regs.imgW ≠ 0) (hmode : s.regs.mode = .hide)
    (hvalid : s.regs.chkValid = true) :
    exec .hidec s = .next ((hideData s.regs.chkData s.regs.chkLen.toNat s.regs.chkOrder.toNat s).settle fun t =>
      respond 0 { t with regs := { t.regs with chkValid := false } }) := by
  rw [exec_hidec_eq he, if_neg hW, if_neg (not_not.mpr hmode), if_neg (by simp [hvalid])]

/-- R169: the pixel of an order inside the image. -/
theorem hidingPixel_toNat {r : Regs} {order : Nat} (hin : 32 + order < r.imgW.toNat * r.imgH.toNat) :
    (pixelIndex (getCoordinates order r.imgW.toNat).1 (getCoordinates order r.imgW.toNat).2 r.imgW.toNat).toNat =
      32 + order := by
  obtain ⟨hx, hy⟩ := getCoordinates_inside hin
  rw [pixelIndex_toNat r.imgW.isLt r.imgH.isLt hx hy, getCoordinates_index]

/-- Settles O38: past the checks each of the commands is accesses to its one pixel, and a failing one stores nothing. -/
theorem failingPixelAccessStoresNothing : Obligations.FailingPixelAccessStoresNothing := by
  constructor
  · intro s n y x bits i he hn hx hy
    refine ⟨fun hb hfail => ?encbits, fun hfail => ?decbits⟩
    case encbits =>
      rw [exec_encbits_inside he hn hb hx hy, modifyPixel_fails _ hfail, Attempt.settle_fails, raise_one he]
      rfl
    case decbits =>
      rw [exec_decbits_eq he, if_neg (imgW_ne_zero_of_lt hx), if_neg hn.not_gt, if_neg (not_or.mpr ⟨hx.not_ge, hy.not_ge⟩),
        readField_fails hfail]
  · intro s length order data xy i he hW hmode hL hd hin hfail
    have stored : ∀ finish, (hideData data length order s).settle finish = faultedWith s 0x08 := fun finish => by
      rw [hideData_inside hL hd hin, modifyPixel_fails _ hfail, Attempt.settle_fails, raise_one he]
      rfl
    refine ⟨hidingPixel_toNat hin, ?hide, ?hidec⟩
    case hide =>
      rintro n o rfl rfl
      rw [exec_hide_of_session he hW hmode, stored]
    case hidec =>
      rintro hvalid rfl rfl rfl
      rw [exec_hidec_of_session he hW hmode hvalid, stored]

/-! ## GETCOORD -/

/-- The value of GETCOORD is the pair of coordinates, so an order that answers it has that pair's pixel (R169). -/
theorem order_of_getcoord {s : State} (he : s.regs.err = 0) (hW : s.regs.imgW ≠ 0) {order : BitVec 64} {y x : BitVec 32}
    (h : exec (.getcoord order) s = .next (completedWith s (y ++ x))) :
    32 + order.toNat = y.toNat * s.regs.imgW.toNat + x.toNat := by
  rw [exec_getcoord_of_configured he hW, Host.Outcome.next.injEq] at h
  split_ifs at h with hout
  · exact absurd h (faultedWith_ne_completedWith _ _ _)
  · have hpos : 0 < s.regs.imgW.toNat := BitVec.toNat_pos_of_ne_zero hW
    have hv := completedWith_inj.mp h
    have hx := congrArg (BitVec.extractLsb' 0 32) hv
    have hy := congrArg (BitVec.extractLsb' 32 32) hv
    rw [lowHalf_append, lowHalf_append] at hx
    rw [highHalf_append, highHalf_append] at hy
    have hxlt : (getCoordinates order.toNat s.regs.imgW.toNat).1 < s.regs.imgW.toNat := Nat.mod_lt _ hpos
    rw [← hx, ← hy, BitVec.toNat_ofNat, BitVec.toNat_ofNat, Nat.mod_eq_of_lt (hxlt.trans s.regs.imgW.isLt),
      Nat.mod_eq_of_lt ((not_le.mp hout).trans s.regs.imgH.isLt), getCoordinates_index]

/-- Settles O40: the order is that of the pixel `y * W + x`, whose coordinates are `x` and `y` again; `order_of_getcoord`
makes it the only one. -/
theorem getcoordIsABijection : Obligations.GetcoordIsABijection := by
  intro s x y he hW hx hy hout
  have hindex : y.toNat * s.regs.imgW.toNat + x.toNat < s.regs.imgW.toNat * s.regs.imgH.toNat := by nlinarith
  have hmax : s.regs.imgW.toNat * s.regs.imgH.toNat < 2 ^ 32 * 2 ^ 32 := Nat.mul_lt_mul'' s.regs.imgW.isLt s.regs.imgH.isLt
  have horder : (BitVec.ofNat 64 (y.toNat * s.regs.imgW.toNat + x.toNat - 32)).toNat =
      y.toNat * s.regs.imgW.toNat + x.toNat - 32 := toNat_ofNat_of_lt (k := 64) (by omega) le_rfl
  have hcoords : getCoordinates (y.toNat * s.regs.imgW.toNat + x.toNat - 32) s.regs.imgW.toNat = (x.toNat, y.toNat) := by
    rw [getCoordinates, Config.headerPixels, Nat.add_sub_cancel' hout, Nat.mul_comm, Nat.mul_add_mod, Nat.mod_eq_of_lt hx,
      Nat.mul_add_div (Nat.zero_lt_of_lt hx), Nat.div_eq_of_lt hx, Nat.add_zero]
  refine ⟨BitVec.ofNat 64 (y.toNat * s.regs.imgW.toNat + x.toNat - 32), by rw [horder]; omega, ?_, fun other hother => ?_⟩
  · rw [exec_getcoord_of_configured he hW, horder, hcoords, if_neg hy.not_ge, BitVec.ofNat_toNat, BitVec.ofNat_toNat,
      BitVec.setWidth_eq, BitVec.setWidth_eq]
  · have h := order_of_getcoord he hW hother
    exact BitVec.eq_of_toNat_eq (by rw [horder]; omega)

end Sys2Proof.Machine
end

section
/-! The header and the two sessions (44_header_session.md rules R185 to R197). -/

namespace Sys2Proof.Machine

/-! ## The header -/

/-- A fault after accesses that changed PIX alone is the fault of the state before them, but for PIX. -/
theorem samePix.faultedWith {s t : State} (h : samePix s t) (e : BitVec 8) :
    faultedWith t e = { faultedWith s e with pix := t.pix } := by
  rw [h]
  rfl

/-- The header write that fails first at pixel `k` (20_memory.md rule R71). -/
theorem encodeHeader_fails_at {s : State} (hm : s.memoriesOk = true) (v : BitVec 32) {k : Nat} (hk : k < 32)
    (hclean : ∀ p, p < k → pixelClean s (headerPixel p)) (hfail : ¬ pixelClean s (headerPixel k)) :
    ∃ t, encodeHeader v s = .fails [.io] t ∧ samePix s t ∧
      (∀ p, p < k → ∀ j, j < 24 → (t.pixField (headerPixel p)).getLsbD j =
        if j = 0 then v.getLsbD (31 - p) else (s.pixField (headerPixel p)).getLsbD j) ∧
      otherBytesKept s t (fun p => p.toNat < k) := by
  obtain ⟨t, m, -, hsame, -, -, hfields, hkept, hbefore, hend⟩ := encodeHeader_cases v (State.pix_wf_of_memoriesOk hm)
  have hmk : m ≤ k := not_lt.mp fun h => hfail (hbefore k h)
  rcases hend with ⟨rfl, -⟩ | ⟨-, hfail', hres⟩
  · omega
  · obtain rfl : m = k := hmk.antisymm (not_lt.mp fun h => hfail' (hclean m h))
    exact ⟨t, hres, hsame, hfields, hkept⟩

/-- SETUPH past its checks: the header is encoded, then the session starts (R190). -/
theorem exec_setuph_of_passing {s : State} {size : BitVec 64} (he : s.regs.err = 0) (hW : s.regs.imgW ≠ 0)
    (hmode : s.regs.mode = .none) (hs : size.toNat < 2 ^ 32) (hcap : exceedsCapacity size.toNat s.regs.usable = false) :
    exec (.setuph size) s = .next ((encodeHeader (BitVec.ofNat 32 size.toNat) s).settle fun t =>
      answer (BitVec.ofNat 64 (chunkSizeFor size.toNat s.regs.usable))
        { t with regs := { t.regs with mode := .hide } }) := by
  have herr : sizeErr s.regs size.toNat = 0 := (sizeErr_eq_zero_iff ..).mpr ⟨hs, hcap⟩
  rw [exec_setuph_eq he, if_neg hW, if_neg (not_not.mpr hmode), if_neg (not_not.mpr herr), BitVec.ofNat_toNat]

/-- Settles O44: both commands end in the header write, which `encodeHeader_fails_at` describes. -/
theorem failingHeaderWriteLeavesAPrefix : Obligations.FailingHeaderWriteLeavesAPrefix := by
  intro s i size k hm he hW hs hi hk hclean hfail
  obtain ⟨t, ht, hsame, hfields, hkept⟩ := encodeHeader_fails_at hm (BitVec.ofNat 32 size.toNat) hk hclean hfail
  have hte : t.regs.err = 0 := by rw [hsame.regs, he]
  have hexec : exec i s = .next (faultedWith t 0x08) := by
    rcases hi with rfl | ⟨rfl, hmode, hfits⟩
    · rw [exec_enchdr_of_configured he hW hs, ht, Attempt.settle_fails, raise_one hte]
      rfl
    · rw [exec_setuph_of_passing he hW hmode hs (exceedsCapacity_eq_false.mpr hfits), ht, Attempt.settle_fails,
        raise_one hte]
      rfl
  refine ⟨faultedWith t 0x08, hexec, hsame.faultedWith _, fun p hp j hj => ?_, hkept⟩
  have hbit : (BitVec.ofNat 32 size.toNat).getLsbD (31 - p) = size.getLsbD (31 - p) := by
    rw [getLsbD_ofNat_of_lt hs le_rfl, BitVec.testBit_toNat]
  rw [← hbit]
  exact hfields p hp j hj

/-- Settles O46: what ENCHDR makes the header spell is what DECHDR reads. -/
theorem headerRoundTrip : Obligations.HeaderRoundTrip := by
  intro s size hm he hW hs hclean
  obtain ⟨t, ht, hframe, hspells, -⟩ := enchdrWritesTheHeader s size hm he hW hs hclean
  have hregs : t.regs = s.regs := by rw [hframe]; rfl
  have hio : t.ioErr = s.ioErr := by rw [hframe]; rfl
  have hreadable : headerReadable t := fun i hi => by rw [hio]; exact (hclean i hi).1
  have hreads : headerReads t (BitVec.ofNat 32 size.toNat) := fun i hi => (hspells i hi 0 (by decide)).symm
  have hdec := (dechdrReadsTheHeader t (BitVec.ofNat 32 size.toNat) (by rw [hregs, he])).2.2 (by rw [hregs]; exact hW)
    hreadable hreads
  rw [toNat_ofNat_of_lt hs le_rfl, BitVec.ofNat_toNat, BitVec.setWidth_eq] at hdec
  exact ⟨t, ht, hdec⟩

/-! ## Starting a session -/

/-- Settles O47: past its checks SETUPH writes the header by `encodeHeader_clean` and answers the density of R171. -/
theorem setuphStartsAHideSession : Obligations.SetuphStartsAHideSession := by
  intro s size hm he hW hmode hs hfits hclean
  have hcap : exceedsCapacity size.toNat s.regs.usable = false := exceedsCapacity_eq_false.mpr hfits
  obtain ⟨t, ht, hsame, -, -, hspells, hkept⟩ :=
    encodeHeader_clean (BitVec.ofNat 32 size.toNat) (State.pix_wf_of_memoriesOk hm) hclean
  have hte : t.regs.err = 0 := by rw [hsame.regs, he]
  have hexec := exec_setuph_of_passing he hW hmode hs hcap
  rw [ht, Attempt.settle_ok, answer_of_clear (by exact hte)] at hexec
  refine ⟨_, BitVec.ofNat 64 (chunkSizeFor size.toNat s.regs.usable), hexec, ?frame, ?density, hspells, hkept⟩
  case frame =>
    rw [hsame]
    rfl
  case density =>
    rw [toNat_ofNat_chunkSizeFor hcap]
    exact chunkSizeFor_isChunkSize hcap

/-- Settles O48: the header's value by `decodeHeader_eq`, or its IO fault by `decodeHeader_fails`; its density fits the five
bits of HID_CSIZE. -/
theorem setupxStartsAnExtractSession : Obligations.SetupxStartsAnExtractSession := by
  intro s v he hW hmode
  have hexec := exec_setupx_eq he
  rw [if_neg hW, if_neg (not_not.mpr hmode)] at hexec
  refine ⟨fun hunreadable => ?_, fun hreadable hreads hfits => ?_⟩
  · rw [hexec, decodeHeader_fails hunreadable]
  · have hcap : exceedsCapacity v.toNat s.regs.usable = false := exceedsCapacity_eq_false.mpr hfits
    refine ⟨BitVec.ofNat 5 (chunkSizeFor v.toNat s.regs.usable), ?_, ?_⟩
    · rw [chunkSizeFor_toNat hcap]
      exact chunkSizeFor_isChunkSize hcap
    · simp only [hexec, decodeHeader_eq hreadable hreads, if_neg (exceedsCapacity_eq_false.mp hcap).not_gt,
        BitVec.ofNat_toNat, BitVec.setWidth_eq]

/-! ## Hiding -/

/-- Settles O49: past the checks of `hide_data` each command is one pixel store, by `insertPixel_clean`. -/
theorem hidingStoresTheChunk : Obligations.HidingStoresTheChunk := by
  intro s length order data xy i hm he hW hmode hL hd hin hclean
  obtain ⟨t, ht, hsame, hfield, hkept⟩ := insertPixel_clean hm hclean hL hd
  have hte : t.regs.err = 0 := by rw [hsame.regs, he]
  have hstored : hideData data length order s = .ok t := (hideData_inside hL hd hin).trans ht
  refine ⟨hidingPixel_toNat hin, ?hide, ?hidec⟩
  case hide =>
    rintro n o rfl rfl
    refine ⟨completed t t.regs 0, ?_, hsame.completed 0, hfield, hkept⟩
    rw [exec_hide_of_session he hW hmode, hstored, Attempt.settle_ok, respond_of_clear hte]
  case hidec =>
    rintro hvalid rfl rfl rfl
    refine ⟨completed t { t.regs with chkValid := false } 0, ?_, ?_, hfield, hkept⟩
    · rw [exec_hidec_of_session he hW hmode hvalid, hstored, Attempt.settle_ok, respond_of_clear (by exact hte)]
      rfl
    · rw [hsame]
      rfl

/-- A HIDE that completed has passed every check and made both accesses. -/
theorem hide_passed {s t : State} {n : BitVec 7} {order : BitVec 64} {data : BitVec 32} (he : s.regs.err = 0)
    (h : exec (.hide n order data) s = .next t) (ht : t.regs.err = 0) :
    s.regs.imgW ≠ 0 ∧ s.regs.mode = .hide ∧ n.toNat ≤ 24 ∧ data.toNat < 2 ^ n.toNat ∧
      32 + order.toNat < s.regs.imgW.toNat * s.regs.imgH.toNat ∧
      pixelClean s (BitVec.ofNat 64 (32 + order.toNat)) := by
  rw [exec_hide_eq he, hideData_settle he] at h
  split_ifs at h with hW hmode hn hd hy
  case neg =>
    refine ⟨hW, not_not.mp hmode, not_lt.mp hn, not_le.mp hd, ?_, ?_⟩
    · exact not_le.mp fun hout => hy ((getCoordinates_outside (BitVec.toNat_pos_of_ne_zero hW)).mpr hout)
    · by_contra hclean
      rw [modifyPixel_fails _ hclean, Attempt.settle_fails, raise_one he] at h
      cases h
      exact absurd ht (by decide : (0x08 : BitVec 8) ≠ 0)
  all_goals
    cases h
    exact absurd ht (by simp)

/-! ## Pulling -/

/-- Settles O50: while payload is left its next chunk is one of those that fit the image (`rdPos_lt_ceilDiv`), and PULL
extracts the field's low bits. -/
theorem pullYieldsTheNextHiddenChunk : Obligations.PullYieldsTheNextHiddenChunk := by
  intro s hinv he hmode hleft hread
  obtain ⟨hc, hpos⟩ := rdPos_lt_ceilDiv hinv hmode hleft
  have hfits := hinv.payloadFits hmode hc
  have hW : s.regs.imgW ≠ 0 := hinv.session (by rw [hmode]; decide)
  have hexec : exec .pull s = .next (completed s
      (chunkPulled s.regs (s.pixField (BitVec.ofNat 64 (32 + s.regs.rdPos.toNat)))) 1) := by
    rw [exec_pull_eq he, if_neg hW, if_neg (not_not.mpr hmode), if_pos (by omega), readField_clean hread]
  rw [BitVec.ofNat_toNat]
  exact ⟨by omega, _, hexec, setWidth_extractLow_getLsbD hinv.density (by decide : 24 ≤ 32)⟩

/-- Settles O51: with no payload left the last branch of `exec_pull_eq`; with payload left the read fails. -/
theorem pullExhaustedOrFailing : Obligations.PullExhaustedOrFailing := by
  intro s hinv he hmode
  have hW : s.regs.imgW ≠ 0 := hinv.session (by rw [hmode]; decide)
  refine ⟨fun hend => ?_, fun hleft hfail => ?_⟩
  · rw [exec_pull_eq he, if_neg hW, if_neg (not_not.mpr hmode), if_neg (by omega)]
  · rw [exec_pull_eq he, if_neg hW, if_neg (not_not.mpr hmode), if_pos (by omega), readField_fails hfail]

/-- Settles O52: HIDE made the low bits of the pixel the chunk, and PULL extracts as many of the same pixel. -/
theorem pulledChunkIsTheHiddenChunk : Obligations.PulledChunkIsTheHiddenChunk := by
  intro s t u n order data hm he h ht hinv hue hmode hpix _ hpos hcsize hleft hread
  obtain ⟨hW, hhide, hn, hd, hin, hclean⟩ := hide_passed he h ht
  rw [← pixelIndex_getCoordinates order.toNat s.regs.imgW.toNat] at hclean
  obtain ⟨-, hstores, -⟩ := hidingStoresTheChunk s n.toNat order.toNat data hm he hW hhide hn hd hin hclean
  obtain ⟨t', ht', -, hfield, -⟩ := hstores n order rfl rfl
  cases h.symm.trans ht'
  rw [pixelIndex_getCoordinates] at hfield
  obtain rfl := hpos
  rw [← hcsize] at hleft
  obtain ⟨-, d, hpull, hbits⟩ := pullYieldsTheNextHiddenChunk u hinv hue hmode hleft hread
  have hsame : ∀ i, u.pixField i = t.pixField i := fun i => by simp only [State.pixField, State.pixByte, hpix]
  rw [hsame, hcsize] at hbits
  have hdata : d = BitVec.ofNat 32 data.toNat := eq_of_lowBits (by decide) hn hd hfield hbits
  rw [BitVec.ofNat_toNat, BitVec.setWidth_eq] at hdata
  refine ⟨_, hpull, hdata, ?_, rfl, rfl⟩
  rw [← hcsize]
  exact toNat_ofNat_of_lt u.regs.hidCsize.isLt (by decide)

end Sys2Proof.Machine
end
